-- ==== Sys2Proof/Word.lean ====
section
/-! DEFINITION. The widths of the hardware: a byte, a halfword, a word, a block (spec 00_scope.md R4, R8). -/

namespace Sys2Proof

/-- A byte is 8 bits (R4). -/
abbrev Byte := BitVec 8

/-- A 16-bit value of the Word Codec (00_scope.md glossary, "halfword"). -/
abbrev Half := BitVec 16

/-- A word is 4 bytes; every host-visible register is 32 bits wide (R4, R5 `REGW`). -/
abbrev Word := BitVec 32

/-- A block is exactly 32 bytes (R4); byte `j` is logical byte `j` (10_state.md R11). -/
abbrev Block := Vector Byte 32

/-- A group index, 0 to 3 (R4 `GROUPS`). -/
abbrev GroupIx := Fin 4

/-- The index of a byte inside a group, 0 to 7 (R4 `GROUP_BYTES`). -/
abbrev BitIx := Fin 8

/-- A word index, 0 to 7 (R4 `WORDS`). -/
abbrev WordIx := Fin 8

/-- The index of a byte of a block, 0 to 31 (R4 `BLOCK_BYTES`). -/
abbrev ByteIx := Fin 32

end Sys2Proof
end

