-- ==== Sys2Proof/Config.lean ====
section
/-! DEFINITION. What an implementation fixes, and the values the spec leaves free (spec 00_scope.md R5;
93_implementation_defined.md U2, U8). -/

namespace Sys2Proof

/-- What encode does with a trailing partial block (R5 `TAIL_POLICY`, 43_block_driver.md R130). -/
inductive TailPolicy where
  | drop
  | zeropad
  | reject
  deriving DecidableEq, Repr, Inhabited

/-- The two byte-addressed spaces outside the engine (20_memory.md R40). -/
inductive Space where
  | source
  | destination
  deriving DecidableEq, Repr

/-- R5 `MAX_LEN` = 2^28, the largest legal value of SRC_LEN and of DST_CAP. -/
def Config.maxLen : Word := 0x10000000#32

/-- The offset space of either memory: an offset is below 2^32 (20_memory.md R40). -/
def Config.offsetSpace : Nat := 0x100000000

/-- R5 `TAIL_POLICY`: the spec leaves it OPEN (D8), fixed for an implementation. A free value: nothing in Lean says
which of the three it is. DESIGN CHOICE, safe (log 1). -/
opaque Config.tailPolicy : TailPolicy

/-- What a byte of memory holds that nobody has written since power-up: `any value` (U8, 10_state.md R32, R33). A free
value for each space and offset. DESIGN CHOICE, safe (log 2). -/
opaque Config.unwritten : Space → Nat → Byte

end Sys2Proof
end

