-- ==== Sys2Proof/Syntax.lean ====
section
/-! DEFINITION. The instructions (one constructor per row of spec/opcode_table.json), the codes they are encoded in,
the place of a byte in the compressed stream, and the host's actions (spec 30_encoding.md R60 to R75). -/

namespace Sys2Proof

/-- The twelve commands (30_encoding.md R62) and the two kinds of byte of the compressed stream (R67, R71). -/
inductive Instr where
  | nop
  | dec
  | decsz
  | enc
  | encsz
  | xorf
  | xori
  | bmi
  | bmf
  | ldblk
  | stblk
  | clr
  /-- A token byte: bit `7 - k` says that logical byte `k` of the group is a literal that follows (R67). -/
  | token (t : Byte)
  /-- A literal byte: the value of one logical byte whose token bit is 1 (R71). -/
  | literal (v : Byte)
  deriving DecidableEq, Repr

/-- What an instruction is encoded in: a 32-bit word written to CTRL (R60, R61), or one byte of the stream (R67, R71). -/
inductive Code where
  | command (w : Word)
  | element (b : Byte)
  deriving DecidableEq, Repr

/-- What the next byte of the compressed stream is (R71: "whether a given stream byte is a token or a literal depends
only on the bytes before it"): the token of group `g`, or the literal of logical byte `k` of group `g`, whose token is
`tok`. -/
inductive StreamPos where
  | tokenDue (g : GroupIx)
  | literalDue (g : GroupIx) (k : BitIx) (tok : Byte)
  deriving DecidableEq, Repr

/-- One action of the host, a line of a host script (R73), or a hardware reset (70_reset_and_hazards.md R190). Issuing a
command is `writeReg 0` of its word (R73, 44_system.md R153). -/
inductive HostAction where
  /-- `src`: store the bytes in the source space, from an offset on (R73 has offset 0; R195 lets the host rewrite any). -/
  | storeSource (offset : Nat) (bytes : List Byte)
  /-- `wr`: write a register by number (44_system.md R153). -/
  | writeReg (n : Nat) (v : Word)
  /-- `rd`: read a register by number (44_system.md R152). -/
  | readReg (n : Nat)
  /-- `dst n`: read destination offsets 0 to n - 1. -/
  | readDest (n : Nat)
  /-- A hardware reset (70_reset_and_hazards.md R190). -/
  | hardReset
  deriving DecidableEq, Repr

/-- What one read of the host returned. -/
inductive HostSeen where
  | reg (n : Nat) (v : Word)
  | dest (bytes : List Byte)
  deriving DecidableEq, Repr

end Sys2Proof
end

