-- ==== Sys2Proof/Machine/Bits.lean ====
section
/-! DEFINITION. Bits of a token, the byte order of a word, and the indices of a block (spec 20_memory.md R44 to R46;
10_state.md R11, R12; 30_encoding.md R67, R68). -/

namespace Sys2Proof.Machine

/-- Token bit `7 - k`, which flags logical byte `k` of the group (R46, R67). -/
def tokenBit (t : Byte) (k : BitIx) : Bool := t.getLsbD (7 - k.val)

/-- The bytes of a group in increasing `k`, which is most significant token bit first (R67). -/
def groupOrder : List BitIx := [0, 1, 2, 3, 4, 5, 6, 7]

/-- The groups of a block in order (R66). -/
def groups : List GroupIx := [0, 1, 2, 3]

/-- The bytes of a group that come after byte `k`. -/
def groupAfter (k : BitIx) : List BitIx := groupOrder.drop (k.val + 1)

/-- The number of 1 bits of a token (R68 `popcount`). -/
def popcount (t : Byte) : Nat := (groupOrder.filter (tokenBit t)).length

/-- Logical byte `k` of group `g` is `BLK[8g+k]` (R11, R66). -/
def blkIx (g : GroupIx) (k : BitIx) : ByteIx := ⟨8 * g.val + k.val, by omega⟩

/-- Byte `b` of word `i` is `BLK[4i+b]` (R11, R12). -/
def laneIx (i : WordIx) (b : Fin 4) : ByteIx := ⟨4 * i.val + b.val, by omega⟩

/-- The bytes of a block in increasing index. -/
def blockOrder : List ByteIx := List.finRange 32

/-- `hi || lo`, the big-endian 16-bit value of two bytes (R44). -/
def half (hi lo : Byte) : Half := hi ++ lo

/-- `hi || lo`, the big-endian 32-bit value of two halfwords (R44). -/
def wordOfHalves (hi lo : Half) : Word := hi ++ lo

/-- The big-endian 32-bit value of four bytes, the first in bits 31:24 (R44). -/
def wordOfBytes (b0 b1 b2 b3 : Byte) : Word := wordOfHalves (half b0 b1) (half b2 b3)

/-- Bits 15:8 of a halfword. -/
def highByte (v : Half) : Byte := v.extractLsb' 8 8

/-- Bits 7:0 of a halfword. -/
def lowByte (v : Half) : Byte := v.extractLsb' 0 8

/-- Bits 31:16 of a word. -/
def highHalf (v : Word) : Half := v.extractLsb' 16 16

/-- Bits 15:0 of a word. -/
def lowHalf (v : Word) : Half := v.extractLsb' 0 16

/-- Byte `b` of a word in big-endian order, bits `31-8b : 24-8b` (20_memory.md R45). -/
def wordByte (v : Word) (b : Fin 4) : Byte := v.extractLsb' (24 - 8 * b.val) 8

end Sys2Proof.Machine
end

