-- ==== Sys2Proof/WellFormed.lean ====
section
/-! DEFINITION. Which instructions, stream places, group records and host actions are well formed (spec 30_encoding.md
R66 to R72; 20_memory.md R40). -/

namespace Sys2Proof

open Sys2Proof.Machine

/-- A stream place is well formed if the literal it waits for has its token bit set (30_encoding.md R71). -/
def StreamPos.wf : StreamPos → Bool
  | .tokenDue _ => true
  | .literalDue _ k tok => tokenBit tok k

/-- Is the instruction one of the twelve commands (30_encoding.md R62)? -/
def Instr.isCommand : Instr → Bool
  | .nop | .dec | .decsz | .enc | .encsz | .xorf | .xori | .bmi | .bmf | .ldblk | .stblk | .clr => true
  | .token _ | .literal _ => false

/-- Commands have no operand to check (30_encoding.md R61); a stream byte is well formed at the place where it is due
(R71), whatever its value (R72). -/
def Instr.wf (pos : StreamPos) : Instr → Bool
  | .nop | .dec | .decsz | .enc | .encsz | .xorf | .xori | .bmi | .bmf | .ldblk | .stblk | .clr => true
  | .token _ => match pos with
    | .tokenDue _ => true
    | .literalDue _ _ _ => false
  | .literal _ => match pos with
    | .tokenDue _ => false
    | .literalDue _ k tok => tokenBit tok k

/-- A group record: a token and the literals that follow it (30_encoding.md R67). -/
structure GroupRecord where
  token : Byte
  literals : List Byte
  deriving DecidableEq, Repr

/-- R68: as many literals follow as the token has 1 bits. -/
def GroupRecord.wf (r : GroupRecord) : Bool := r.literals.length == popcount r.token

/-- R72 (b): no literal is 0x00. -/
def GroupRecord.canonical (r : GroupRecord) : Bool := r.wf && r.literals.all (· != 0#8)

/-- The bytes of a group record in stream order (R67). -/
def GroupRecord.bytes (r : GroupRecord) : List Byte := r.token :: r.literals

/-- A compressed block is exactly four group records (R66). -/
def compressedBlockWf (rs : List GroupRecord) : Bool := rs.length == 4 && rs.all GroupRecord.wf

/-- A compressed block the encoder could have written (R72). -/
def canonicalBlock (rs : List GroupRecord) : Bool := rs.length == 4 && rs.all GroupRecord.canonical

/-- The bytes of a compressed block: its group records in order (R66). -/
def compressedBlockBytes (rs : List GroupRecord) : List Byte := (rs.map GroupRecord.bytes).flatten

/-- A host action stays inside the offset space of the memory it touches (20_memory.md R40). -/
def HostAction.wf : HostAction → Bool
  | .storeSource offset bytes => decide (offset + bytes.length ≤ Config.offsetSpace)
  | .readDest n => decide (n ≤ Config.offsetSpace)
  | .writeReg _ _ | .readReg _ | .hardReset => true

end Sys2Proof
end

