-- ==== Sys2Proof/Decode.lean ====
section
/-! DEFINITION. The decoder of command words and of stream bytes, and the encoder (spec 30_encoding.md R61 to R64,
R67, R71; opcode_table.json). -/

namespace Sys2Proof

/-- Why a command word is illegal (30_encoding.md R63, in the order of its tests). -/
inductive DecodeError where
  /-- Some bit of 31:5 is set. -/
  | reservedBits
  /-- `OP` is 0x3 or one of 0xB to 0xF. -/
  | reservedOp
  /-- `SZ` = 1 with an `OP` other than DEC or ENC. -/
  | sizeOnly
  deriving DecidableEq, Repr

/-- Field `OP`, bits 3:0 (R61). -/
def opField (w : Word) : BitVec 4 := w.extractLsb' 0 4

/-- Field `SZ`, bit 4 (R61). -/
def szField (w : Word) : Bool := w.getLsbD 4

/-- The reserved field, bits 31:5 (R61). -/
def reservedField (w : Word) : BitVec 27 := w.extractLsb' 5 27

/-- The operation an `OP` field names with `SZ` = 0 (R62); `none` for the reserved values (R63). -/
def commandOfOp (op : BitVec 4) : Option Instr :=
  match op.toNat with
  | 0x0 => some .nop
  | 0x1 => some .dec
  | 0x2 => some .enc
  | 0x4 => some .xorf
  | 0x5 => some .xori
  | 0x6 => some .bmi
  | 0x7 => some .bmf
  | 0x8 => some .ldblk
  | 0x9 => some .stblk
  | 0xA => some .clr
  | _ => none

/-- The size-only variant of a command (R61 `SZ`, R74): DEC and ENC have one. -/
def sizeOnlyOf : Instr → Option Instr
  | .dec => some .decsz
  | .enc => some .encsz
  | _ => none

/-- The decoder of R63, test by test. -/
def decodeCommand (w : Word) : Except DecodeError Instr :=
  if reservedField w ≠ 0#27 then .error .reservedBits
  else
    match commandOfOp (opField w) with
    | none => .error .reservedOp
    | some i =>
      if szField w then
        match sizeOnlyOf i with
        | some j => .ok j
        | none => .error .sizeOnly
      else .ok i

/-- The kind of a stream byte follows from its place alone; every value is legal (R71, R72). -/
def decodeElement (pos : StreamPos) (b : Byte) : Instr :=
  match pos with
  | .tokenDue _ => .token b
  | .literalDue _ _ _ => .literal b

/-- The instruction a code stands for, at a place of the stream. -/
def decode (pos : StreamPos) : Code → Except DecodeError Instr
  | .command w => decodeCommand w
  | .element b => .ok (decodeElement pos b)

/-- The encoder: the word of a command (R62), the byte of a stream element (R67, R71). -/
def encode : Instr → Code
  | .nop => .command 0x00000000#32
  | .dec => .command 0x00000001#32
  | .decsz => .command 0x00000011#32
  | .enc => .command 0x00000002#32
  | .encsz => .command 0x00000012#32
  | .xorf => .command 0x00000004#32
  | .xori => .command 0x00000005#32
  | .bmi => .command 0x00000006#32
  | .bmf => .command 0x00000007#32
  | .ldblk => .command 0x00000008#32
  | .stblk => .command 0x00000009#32
  | .clr => .command 0x0000000A#32
  | .token t => .element t
  | .literal v => .element v

/-- The instruction of a row of the opcode table whose bits are `w`: a 32-bit command word (R60), or an 8-bit stream
byte at the beginning of a block, where R71 makes it a token (log 5). -/
def decodeTableWord (nbits w : Nat) : Option Instr :=
  if nbits = 32 ∧ w < 0x100000000 then
    (decode (.tokenDue 0) (.command (BitVec.ofNat 32 w))).toOption
  else if nbits = 8 ∧ w < 0x100 then
    (decode (.tokenDue 0) (.element (BitVec.ofNat 8 w))).toOption
  else none

end Sys2Proof
end

