-- ==== Sys2Proof/Machine/State.lean ====
section
/-! DEFINITION. The machine's state as plain data, its faults and refusals, and its reset value (spec 10_state.md R10 to
R33). -/

namespace Sys2Proof.Machine

/-- One memory: the bytes somebody has written, by strictly rising offset. An unlisted offset holds NO written value
(10_state.md R32, R33: unspecified at power-up); no entry can equal that, so equal memories are equal lists (log 2). -/
abbrev Memory := List Host.Cell

/-- The canonical form: offsets strictly rising, each below 2^32 (20_memory.md R40). -/
def Memory.wf : Memory → Bool
  | [] => true
  | [c] => decide (c.1 < Config.offsetSpace)
  | c :: d :: m => decide (c.1 < d.1) && decide (c.1 < Config.offsetSpace) && Memory.wf (d :: m)

/-- The machine. The fields down to `dst` are the spec's state (10_state.md R10); `stream`, `script` and `seen` are the
model's own. -/
structure State where
  /-- `BLK`, the block buffer, seen by the host as `W0` to `W7` (R11, R12). -/
  blk : Block
  /-- `SRC_LEN` (R18). -/
  srcLen : Word
  /-- `DST_CAP` (R19). -/
  dstCap : Word
  /-- `SRC_POS` (R15). -/
  srcPos : Word
  /-- `DST_POS` (R16). -/
  dstPos : Word
  /-- `BLKCNT` (R17). -/
  blkCnt : Word
  /-- `BUSY`, STATUS bit 0 (R21, R22). -/
  busy : Bool
  /-- `DONE`, STATUS bit 1 (R21, R22). -/
  done : Bool
  /-- `TRUNC`, STATUS bit 2 (R23). -/
  trunc : Bool
  /-- `TAIL`, STATUS bit 3 (R24). -/
  tail : Bool
  /-- `BOUNDS`, STATUS bit 4 (R25). -/
  bounds : Bool
  /-- `CMDERR`, STATUS bit 5 (R26). -/
  cmderr : Bool
  /-- `CFGERR`, STATUS bit 6 (R27). -/
  cfgerr : Bool
  /-- The source memory (R32). -/
  src : Memory
  /-- The destination memory (R32). -/
  dst : Memory
  /-- MODEL's own: what the next stream byte is; `tokenDue 0` between commands. DESIGN CHOICE (log 4). -/
  stream : StreamPos
  /-- MODEL's own: the host's actions still to come. DESIGN CHOICE (log 3). -/
  script : List HostAction
  /-- MODEL's own: what the host's reads returned, newest first. DESIGN CHOICE (log 3). -/
  seen : List HostSeen
  deriving DecidableEq, Repr

/-- Why a step stops with a fault. The hardware itself has none: its conditions are flags (60_exceptions.md R160). -/
inductive Fault where
  /-- Raised by the host's `src`: a byte of it lies at or above offset 2^32, which is no offset (20_memory.md R40).
  Safe: the hardware does not meet this (log 7). -/
  | sourceOffset (offset : Nat)
  /-- Raised by the host's `dst`: a byte of it lies at or above offset 2^32, which is no offset (20_memory.md R40).
  Safe: the hardware does not meet this (log 7). -/
  | destinationOffset (offset : Nat)
  deriving DecidableEq, Repr

/-- Why an instruction has no meaning. -/
inductive Refusal where
  /-- Raised by an arm of `exec` for an instruction without a meaning. No arm raises it. Safe. -/
  | notModelled (mnemonic : String)
  /-- Raised by TOKEN where a literal is due: by 30_encoding.md R71 a byte there is no token. Safe: no step meets it
  (log 6). -/
  | tokenOutOfPlace
  /-- Raised by LITERAL where a token is due: by 30_encoding.md R71 a byte there is no literal. Safe: no step meets it
  (log 6). -/
  | literalOutOfPlace
  deriving DecidableEq, Repr

/-- The machine right after reset (R33, 70_reset_and_hazards.md R190): every register and flag 0. Nothing has been
written to either memory, the host has nothing to do and has seen nothing (log 2, log 3, log 4). -/
def State.reset : State where
  blk := Vector.replicate 32 0#8
  srcLen := 0#32
  dstCap := 0#32
  srcPos := 0#32
  dstPos := 0#32
  blkCnt := 0#32
  busy := false
  done := false
  trunc := false
  tail := false
  bounds := false
  cmderr := false
  cfgerr := false
  src := []
  dst := []
  stream := .tokenDue 0
  script := []
  seen := []

end Sys2Proof.Machine
end

