-- ==== Sys2Proof/Machine/Flags.lean ====
section
/-! DEFINITION. The STATUS register and the tests behind its flags (spec 10_state.md R21 to R28; 60_exceptions.md R160
to R165; 40_cursor_word.md R82, R83). -/

namespace Sys2Proof.Machine

/-- One flag at its bit position of STATUS. -/
def flagBit (b : Bool) (n : Nat) : Word := if b then (1#32 <<< n) else 0#32

/-- `STATUS` as the host reads it (R21): the seven flags at bits 0 to 6, zeros elsewhere. -/
def statusWord (s : State) : Word :=
  flagBit s.busy 0 ||| flagBit s.done 1 ||| flagBit s.trunc 2 ||| flagBit s.tail 3 ||| flagBit s.bounds 4
    ||| flagBit s.cmderr 5 ||| flagBit s.cfgerr 6

/-- `Exhausted()`: `SRC_POS >= SRC_LEN` (40_cursor_word.md R83). -/
def exhausted (s : State) : Bool := decide (s.srcLen ≤ s.srcPos)

/-- The cause of Bounds: `DST_POS >= DST_CAP` (40_cursor_word.md R82, 60_exceptions.md R163). -/
def destFull (s : State) : Bool := decide (s.dstCap ≤ s.dstPos)

/-- The cause of CFGERR: `SRC_LEN > MAX_LEN` or `DST_CAP > MAX_LEN` (60_exceptions.md R165). -/
def lengthsIllegal (s : State) : Bool := decide (Config.maxLen < s.srcLen) || decide (Config.maxLen < s.dstCap)

/-- `rem` of LDBLK, the source bytes left (43_block_driver.md R130). -/
def remaining (s : State) : Nat := s.srcLen.toNat - s.srcPos.toNat

/-- The trailing partial block that ENC and ENCSZ refuse under REJECT (43_block_driver.md R134): `SRC_LEN mod 32`
is not 0. -/
def lengthPartial (s : State) : Bool := decide (s.srcLen.toNat % 32 ≠ 0)

end Sys2Proof.Machine
end

