-- ==== Sys2Proof/Machine/Ops.lean ====
section
/-! DEFINITION. The named operations: the two memories, bytes of BLK, the byte cursors, and the life of a command with
its abort (spec 20_memory.md R41 to R43; 40_cursor_word.md R80 to R83; 44_system.md R154; 60_exceptions.md R168). -/

namespace Sys2Proof.Machine

/-! ### A memory -/

/-- The byte written last at offset `a`, if any was. -/
def findByte (m : Memory) (a : Nat) : Option Byte :=
  match m with
  | [] => none
  | c :: m => if c.1 = a then some c.2 else findByte m a

/-- Store byte `v` at offset `a`, keeping the canonical form. -/
def storeByte (m : Memory) (a : Nat) (v : Byte) : Memory :=
  match m with
  | [] => [(a, v)]
  | c :: m =>
    if a < c.1 then (a, v) :: c :: m
    else if a = c.1 then (a, v) :: m
    else c :: storeByte m a v

/-- Store a list of bytes from offset `a` on. -/
def storeBytes (m : Memory) (a : Nat) : List Byte → Memory
  | [] => m
  | v :: vs => storeBytes (storeByte m a v) (a + 1) vs

/-- What offset `a` of a memory reads as: the byte written there, else whatever it held at power-up
(93_implementation_defined.md U8; log 2). -/
def byteAt (sp : Space) (m : Memory) (a : Nat) : Byte := (findByte m a).getD (Config.unwritten sp a)

/-- `MemRead(addr, 1)`: the byte at an offset of the source space (20_memory.md R41). Every caller has established
`addr < SRC_LEN`. -/
def memRead (s : State) (a : Nat) : Byte := byteAt .source s.src a

/-- The byte at an offset of the destination space, as the host reads it (20_memory.md R40, R53). -/
def destByte (s : State) (a : Nat) : Byte := byteAt .destination s.dst a

/-- `MemWrite(addr, 1, v)`: store a byte in the destination space (20_memory.md R42). The one caller, `emit`, has
established `addr < DST_CAP`. -/
def memWrite (s : State) (a : Nat) (v : Byte) : State := { s with dst := storeByte s.dst a v }

/-! ### The block buffer -/

/-- `BLK[j]`. -/
def getByte (s : State) (j : ByteIx) : Byte := s.blk[j]

/-- `BLK[j] <- v`. -/
def setByte (s : State) (j : ByteIx) (v : Byte) : State := { s with blk := s.blk.set j v }

/-! ### The cursors -/

/-- `SRC_POS <- SRC_POS + 1` (40_cursor_word.md R81). -/
def advanceSrc (s : State) : State := { s with srcPos := s.srcPos + 1#32 }

/-- `DST_POS <- DST_POS + 1` (40_cursor_word.md R82). -/
def advanceDst (s : State) : State := { s with dstPos := s.dstPos + 1#32 }

/-- `BLKCNT <- BLKCNT + 1` (10_state.md R17). -/
def countBlock (s : State) : State := { s with blkCnt := s.blkCnt + 1#32 }

/-- `PeekB(buf, off)` over the source space, defined only for `off < SRC_LEN` (40_cursor_word.md R80; log 13). -/
def peekSource (s : State) (off : Nat) : Option Byte :=
  if off < s.srcLen.toNat then some (memRead s off) else none

/-- `PeekB(buf, off)` over BLK, defined only for `off <= 31` (40_cursor_word.md R80; log 13). -/
def peekBlock (s : State) (off : Nat) : Option Byte :=
  if h : off < 32 then some (getByte s ⟨off, h⟩) else none

/-- `ReadSrc()`: the byte at SRC_POS, and the state with the cursor advanced (40_cursor_word.md R81). Every caller has
established that the source is not exhausted. -/
def readSrc (s : State) : Byte × State := (memRead s s.srcPos.toNat, advanceSrc s)

/-! ### Sticky flags a command sets -/

/-- `TRUNC <- 1` (10_state.md R23). -/
def setTrunc (s : State) : State := { s with trunc := true }

/-- `TAIL <- 1` (10_state.md R24). -/
def setTail (s : State) : State := { s with tail := true }

/-! ### The abort: the hardware's only trap entry -/

/-- How far a piece of a command has come: it goes on, or Bounds was raised and nothing later of it is executed. -/
inductive Progress where
  | running (s : State)
  | aborted (s : State)
  deriving DecidableEq, Repr

/-- `raise Bounds(addr)`: `BOUNDS <- 1` and the command in progress stops at that point, with all state as it is
(60_exceptions.md R168). Nothing is saved and control goes nowhere; the refused offset stays in DST_POS. -/
def raiseBounds (s : State) : Progress := .aborted { s with bounds := true }

/-- Go on with a later line of the pseudocode, unless Bounds was raised. -/
def andThen (p : Progress) (f : State → Progress) : Progress :=
  match p with
  | .running s => f s
  | .aborted s => .aborted s

/-- The state a piece of a command ends in, whether it ran to its end or was aborted. -/
def progressState (p : Progress) : State :=
  match p with
  | .running s => s
  | .aborted s => s

/-- `Emit(v, sz)`: the bounds check, the byte, the cursor; with `sz` only the cursor (40_cursor_word.md R82). -/
def emit (v : Byte) (sz : Bool) (s : State) : Progress :=
  if sz then .running (advanceDst s)
  else if destFull s then raiseBounds s
  else .running (advanceDst (memWrite s s.dstPos.toNat v))

/-- Emit a list of bytes, one after another. -/
def emitAll (vs : List Byte) (sz : Bool) (s : State) : Progress :=
  match vs with
  | [] => .running s
  | v :: vs => andThen (emit v sz s) (emitAll vs sz)

/-! ### The life of a command (44_system.md R154) -/

/-- A command is accepted: `BUSY <- 1; DONE <- 0` (10_state.md R22). -/
def accept (s : State) : State := { s with busy := true, done := false }

/-- `end`: `BUSY <- 0; DONE <- 1` (10_state.md R22). There is no other return: nothing was entered
(60_exceptions.md R170). -/
def complete (s : State) : State := { s with busy := false, done := true }

/-- `CMDERR <- 1` (30_encoding.md R64). -/
def refuseCommand (s : State) : State := { s with cmderr := true }

/-- `CFGERR <- 1` (60_exceptions.md R165). -/
def refuseConfig (s : State) : State := { s with cfgerr := true }

/-- Zero the cursors, BLKCNT and the sticky flags: CLR (44_system.md R151) and the start of a whole-buffer command
(43_block_driver.md R136). -/
def clearPass (s : State) : State :=
  { s with
    srcPos := 0#32, dstPos := 0#32, blkCnt := 0#32,
    trunc := false, tail := false, bounds := false, cmderr := false, cfgerr := false }

/-- Steps 3 and 5 of issuing a stage command: the CFGERR test, then the command's pseudocode (44_system.md R154). -/
def runStage (body : State → Progress) (s : State) : State :=
  if lengthsIllegal s then complete (refuseConfig (accept s))
  else complete (progressState (body (accept s)))

/-- Steps 3 to 5 of issuing a whole-buffer command: the CFGERR test, the zeroing, then the command's pseudocode
(44_system.md R154, 43_block_driver.md R136). -/
def runWhole (body : State → Progress) (s : State) : State :=
  if lengthsIllegal s then complete (refuseConfig (accept s))
  else complete (progressState (body (clearPass (accept s))))

end Sys2Proof.Machine
end

