-- ==== Sys2Proof/Machine/Operands.lean ====
section
/-! DEFINITION. The operand forms: the word view of BLK, the Word Codec, the token of a group, the compressed bytes of a
block (spec 10_state.md R12; 20_memory.md R44, R45; 40_cursor_word.md R84 to R89; 42_sparse_bitmap.md R112). -/

namespace Sys2Proof.Machine

/-! ### The word view of a block -/

/-- `W[i]`: the big-endian value of four bytes of the block (10_state.md R12). -/
def wordOf (b : Block) (i : WordIx) : Word :=
  wordOfBytes b[laneIx i 0] b[laneIx i 1] b[laneIx i 2] b[laneIx i 3]

/-- `W[i] <- v`: store the four bytes of `v`, the most significant first (10_state.md R12, 40_cursor_word.md R89). -/
def setWord (b : Block) (i : WordIx) (v : Word) : Block :=
  (((b.set (laneIx i 0) (wordByte v 0)).set (laneIx i 1) (wordByte v 1)).set (laneIx i 2) (wordByte v 2)).set
    (laneIx i 3) (wordByte v 3)

/-! ### The Word Codec -/

/-- `PeekW` from a byte peek: two bytes, the first in bits 15:8 (40_cursor_word.md R84). -/
def peekHalf (peek : Nat → Option Byte) (off : Nat) : Option Half :=
  match peek off, peek (off + 1) with
  | some hi, some lo => some (half hi lo)
  | _, _ => none

/-- `PeekD` from a byte peek: two halfwords, the first in bits 31:16 (40_cursor_word.md R87). -/
def peekWord (peek : Nat → Option Byte) (off : Nat) : Option Word :=
  match peekHalf peek off, peekHalf peek (off + 2) with
  | some hi, some lo => some (wordOfHalves hi lo)
  | _, _ => none

/-- `ReadW()`: two advancing byte reads, defined only when `SRC_POS + 2 <= SRC_LEN` (40_cursor_word.md R85; log 13). -/
def readHalf (s : State) : Option (Half × State) :=
  if s.srcPos.toNat + 2 ≤ s.srcLen.toNat then
    let hi := readSrc s
    let lo := readSrc hi.2
    some (half hi.1 lo.1, lo.2)
  else none

/-- `ReadD()`: two advancing halfword reads, defined only when `SRC_POS + 4 <= SRC_LEN` (40_cursor_word.md R88;
log 13). -/
def readWord (s : State) : Option (Word × State) :=
  if s.srcPos.toNat + 4 ≤ s.srcLen.toNat then
    match readHalf s with
    | some hi =>
      match readHalf hi.2 with
      | some lo => some (wordOfHalves hi.1 lo.1, lo.2)
      | none => none
    | none => none
  else none

/-- `WriteW(v, sz)`: the high byte, then the low byte (40_cursor_word.md R86). -/
def writeHalf (v : Half) (sz : Bool) (s : State) : Progress :=
  andThen (emit (highByte v) sz s) (emit (lowByte v) sz)

/-- `WriteD(v, sz)`: the high halfword, then the low halfword (40_cursor_word.md R89). -/
def writeWord (v : Word) (sz : Bool) (s : State) : Progress :=
  andThen (writeHalf (highHalf v) sz s) (writeHalf (lowHalf v) sz)

/-! ### A block as a compressed block -/

/-- `BLK[8g+k] != 0x00`. -/
def isLiteral (b : Block) (g : GroupIx) (k : BitIx) : Bool := b[blkIx g k] != 0#8

/-- `Token(g)`: bit `7 - k` is 1 when logical byte `k` of the group is not 0x00 (42_sparse_bitmap.md R112). -/
def tokenOf (b : Block) (g : GroupIx) : Byte :=
  groupOrder.foldl (fun t k => if isLiteral b g k then t ||| (1#8 <<< (7 - k.val)) else t) 0#8

/-- The literals of a group: its non-zero bytes in increasing `k` (30_encoding.md R67, 42_sparse_bitmap.md R111). -/
def literalsOf (b : Block) (g : GroupIx) : List Byte :=
  (groupOrder.filter (isLiteral b g)).map (fun k => b[blkIx g k])

/-- The group record of a group: its token, then its literals (30_encoding.md R67). -/
def recordOf (b : Block) (g : GroupIx) : GroupRecord where
  token := tokenOf b g
  literals := literalsOf b g

/-- The bytes of a block's compressed block, in the order BMF emits them (30_encoding.md R66, 42_sparse_bitmap.md
R111). -/
def compressedBytes (b : Block) : List Byte := compressedBlockBytes (groups.map (recordOf b))

end Sys2Proof.Machine
end

