-- ==== Sys2Proof/Machine/Bitmap.lean ====
section
/-! DEFINITION. BMI and BMF, the Sparse Bitmap Transform (spec 42_sparse_bitmap.md R110 to R118). -/

namespace Sys2Proof.Machine

/-- The source ran out where a byte was due: `stop = true; TRUNC <- 1` (R110, R115). The pair is the temporary `stop`
and the state. -/
def stopTruncated (s : State) : Bool × State := (true, setTrunc s)

/-- The token of a group (R110): read it, unless input has stopped or the source is exhausted. The result is the token
(0x00 when none was read), `stop`, and the state. -/
def bmiToken (c : Bool × State) : Byte × Bool × State :=
  if c.1 then (0#8, c)
  else if exhausted c.2 then (0#8, stopTruncated c.2)
  else ((readSrc c.2).1, false, (readSrc c.2).2)

/-- One logical byte of a group whose token is `tok` (R110): a literal, or 0x00. -/
def bmiByte (g : GroupIx) (tok : Byte) (c : Bool × State) (k : BitIx) : Bool × State :=
  if !c.1 && tokenBit tok k then
    if exhausted c.2 then (true, setByte (stopTruncated c.2).2 (blkIx g k) 0#8)
    else (false, setByte (readSrc c.2).2 (blkIx g k) (readSrc c.2).1)
  else (c.1, setByte c.2 (blkIx g k) 0#8)

/-- One group record of the block (R110). -/
def bmiGroup (c : Bool × State) (g : GroupIx) : Bool × State :=
  let t := bmiToken c
  groupOrder.foldl (bmiByte g t.1) t.2

/-- The BMI stage: pull one compressed block from the source space into BLK (R110). -/
def bmiStage (s : State) : State :=
  let s := if exhausted s then s else countBlock s
  (groups.foldl bmiGroup (false, s)).2

/-- The BMF stage: emit BLK as one compressed block (R111). -/
def bmfStage (sz : Bool) (s : State) : Progress := emitAll (compressedBytes s.blk) sz s

/-- BMI (R110). -/
def execBmi (s : State) : Host.Outcome State Fault Refusal := .next (runStage (fun s => .running (bmiStage s)) s)

/-- BMF (R111). -/
def execBmf (s : State) : Host.Outcome State Fault Refusal := .next (runStage (bmfStage false) s)

end Sys2Proof.Machine
end

