-- ==== Sys2Proof/Machine/Block.lean ====
section
/-! DEFINITION. LDBLK and STBLK, the two data-moving stages (spec 43_block_driver.md R130, R131). -/

namespace Sys2Proof.Machine

/-- `if j < n: BLK[j] <- ReadSrc() else: BLK[j] <- 0x00` (R130). -/
def loadByte (n : Nat) (s : State) (j : ByteIx) : State :=
  if j.val < n then setByte (readSrc s).2 j (readSrc s).1 else setByte s j 0#8

/-- Fill BLK with the next `n` source bytes and zeros after them (R130). -/
def loadBytes (n : Nat) (s : State) : State := blockOrder.foldl (loadByte n) s

/-- The LDBLK stage under a tail policy: the result `loaded`, and the state (R130). -/
def ldblkStage (p : TailPolicy) (s : State) : Bool × State :=
  if 32 ≤ remaining s then (true, countBlock (loadBytes 32 s))
  else if 1 ≤ remaining s then
    match p with
    | .zeropad => (true, countBlock (loadBytes (remaining s) (setTail s)))
    | .drop | .reject => (false, setTail s)
  else (false, s)

/-- The STBLK stage: append all 32 bytes to the output (R131). -/
def stblkStage (sz : Bool) (s : State) : Progress := emitAll s.blk.toList sz s

/-- LDBLK (R130). -/
def execLdblk (s : State) : Host.Outcome State Fault Refusal :=
  .next (runStage (fun s => .running (ldblkStage Config.tailPolicy s).2) s)

/-- STBLK (R131). -/
def execStblk (s : State) : Host.Outcome State Fault Refusal := .next (runStage (stblkStage false) s)

end Sys2Proof.Machine
end

