-- ==== Sys2Proof/Machine/Xor.lean ====
section
/-! DEFINITION. XORF and XORI, the XOR Delta Transform (spec 41_xor_delta.md R100, R101). -/

namespace Sys2Proof.Machine

/-- The word indices in increasing order. -/
def wordsUp : List WordIx := [0, 1, 2, 3, 4, 5, 6, 7]

/-- The word indices `7 downto 1`. -/
def wordsDown : List WordIx := [7, 6, 5, 4, 3, 2, 1]

/-- One pass of XORF's loop: `W[i] <- W[i] ^ acc; acc = W[i]` (R100). -/
def xorForwardStep (c : Word × Block) (i : WordIx) : Word × Block :=
  let w := wordOf c.2 i ^^^ c.1
  (w, setWord c.2 i w)

/-- The forward transform: the prefix-XOR chain, with `acc` starting at 0 (R100). -/
def xorForward (b : Block) : Block := (wordsUp.foldl xorForwardStep (0#32, b)).2

/-- One pass of XORI's loop: `W[i] <- W[i] ^ W[i-1]` (R101). -/
def xorInverseStep (b : Block) (i : WordIx) : Block := setWord b i (wordOf b i ^^^ wordOf b (i - 1))

/-- The inverse transform: the difference chain, in decreasing order (R101). -/
def xorInverse (b : Block) : Block := wordsDown.foldl xorInverseStep b

/-- The XORF stage: the forward transform of BLK in place. -/
def xorfStage (s : State) : State := { s with blk := xorForward s.blk }

/-- The XORI stage: the inverse transform of BLK in place. -/
def xoriStage (s : State) : State := { s with blk := xorInverse s.blk }

/-- XORF (R100). -/
def execXorf (s : State) : Host.Outcome State Fault Refusal := .next (runStage (fun s => .running (xorfStage s)) s)

/-- XORI (R101). -/
def execXori (s : State) : Host.Outcome State Fault Refusal := .next (runStage (fun s => .running (xoriStage s)) s)

end Sys2Proof.Machine
end

