-- ==== Sys2Proof/Machine/Driver.lean ====
section
/-! DEFINITION. DEC, DECSZ, ENC and ENCSZ, the whole-buffer commands (spec 43_block_driver.md R132 to R137). -/

namespace Sys2Proof.Machine

/-- `while not Exhausted(): BMI; XORF; STBLK(sz)` (R132), at most `fuel` times. -/
def decLoop (sz : Bool) (fuel : Nat) (s : State) : Progress :=
  match fuel with
  | 0 => .running s
  | fuel + 1 =>
    if exhausted s then .running s
    else andThen (stblkStage sz (xorfStage (bmiStage s))) (decLoop sz fuel)

/-- The decode pass: at most SRC_LEN iterations (R132, R137; log 10). -/
def decPass (sz : Bool) (s : State) : Progress := decLoop sz s.srcLen.toNat s

/-- `loop: if not LDBLK: break; XORI; BMF(sz)` (R134), at most `fuel` times. -/
def encLoop (p : TailPolicy) (sz : Bool) (fuel : Nat) (s : State) : Progress :=
  match fuel with
  | 0 => .running s
  | fuel + 1 =>
    if (ldblkStage p s).1 then andThen (bmfStage sz (xoriStage (ldblkStage p s).2)) (encLoop p sz fuel)
    else .running (ldblkStage p s).2

/-- The encode pass: REJECT's test, then at most `floor(SRC_LEN / 32) + 1` loads and the iteration that does not load
(R134, R137; log 10). -/
def encPass (p : TailPolicy) (sz : Bool) (s : State) : Progress :=
  if lengthPartial s && p == .reject then .running (setTail s)
  else encLoop p sz (s.srcLen.toNat / 32 + 2) s

/-- DEC (R132). -/
def execDec (s : State) : Host.Outcome State Fault Refusal := .next (runWhole (decPass false) s)

/-- DECSZ (R133). -/
def execDecsz (s : State) : Host.Outcome State Fault Refusal := .next (runWhole (decPass true) s)

/-- ENC (R134). -/
def execEnc (s : State) : Host.Outcome State Fault Refusal := .next (runWhole (encPass Config.tailPolicy false) s)

/-- ENCSZ (R135). -/
def execEncsz (s : State) : Host.Outcome State Fault Refusal := .next (runWhole (encPass Config.tailPolicy true) s)

end Sys2Proof.Machine
end

