-- ==== Sys2Proof/Machine/Stream.lean ====
section
/-! DEFINITION. TOKEN and LITERAL, the two kinds of byte of the compressed stream, one at a time (spec 30_encoding.md
R67, R71; 42_sparse_bitmap.md R115). -/

namespace Sys2Proof.Machine

/-- The group record in hand is complete: the token of the next group is due, and after group 3 the block, and with it
the command BMI, is complete (R71, R66; log 4). -/
def endGroup (g : GroupIx) (s : State) : State :=
  if g = 3 then complete { s with stream := .tokenDue 0 }
  else { s with stream := .tokenDue (g + 1) }

/-- Go through the bytes `ks` of group `g`: a byte whose token bit is 0 becomes 0x00 and uses no stream byte; at the
first whose bit is 1 a literal is due (R71). -/
def seekLiteral (g : GroupIx) (tok : Byte) (ks : List BitIx) (s : State) : State :=
  match ks with
  | [] => endGroup g s
  | k :: ks =>
    if tokenBit tok k then { s with stream := .literalDue g k tok }
    else seekLiteral g tok ks (setByte s (blkIx g k) 0#8)

/-- The token of group 0 begins a block (10_state.md R17). -/
def beginBlock (g : GroupIx) (s : State) : State := if g = 0 then countBlock s else s

/-- Zero-fill the bytes `ks` of group `g`. -/
def zeroBytes (g : GroupIx) (ks : List BitIx) (s : State) : State :=
  ks.foldl (fun s k => setByte s (blkIx g k) 0#8) s

/-- Zero-fill every byte of the block not yet produced at a place of the stream (R115). -/
def zeroRest (pos : StreamPos) (s : State) : State :=
  match pos with
  | .tokenDue g => (groups.drop g.val).foldl (fun s g => zeroBytes g groupOrder s) s
  | .literalDue g k _ =>
    (groups.drop (g.val + 1)).foldl (fun s g => zeroBytes g groupOrder s) (zeroBytes g (groupOrder.drop k.val) s)

/-- The source is exhausted where a stream byte is due: TRUNC is set, the rest of the block is zero-filled, and the
block is complete (42_sparse_bitmap.md R115; log 4). -/
def truncateBlock (s : State) : State :=
  complete { zeroRest s.stream (setTrunc s) with stream := .tokenDue 0 }

/-- TOKEN: the stream byte at SRC_POS is the token `t` of the group that is due (R67, R71). -/
def execToken (t : Byte) (s : State) : Host.Outcome State Fault Refusal :=
  match s.stream with
  | .tokenDue g => .next (seekLiteral g t groupOrder (advanceSrc (beginBlock g s)))
  | .literalDue _ _ _ => .refused .tokenOutOfPlace

/-- LITERAL: the stream byte at SRC_POS is the value `v` of the logical byte that is due (R67, R71). -/
def execLiteral (v : Byte) (s : State) : Host.Outcome State Fault Refusal :=
  match s.stream with
  | .tokenDue _ => .refused .literalOutOfPlace
  | .literalDue g k tok => .next (seekLiteral g tok (groupAfter k) (setByte (advanceSrc s) (blkIx g k) v))

end Sys2Proof.Machine
end

