-- ==== Sys2Proof/Machine/System.lean ====
section
/-! DEFINITION. NOP and CLR (spec 44_system.md R150, R151). -/

namespace Sys2Proof.Machine

/-- NOP: nothing but the completion (R150). No CFGERR test is made. -/
def execNop (s : State) : Host.Outcome State Fault Refusal := .next (complete (accept s))

/-- CLR: the cursors, BLKCNT and the sticky flags become 0 (R151). No CFGERR test is made. -/
def execClr (s : State) : Host.Outcome State Fault Refusal := .next (complete (clearPass (accept s)))

end Sys2Proof.Machine
end

