-- ==== Sys2Proof/Machine/Dispatch.lean ====
section
/-! DEFINITION. The dispatch: one arm per instruction (spec opcode_table.json). -/

namespace Sys2Proof.Machine

def exec (i : Instr) (s : State) : Host.Outcome State Fault Refusal :=
  match i with
  | .nop => Sys2Proof.Machine.execNop s
  | .dec => Sys2Proof.Machine.execDec s
  | .decsz => Sys2Proof.Machine.execDecsz s
  | .enc => Sys2Proof.Machine.execEnc s
  | .encsz => Sys2Proof.Machine.execEncsz s
  | .xorf => Sys2Proof.Machine.execXorf s
  | .xori => Sys2Proof.Machine.execXori s
  | .bmi => Sys2Proof.Machine.execBmi s
  | .bmf => Sys2Proof.Machine.execBmf s
  | .ldblk => Sys2Proof.Machine.execLdblk s
  | .stblk => Sys2Proof.Machine.execStblk s
  | .clr => Sys2Proof.Machine.execClr s
  | .token t => Sys2Proof.Machine.execToken t s
  | .literal v => Sys2Proof.Machine.execLiteral v s

end Sys2Proof.Machine
end

