-- ==== Sys2Proof/Machine/HostPort.lean ====
section
/-! DEFINITION. What the host does between two commands: register access, command issue, memory access, reset (spec
10_state.md R29, R33; 44_system.md R152 to R154; 30_encoding.md R73), and the fetch of a stream byte. -/

namespace Sys2Proof.Machine

/-- The index of `W0` to `W7` among the registers, numbers 8 to 15 (10_state.md R29). -/
def wordReg (n : Nat) : Option WordIx := if h : 8 ≤ n ∧ n < 16 then some ⟨n - 8, by omega⟩ else none

/-- Host register read (44_system.md R152). CTRL and the reserved numbers read 0. -/
def readRegister (n : Nat) (s : State) : Word :=
  match n with
  | 0 => 0#32
  | 1 => statusWord s
  | 2 => s.srcLen
  | 3 => s.dstCap
  | 4 => s.srcPos
  | 5 => s.dstPos
  | 6 => s.blkCnt
  | n =>
    match wordReg n with
    | some i => wordOf s.blk i
    | none => 0#32

/-- Command issue, what a write of `w` to CTRL does (44_system.md R154): a legal word runs its command, any other sets
CMDERR and DONE and changes nothing else (30_encoding.md R64). -/
def issue (w : Word) (s : State) : Host.Outcome State Fault Refusal :=
  match decode s.stream (.command w) with
  | .ok i => exec i s
  | .error _ => .next (complete (refuseCommand (accept s)))

/-- The effect of a host register write on a register other than CTRL (44_system.md R153). -/
def writeRegister (n : Nat) (v : Word) (s : State) : State :=
  match n with
  | 2 => { s with srcLen := v }
  | 3 => { s with dstCap := v }
  | n =>
    match wordReg n with
    | some i => { s with blk := setWord s.blk i v }
    | none => s

/-- A hardware reset: every register and flag takes its reset value, neither memory is touched (10_state.md R33,
70_reset_and_hazards.md R190). The host goes on with its script. -/
def hardReset (s : State) : State :=
  { State.reset with src := s.src, dst := s.dst, script := s.script, seen := s.seen }

/-- Destination offsets 0 to `n - 1` (30_encoding.md R73 `dst`). -/
def destBytes (n : Nat) (s : State) : List Byte := (List.range n).map (destByte s)

/-- One action of the host on an idle engine. An access past the offset space faults (log 7). -/
def hostAct (a : HostAction) (s : State) : Host.Outcome State Fault Refusal :=
  match a with
  | .storeSource offset bytes =>
    if a.wf then .next { s with src := storeBytes s.src offset bytes } else .fault (.sourceOffset (offset + bytes.length))
  | .writeReg n v => if n = 0 then issue v s else .next (writeRegister n v s)
  | .readReg n => .next { s with seen := .reg n (readRegister n s) :: s.seen }
  | .readDest n => if a.wf then .next { s with seen := .dest (destBytes n s) :: s.seen } else .fault (.destinationOffset n)
  | .hardReset => .next (hardReset s)

/-- The host's turn: it performs its next action; with nothing to do the engine stays idle and keeps all state
(60_exceptions.md R174; log 3, log 12). -/
def hostTurn (s : State) : Host.Outcome State Fault Refusal :=
  match s.script with
  | [] => .next s
  | a :: rest => hostAct a { s with script := rest }

/-- The stream byte at SRC_POS (40_cursor_word.md R81; 10_state.md R30). -/
def fetchByte (s : State) : Byte := memRead s s.srcPos.toNat

/-- The engine's turn inside a block: it fetches the stream byte at SRC_POS and runs it, or meets the end of the source
(30_encoding.md R71, 42_sparse_bitmap.md R115; log 4). -/
def streamTurn (s : State) : Host.Outcome State Fault Refusal :=
  if exhausted s then .next (truncateBlock s) else exec (decodeElement s.stream (fetchByte s)) s

/-- The state in which the host's next action is to write the command word `w` to CTRL. -/
def withCommand (w : Word) (s : State) : State := { s with busy := false, script := .writeReg 0 w :: s.script }

/-- The place with a token due that a place leaves alone or falls back to. -/
def tokenPlace : StreamPos → StreamPos
  | .tokenDue g => .tokenDue g
  | .literalDue _ _ _ => .tokenDue 0

/-- The state in which the engine stands before the stream byte `b`, a token (log 5): the byte is in the source space
at SRC_POS, inside SRC_LEN. -/
def withElement (b : Byte) (s : State) : State :=
  let p := if s.srcPos = BitVec.allOnes 32 then 0#32 else s.srcPos
  { s with
    busy := true, stream := tokenPlace s.stream, srcPos := p,
    srcLen := if p < s.srcLen then s.srcLen else p + 1#32,
    src := storeByte s.src p.toNat b }

end Sys2Proof.Machine
end

