-- ==== Sys2Proof/Machine/Step.lean ====
section
/-! DEFINITION. One step of the machine: the host's next action on an idle engine, a command being one of them (spec
00_scope.md R6), or, inside a block, the next byte of the compressed stream. -/

namespace Sys2Proof.Machine

/-- One step. With BUSY = 0 the host acts, and a command it issues is executed whole (R6). BUSY = 1 stands between no
two steps of a run from reset; there the engine runs one stream byte of the block in hand (log 4). -/
def step (s : State) : Host.Outcome State Fault Refusal :=
  if s.busy then streamTurn s else hostTurn s

/-- Place an instruction where `step` takes its next one: a command word as the host's next write to CTRL, a stream byte
at SRC_POS with the engine inside a block (log 3, log 5, log 14). -/
def State.withFetchWord (s : State) (nbits w : Nat) : State :=
  if nbits = 8 then withElement (BitVec.ofNat 8 w) s else withCommand (BitVec.ofNat 32 w) s

end Sys2Proof.Machine
end

