-- ==== Sys2Proof/Safety.lean ====
section
/-! DEFINITION. The terms claims are stated in: a safe state, what a space holds, and the transforms as functions of
lists of bytes, written from the stream format and not from the machine's loops (spec 10_state.md R34; 30_encoding.md
R65 to R72; 41_xor_delta.md R100, R103; 43_block_driver.md R132, R134, R143). -/

namespace Sys2Proof.Safety

open Sys2Proof Sys2Proof.Machine

/-! ### Safe states -/

/-- No command is refused for its configuration: neither length is above MAX_LEN (10_state.md R27). -/
abbrev lengthsLegal (s : State) : Prop := s.srcLen ≤ Config.maxLen ∧ s.dstCap ≤ Config.maxLen

/-- Between two commands the engine is idle, at the beginning of a block (10_state.md R22; log 4). -/
abbrev atRest (s : State) : Prop := s.busy = false ∧ s.stream = .tokenDue 0

/-- Both memories have their canonical form, and no destination byte at or beyond MAX_LEN was ever written
(20_memory.md R42, 10_state.md R19). -/
abbrev memoriesWf (s : State) : Prop :=
  Memory.wf s.src = true ∧ Memory.wf s.dst = true ∧ ∀ c ∈ s.dst, c.1 < Config.maxLen.toNat

/-- No counter is near its width (10_state.md R34). -/
abbrev countersBounded (s : State) : Prop :=
  s.blkCnt.toNat ≤ s.srcPos.toNat ∧ s.srcPos.toNat ≤ 2 ^ 28 ∧ s.dstPos.toNat ≤ 2 ^ 31 + 32

/-- The state of every register and flag of the STATUS word replaced by another state's. -/
def withFlagsOf (f s : State) : State :=
  { s with
    busy := f.busy, done := f.done, trunc := f.trunc, tail := f.tail, bounds := f.bounds, cmderr := f.cmderr,
    cfgerr := f.cfgerr }

/-- The sticky flags of R28, named. -/
def stickyFlags (s : State) : List Bool := [s.trunc, s.tail, s.bounds, s.cmderr, s.cfgerr]

/-! ### What a space holds -/

/-- The source space holds the bytes `bs` from offset `a` on. -/
abbrev sourceHolds (s : State) (a : Nat) (bs : List Byte) : Prop := ∀ n : Fin bs.length, memRead s (a + n.val) = bs[n]

/-- The destination memory `m` is `m0` with the bytes `bs` written from offset `a` on, and nothing else. -/
abbrev writtenAt (m0 m : Memory) (a : Nat) (bs : List Byte) : Prop :=
  ∀ x, byteAt .destination m x =
    if a ≤ x ∧ x < a + bs.length then bs.getD (x - a) 0#8 else byteAt .destination m0 x

/-- The source bytes from SRC_POS to the declared end. -/
def inputLeft (s : State) : List Byte := (List.range (remaining s)).map (fun n => memRead s (s.srcPos.toNat + n))

/-- The whole source buffer. -/
def wholeInput (s : State) : List Byte := (List.range s.srcLen.toNat).map (memRead s)

/-- A block from a list of bytes, with zeros where the list is too short. -/
def blockOfList (bs : List Byte) : Block := Vector.ofFn (fun j : ByteIx => bs.getD j.val 0#8)

/-! ### The XOR Delta Transform, word by word and byte by byte -/

/-- The XOR of words 0 to `i` (41_xor_delta.md R100, "net effect"). -/
def prefixXor (b : Block) (i : WordIx) : Word :=
  ((List.finRange 8).filter (· ≤ i)).foldl (fun acc j => acc ^^^ wordOf b j) 0#32

/-- `BLK[j] <- BLK[j] ^ BLK[j-4]` (41_xor_delta.md R103). -/
def xorByteStep (b : Block) (j : ByteIx) : Block := b.set j (b[j] ^^^ b[(⟨j.val - 4, by omega⟩ : ByteIx)])

/-- XORF in byte form: `j` in 4..31, increasing (R103). -/
def byteChainForward (b : Block) : Block := ((List.finRange 32).drop 4).foldl xorByteStep b

/-- XORI in byte form: `j` in 31 downto 4 (R103). -/
def byteChainInverse (b : Block) : Block := ((List.finRange 32).drop 4).reverse.foldl xorByteStep b

/-! ### The stream format, as functions of the input bytes -/

/-- The logical bytes `ks` of a group with token `tok`, from the input after the token (30_encoding.md R71): the bytes,
the input left, and whether the input ended where a literal was due (42_sparse_bitmap.md R115). -/
def groupOfInput (tok : Byte) (ks : List BitIx) (input : List Byte) : List Byte × List Byte × Bool :=
  match ks with
  | [] => ([], input, false)
  | k :: ks =>
    if tokenBit tok k then
      match input with
      | [] => (List.replicate (ks.length + 1) 0#8, [], true)
      | v :: input =>
        let r := groupOfInput tok ks input
        (v :: r.1, r.2)
    else
      let r := groupOfInput tok ks input
      (0#8 :: r.1, r.2)

/-- `n` groups from the input (30_encoding.md R66, R71): the logical bytes, the input left, and whether the input ended
where a byte was due. -/
def groupsOfInput (n : Nat) (input : List Byte) : List Byte × List Byte × Bool :=
  match n with
  | 0 => ([], input, false)
  | n + 1 =>
    match input with
    | [] => (List.replicate (8 * (n + 1)) 0#8, [], true)
    | tok :: input =>
      let r := groupOfInput tok groupOrder input
      if r.2.2 then (r.1 ++ List.replicate (8 * n) 0#8, [], true)
      else
        let q := groupsOfInput n r.2.1
        (r.1 ++ q.1, q.2)

/-- One compressed block from the input (30_encoding.md R66, 42_sparse_bitmap.md R115). -/
def blockOfInput (input : List Byte) : List Byte × List Byte × Bool := groupsOfInput 4 input

/-- The blocks a whole input decodes to, at most `n` of them, and whether it was truncated (43_block_driver.md R132). -/
def decodedBlocks (n : Nat) (input : List Byte) : List Block × Bool :=
  match n with
  | 0 => ([], false)
  | n + 1 =>
    if input.isEmpty then ([], false)
    else
      let r := blockOfInput input
      let q := decodedBlocks n r.2.1
      (xorForward (blockOfList r.1) :: q.1, r.2.2 || q.2)

/-- The blocks DEC produces (43_block_driver.md R132). -/
def decoded (s : State) : List Block × Bool := decodedBlocks s.srcLen.toNat (wholeInput s)

/-- The input left after `n` compressed blocks are pulled from it (42_sparse_bitmap.md R114, R115). -/
def inputAfter (n : Nat) (input : List Byte) : List Byte :=
  match n with
  | 0 => input
  | n + 1 => inputAfter n (blockOfInput input).2.1

/-- The bytes of a list of blocks, in order. -/
def bytesOfBlocks (bs : List Block) : List Byte := (bs.map (·.toList)).flatten

/-- The raw blocks encode loads, at most `n` of them: whole blocks, and under ZEROPAD the partial one (43_block_driver.md
R130, R134). -/
def rawBlocks (p : TailPolicy) (n : Nat) (input : List Byte) : List Block :=
  match n with
  | 0 => []
  | n + 1 =>
    if 32 ≤ input.length then blockOfList (input.take 32) :: rawBlocks p n (input.drop 32)
    else if input.length ≠ 0 ∧ p = .zeropad then [blockOfList input]
    else []

/-- The logical blocks ENC emits: none at all for a refused length under REJECT (43_block_driver.md R134). -/
def encodedBlocks (p : TailPolicy) (s : State) : List Block :=
  if s.srcLen.toNat % 32 ≠ 0 ∧ p = .reject then []
  else (rawBlocks p (s.srcLen.toNat / 32 + 1) (wholeInput s)).map xorInverse

/-- The compressed stream ENC emits: the concatenation of the compressed blocks (30_encoding.md R65). -/
def encodedStream (p : TailPolicy) (s : State) : List Byte := ((encodedBlocks p s).map compressedBytes).flatten

/-- The bytes the first `n` compressed blocks of that stream take. -/
def encodedLength (p : TailPolicy) (n : Nat) (s : State) : Nat :=
  (((encodedBlocks p s).take n).map (fun b => (compressedBytes b).length)).sum

/-- Where ENC leaves SRC_POS (43_block_driver.md R134). -/
def encodedSrcPos (p : TailPolicy) (s : State) : Nat :=
  if s.srcLen.toNat % 32 = 0 ∨ p = .zeropad then s.srcLen.toNat
  else if p = .reject then 0
  else s.srcLen.toNat / 32 * 32

/-! ### Places in the stream (30_encoding.md R71) -/

/-- What is due after the bytes of group `g` before `ks` are done: the first literal among `ks`, else the next group. -/
def nextPlace (g : GroupIx) (tok : Byte) (ks : List BitIx) : StreamPos :=
  match ks.find? (tokenBit tok) with
  | some k => .literalDue g k tok
  | none => if g = 3 then .tokenDue 0 else .tokenDue (g + 1)

/-- Are the bytes `ks` of group `g` the end of the block, with no literal among them? -/
def endsBlock (g : GroupIx) (tok : Byte) (ks : List BitIx) : Bool := g == 3 && (ks.find? (tokenBit tok)).isNone

/-- The bytes among `ks` that stand before the first literal: 0x00, absent from the stream. -/
def skipped (tok : Byte) (ks : List BitIx) : List BitIx := ks.takeWhile (fun k => !tokenBit tok k)

/-! ### The legal command words -/

/-- The twelve words of 30_encoding.md R62, as the rule's table lists them. -/
def commandTable : List (Word × Instr) :=
  [(0x00000000#32, .nop), (0x00000001#32, .dec), (0x00000011#32, .decsz), (0x00000002#32, .enc),
   (0x00000012#32, .encsz), (0x00000004#32, .xorf), (0x00000005#32, .xori), (0x00000006#32, .bmi),
   (0x00000007#32, .bmf), (0x00000008#32, .ldblk), (0x00000009#32, .stblk), (0x0000000A#32, .clr)]

/-- The commands that make the CFGERR test: all but NOP and CLR (44_system.md R154). -/
def configured : List Instr := [.dec, .decsz, .enc, .encsz, .xorf, .xori, .bmi, .bmf, .ldblk, .stblk]

/-- The commands that write the destination space (20_memory.md R40). -/
def materialising : List Instr := [.bmf, .stblk, .dec, .enc]

/-- The whole-buffer commands (43_block_driver.md R136). -/
def wholeBuffer : List Instr := [.dec, .decsz, .enc, .encsz]

/-! ### Host scripts of stage commands (43_block_driver.md R143) -/

/-- The state after a command that answers a next state. -/
def after (i : Instr) (s : State) : State :=
  match exec i s with
  | .next t => t
  | _ => s

/-- `while rd SRC_POS < SRC_LEN: BMI, XORF, STBLK`, stopping when BOUNDS = 1, at most `n` times (R143). -/
def stageDecode (n : Nat) (s : State) : State :=
  match n with
  | 0 => s
  | n + 1 =>
    if s.srcPos < s.srcLen then
      let t := after .stblk (after .xorf (after .bmi s))
      if t.bounds then t else stageDecode n t
    else s

/-- `repeat LDBLK and, if BLKCNT grew, XORI, BMF`, stopping when BLKCNT did not grow or BOUNDS = 1, at most `n` times
(R143). -/
def stageEncode (n : Nat) (s : State) : State :=
  match n with
  | 0 => s
  | n + 1 =>
    let l := after .ldblk s
    if l.blkCnt = s.blkCnt then l
    else
      let t := after .bmf (after .xori l)
      if t.bounds then t else stageEncode n t

end Sys2Proof.Safety
end

