-- ==== Sys2Proof/Certificates/Slice0/Obligations.lean ====
section
/-! DEFINITION. The statements for the provers, from the numbered rules of the spec. -/

open Sys2Proof Sys2Proof.Machine Sys2Proof.Safety

/-! ### Decoding -/

/-- Decoding and encoding are inverse on well-formed instructions, at every place of the stream (R63, R67, R71). -/
def Obligations.DecodeAndEncodeAgree : Prop :=
  ∀ pos : StreamPos, pos.wf = true → ∀ (c : Code) (i : Instr),
    decode pos c = .ok i ↔ i.wf pos = true ∧ encode i = c

/-- R63: a word is legal exactly when it is one of the twelve of R62, and then it is that command. -/
def Obligations.TwelveWordsAreTheLegalCommands : Prop :=
  ∀ (w : Word) (i : Instr), decodeCommand w = .ok i ↔ (w, i) ∈ commandTable

/-- A few codes written out from the encodings of R61, R62, R67 and R71; 0x14 is illegal for SZ = 1 with an OP that has
no size-only variant (R63). That a table word of 8 bits is read as a token, at the beginning of a block, is the model's
reading (DEDUCED, log 5). -/
def Obligations.SampleWordsDecodeAsTheTableSays : Prop :=
  decodeTableWord 32 0b00000000000000000000000000010001 = some .decsz ∧
  decodeTableWord 32 0b00000000000000000000000000000101 = some .xori ∧
  decodeTableWord 32 0b00000000000000000000000000001001 = some .stblk ∧
  decodeTableWord 32 0b00000000000000000000000000001010 = some .clr ∧
  decodeTableWord 32 0b00000000000000000000000000010100 = none ∧
  decodeTableWord 8 0b10001000 = some (.token 0x88#8) ∧
  decode (.literalDue 0 4 0x88#8) (.element 0b00000001#8) = .ok (.literal 0x01#8)

/-! ### The step -/

/-- The host's write of a legal word to CTRL runs the command it decodes to (R153, R154). The script is the model's own
(log 3). -/
def Obligations.StepRunsTheDecodedCommand : Prop :=
  ∀ (s : State) (w : Word) (rest : List HostAction) (i : Instr),
    s.busy = false → s.script = .writeReg 0 w :: rest → decodeCommand w = .ok i →
    step s = exec i { s with script := rest }

/-- Inside a block the step runs the stream byte at SRC_POS (R71). Stepping inside a command is the model's choice
(log 4). -/
def Obligations.StepRunsTheDecodedStreamByte : Prop :=
  ∀ s : State, s.busy = true → s.srcPos < s.srcLen →
    step s = exec (decodeElement s.stream (memRead s s.srcPos.toNat)) s

/-- R64: any word but the twelve sets CMDERR and DONE and changes nothing else. -/
def Obligations.IllegalWordSetsOnlyCmderr : Prop :=
  ∀ (s : State) (w : Word) (rest : List HostAction),
    s.busy = false → s.script = .writeReg 0 w :: rest → (∀ p ∈ commandTable, p.1 ≠ w) →
    step s = .next { s with script := rest, cmderr := true, busy := false, done := true }

/-- An idle engine with no host action keeps all state (R174; log 12). -/
def Obligations.IdleEngineKeepsAllState : Prop :=
  ∀ s : State, s.busy = false → s.script = [] → step s = .next s

/-- A hardware reset zeroes every register and flag, leaves both memories alone, and leaves the engine idle (R190). That
the host's script and what it has seen survive it is the model's choice (DESIGN CHOICE, log 8, over log 3), and the place
in the stream `atRest` speaks of is the model's own state (log 4). -/
def Obligations.HardResetZeroesRegistersAndKeepsMemories : Prop :=
  ∀ (s : State) (rest : List HostAction), s.busy = false → s.script = .hardReset :: rest →
    ∃ t, step s = .next t ∧
      (∀ j : ByteIx, t.blk[j] = 0#8) ∧ t.srcLen = 0#32 ∧ t.dstCap = 0#32 ∧ t.srcPos = 0#32 ∧ t.dstPos = 0#32 ∧
      t.blkCnt = 0#32 ∧ statusWord t = 0#32 ∧ t.src = s.src ∧ t.dst = s.dst ∧ atRest t ∧
      t.script = rest ∧ t.seen = s.seen

/-- After reset every register reads 0, whatever its number (R33). -/
def Obligations.EveryRegisterReadsZeroAfterReset : Prop := ∀ n : Nat, readRegister n State.reset = 0#32

/-! ### The host port -/

/-- R21: the seven flags stand at bits 0 to 6 of STATUS, all other bits read 0, and a host write to it does nothing. -/
def Obligations.StatusHoldsSevenFlagsAndIgnoresWrites : Prop :=
  ∀ s : State,
    (statusWord s).getLsbD 0 = s.busy ∧ (statusWord s).getLsbD 1 = s.done ∧ (statusWord s).getLsbD 2 = s.trunc ∧
    (statusWord s).getLsbD 3 = s.tail ∧ (statusWord s).getLsbD 4 = s.bounds ∧ (statusWord s).getLsbD 5 = s.cmderr ∧
    (statusWord s).getLsbD 6 = s.cfgerr ∧ (∀ n, 7 ≤ n → (statusWord s).getLsbD n = false) ∧
    ∀ (v : Word) (rest : List HostAction), s.busy = false → s.script = .writeReg 1 v :: rest →
      step s = .next { s with script := rest }

/-- A host read returns the register and changes no state of the engine (R152, R29); the model records the value
(log 3). -/
def Obligations.HostReadReturnsTheRegister : Prop :=
  ∀ (s : State) (n : Nat) (rest : List HostAction), s.busy = false → s.script = .readReg n :: rest →
    ∃ v, step s = .next { s with script := rest, seen := .reg n v :: s.seen } ∧
      (n = 0 → v = 0#32) ∧ (n = 1 → v = statusWord s) ∧ (n = 2 → v = s.srcLen) ∧ (n = 3 → v = s.dstCap) ∧
      (n = 4 → v = s.srcPos) ∧ (n = 5 → v = s.dstPos) ∧ (n = 6 → v = s.blkCnt) ∧ (n = 7 → v = 0#32) ∧
      (∀ i : WordIx, n = 8 + i.val → v = wordOf s.blk i) ∧ (16 ≤ n → v = 0#32)

/-- A host write stores to SRC_LEN, DST_CAP or a word of BLK in big-endian order, issues a command through CTRL, and
does nothing to any other register (R153, R29, R12). -/
def Obligations.HostWriteStoresTheRegister : Prop :=
  ∀ (s : State) (n : Nat) (v : Word) (rest : List HostAction), s.busy = false → s.script = .writeReg n v :: rest →
    (n = 0 → step s = issue v { s with script := rest }) ∧
    (n = 2 → step s = .next { s with script := rest, srcLen := v }) ∧
    (n = 3 → step s = .next { s with script := rest, dstCap := v }) ∧
    (∀ i : WordIx, n = 8 + i.val → ∃ b, step s = .next { s with script := rest, blk := b } ∧
      b[laneIx i 0] = v.extractLsb' 24 8 ∧ b[laneIx i 1] = v.extractLsb' 16 8 ∧
      b[laneIx i 2] = v.extractLsb' 8 8 ∧ b[laneIx i 3] = v.extractLsb' 0 8 ∧
      ∀ i' b', i' ≠ i → b[laneIx i' b'] = s.blk[laneIx i' b']) ∧
    (n = 1 ∨ (4 ≤ n ∧ n ≤ 7) ∨ 16 ≤ n → step s = .next { s with script := rest })

/-- The host stores bytes in the source space and reads bytes of the destination space (R73, R40); an access past the
offset space faults, which is the model's choice (log 7). -/
def Obligations.HostReachesBothMemoriesByOffset : Prop :=
  (∀ (s : State) (a : Nat) (bs : List Byte) (rest : List HostAction),
    s.busy = false → s.script = .storeSource a bs :: rest →
    (a + bs.length ≤ 2 ^ 32 → ∃ m, step s = .next { s with script := rest, src := m } ∧
      ∀ x, byteAt .source m x = if a ≤ x ∧ x < a + bs.length then bs.getD (x - a) 0#8 else memRead s x) ∧
    (2 ^ 32 < a + bs.length → step s = .fault (.sourceOffset (a + bs.length)))) ∧
  (∀ (s : State) (n : Nat) (rest : List HostAction), s.busy = false → s.script = .readDest n :: rest →
    (n ≤ 2 ^ 32 → ∃ bs : List Byte, step s = .next { s with script := rest, seen := .dest bs :: s.seen } ∧
      bs.length = n ∧ ∀ x, x < n → bs.getD x 0#8 = destByte s x) ∧
    (2 ^ 32 < n → step s = .fault (.destinationOffset n)))

/-! ### Refusals, NOP, CLR, completion -/

/-- R165, R27: with SRC_LEN or DST_CAP above MAX_LEN every command but NOP and CLR sets CFGERR and DONE and nothing
else. -/
def Obligations.IllegalLengthsSetOnlyCfgerr : Prop :=
  ∀ (i : Instr) (s : State), i ∈ configured → Config.maxLen < s.srcLen ∨ Config.maxLen < s.dstCap →
    exec i s = .next { s with cfgerr := true, busy := false, done := true }

/-- R150: NOP changes nothing but DONE, whatever the lengths hold. -/
def Obligations.NopOnlyCompletes : Prop :=
  encode .nop = .command 0x00000000#32 ∧ ∀ s : State, exec .nop s = .next { s with busy := false, done := true }

/-- R151: CLR zeroes the cursors, BLKCNT and the sticky flags, whatever the lengths hold. -/
def Obligations.ClrZeroesCursorsAndStickyFlags : Prop :=
  encode .clr = .command 0x0000000A#32 ∧
  ∀ s : State, exec .clr s = .next { s with
    srcPos := 0#32, dstPos := 0#32, blkCnt := 0#32, trunc := false, tail := false, bounds := false, cmderr := false,
    cfgerr := false, busy := false, done := true }

/-- Every command completes, with BUSY 0 and DONE 1, whatever the state (R22, R137, R199). -/
def Obligations.EveryCommandCompletes : Prop :=
  ∀ (i : Instr) (s : State), i.isCommand = true →
    ∃ t, exec i s = .next t ∧ t.busy = false ∧ t.done = true ∧ t.stream = s.stream

/-! ### XORF and XORI -/

/-- R100: XORF makes every word the XOR of itself and all words before it, and changes nothing else but DONE. -/
def Obligations.XorfMakesEveryWordThePrefixXor : Prop :=
  encode .xorf = .command 0x00000004#32 ∧
  ∀ s : State, lengthsLegal s → ∃ b : Block, exec .xorf s = .next { s with blk := b, busy := false, done := true } ∧
    ∀ i : WordIx, wordOf b i = prefixXor s.blk i

/-- R101: XORI makes every word but the first the XOR of itself and its predecessor, and changes nothing else but
DONE. -/
def Obligations.XoriMakesEveryWordTheDifference : Prop :=
  encode .xori = .command 0x00000005#32 ∧
  ∀ s : State, lengthsLegal s → ∃ b : Block, exec .xori s = .next { s with blk := b, busy := false, done := true } ∧
    wordOf b 0 = wordOf s.blk 0 ∧ ∀ i : WordIx, i ≠ 0 → wordOf b i = wordOf s.blk i ^^^ wordOf s.blk (i - 1)

/-- R102: XORF and XORI are mutual inverses on every block. -/
def Obligations.XorfAndXoriAreMutualInverses : Prop :=
  ∀ s : State, lengthsLegal s →
    (∃ t, exec .xorf s = .next t ∧ exec .xori t = .next { s with busy := false, done := true }) ∧
    (∃ t, exec .xori s = .next t ∧ exec .xorf t = .next { s with busy := false, done := true })

/-- R103: both transforms, byte by byte with stride 4. -/
def Obligations.XorTransformsAreFourByteChains : Prop :=
  ∀ s : State, lengthsLegal s →
    exec .xorf s = .next { s with blk := byteChainForward s.blk, busy := false, done := true } ∧
    exec .xori s = .next { s with blk := byteChainInverse s.blk, busy := false, done := true }

/-! ### BMI and BMF -/

/-- R112: token bit `7 - k` of a group is 1 exactly when its byte `k` is not 0x00. -/
def Obligations.TokenFlagsTheNonZeroBytes : Prop :=
  ∀ (b : Block) (g : GroupIx) (k : BitIx),
    (tokenOf b g).getLsbD (7 - k.val) = decide (b[(⟨8 * g.val + k.val, by omega⟩ : ByteIx)] ≠ 0#8)

/-- R69: a compressed block of four well-formed group records is `4 + n` bytes long, `n` the number of 1 bits of its
tokens, between 4 and 36; in the block of the encoder `n` is the number of non-zero bytes. -/
def Obligations.CompressedBlockIsFourToThirtySixBytes : Prop :=
  (∀ rs : List GroupRecord, compressedBlockWf rs = true →
    (compressedBlockBytes rs).length = 4 + (rs.map (fun r => popcount r.token)).sum ∧
    4 ≤ (compressedBlockBytes rs).length ∧ (compressedBlockBytes rs).length ≤ 36) ∧
  (∀ b : Block, canonicalBlock (groups.map (recordOf b)) = true ∧
    (compressedBytes b).length = 4 + (b.toList.filter (· ≠ 0#8)).length)

/-- R110 with R115: BMI fills BLK with the block its input decodes to, counts it if there was input, advances SRC_POS by
what it used, sets TRUNC if the input ended, and changes nothing else but DONE. -/
def Obligations.BmiPullsOneCompressedBlock : Prop :=
  encode .bmi = .command 0x00000006#32 ∧
  ∀ s : State, lengthsLegal s →
    exec .bmi s = .next { s with
      blk := blockOfList (blockOfInput (inputLeft s)).1
      srcPos := s.srcPos + BitVec.ofNat 32 ((inputLeft s).length - (blockOfInput (inputLeft s)).2.1.length)
      blkCnt := s.blkCnt + (if s.srcPos < s.srcLen then 1#32 else 0#32)
      trunc := s.trunc || (blockOfInput (inputLeft s)).2.2
      busy := false, done := true } ∧
    (blockOfInput (inputLeft s)).1.length = 32

/-- R114: BMI uses exactly the bytes of a complete block, or every remaining byte when the stream ends inside it, and no
byte outside those it moves past has any effect; TRUNC is as R115 says. -/
def Obligations.BmiConsumesExactlyOneBlock : Prop :=
  (∀ (s : State) (rs : List GroupRecord), lengthsLegal s → compressedBlockWf rs = true →
    sourceHolds s s.srcPos.toNat (compressedBlockBytes rs) →
    s.srcPos.toNat + (compressedBlockBytes rs).length ≤ s.srcLen.toNat →
    ∃ t, exec .bmi s = .next t ∧ t.trunc = s.trunc ∧
      t.srcPos.toNat = s.srcPos.toNat + 4 + (rs.map (fun r => popcount r.token)).sum ∧
      s.srcPos.toNat + 4 ≤ t.srcPos.toNat ∧ t.srcPos.toNat ≤ s.srcPos.toNat + 36) ∧
  (∀ s : State, lengthsLegal s → s.srcPos ≤ s.srcLen →
    (∀ rs : List GroupRecord, compressedBlockWf rs = true → ¬ compressedBlockBytes rs <+: inputLeft s) →
    ∃ t, exec .bmi s = .next t ∧ t.srcPos = s.srcLen ∧ t.trunc = true) ∧
  (∀ s : State, lengthsLegal s → ∃ t, exec .bmi s = .next t ∧
    ∀ m : Memory,
      (∀ a, s.srcPos.toNat ≤ a → a < t.srcPos.toNat → byteAt .source m a = memRead s a) →
      exec .bmi { s with src := m } = .next { t with src := m })

/-- R116: BMF with room emits the group records of BLK at DST_POS, `4 + n` bytes with `n` the number of non-zero bytes,
and changes nothing else but DONE; with `sz = 1` only the cursor moves. -/
def Obligations.BmfEmitsTheCompressedBlock : Prop :=
  encode .bmf = .command 0x00000007#32 ∧
  ∀ s : State,
    let bs := (groups.map (fun g =>
      tokenOf s.blk g :: (groupOrder.map (fun k => s.blk[blkIx g k])).filter (· ≠ 0#8))).flatten
    bs.length = 4 + (s.blk.toList.filter (· ≠ 0#8)).length ∧ 4 ≤ bs.length ∧ bs.length ≤ 36 ∧
    (lengthsLegal s → s.dstPos.toNat + bs.length ≤ s.dstCap.toNat →
      ∃ m, exec .bmf s = .next { s with
          dst := m, dstPos := s.dstPos + BitVec.ofNat 32 bs.length, busy := false, done := true } ∧
        writtenAt s.dst m s.dstPos.toNat bs) ∧
    bmfStage true s = .running { s with dstPos := s.dstPos + BitVec.ofNat 32 bs.length }

/-- R117, R195: BMF without room writes the bytes that fit, leaves DST_POS at DST_CAP and sets BOUNDS; with the cursor
past the capacity it sets BOUNDS and writes nothing. -/
def Obligations.BmfStopsAtTheDestinationEnd : Prop :=
  ∀ s : State, lengthsLegal s →
    (s.dstPos ≤ s.dstCap → s.dstCap.toNat < s.dstPos.toNat + (compressedBytes s.blk).length →
      ∃ m, exec .bmf s = .next { s with dst := m, dstPos := s.dstCap, bounds := true, busy := false, done := true } ∧
        writtenAt s.dst m s.dstPos.toNat ((compressedBytes s.blk).take (s.dstCap.toNat - s.dstPos.toNat))) ∧
    (s.dstCap < s.dstPos → exec .bmf s = .next { s with bounds := true, busy := false, done := true })

/-- R113: BMI restores the block BMF emitted; and BMF after BMI reproduces the bytes BMI consumed if and only if they
were a complete block with no literal of value 0x00. -/
def Obligations.BmiInvertsBmf : Prop :=
  (∀ s u : State, lengthsLegal s → s.dstPos.toNat + (compressedBytes s.blk).length ≤ s.dstCap.toNat →
    ∃ t, exec .bmf s = .next t ∧
      (lengthsLegal u →
        (∀ x, x < t.dstPos.toNat - s.dstPos.toNat →
          memRead u (u.srcPos.toNat + x) = destByte t (s.dstPos.toNat + x)) →
        u.srcPos.toNat + (t.dstPos.toNat - s.dstPos.toNat) ≤ u.srcLen.toNat →
        exec .bmi u = .next { u with
          blk := s.blk, srcPos := u.srcPos + (t.dstPos - s.dstPos), blkCnt := u.blkCnt + 1#32,
          busy := false, done := true })) ∧
  (∀ s : State, lengthsLegal s → s.srcPos ≤ s.srcLen →
    ∃ t, exec .bmi s = .next t ∧
      (compressedBytes t.blk = (inputLeft s).take (t.srcPos.toNat - s.srcPos.toNat) ↔
        ∃ rs, canonicalBlock rs = true ∧
          compressedBlockBytes rs = (inputLeft s).take (t.srcPos.toNat - s.srcPos.toNat)))

/-- R118: the value BLK held before a BMI, or before an LDBLK that loads, has no effect on the state after it. -/
def Obligations.LoadedBlocksHoldNoStaleData : Prop :=
  (∀ (s : State) (b : Block), lengthsLegal s → exec .bmi { s with blk := b } = exec .bmi s) ∧
  (∀ (p : TailPolicy) (s : State) (b : Block), (ldblkStage p s).1 = true →
    ldblkStage p { s with blk := b } = ldblkStage p s)

/-! ### Stream bytes -/

/-- TOKEN where a token is due: SRC_POS moves past it, group 0's token counts the block, the bytes before the first
literal become 0x00, and what is due next follows R71. The place in the stream is the model's own state (log 4). -/
def Obligations.TokenBeginsItsGroup : Prop :=
  ∀ (s : State) (g : GroupIx) (t : Byte), s.stream = .tokenDue g →
    ∃ b, exec (.token t) s = .next { s with
        blk := b
        srcPos := s.srcPos + 1#32
        blkCnt := if g = 0 then s.blkCnt + 1#32 else s.blkCnt
        stream := nextPlace g t groupOrder
        busy := if endsBlock g t groupOrder then false else s.busy
        done := if endsBlock g t groupOrder then true else s.done } ∧
      ∀ j : ByteIx, b[j] = if ∃ k ∈ skipped t groupOrder, j = blkIx g k then 0#8 else s.blk[j]

/-- LITERAL where a literal is due: SRC_POS moves past it, its logical byte takes the value, the bytes up to the next
literal of the group become 0x00, and what is due next follows R71. The place in the stream is the model's own state
(log 4). -/
def Obligations.LiteralFillsItsByte : Prop :=
  ∀ (s : State) (g : GroupIx) (k : BitIx) (tok v : Byte), s.stream = .literalDue g k tok →
    ∃ b, exec (.literal v) s = .next { s with
        blk := b
        srcPos := s.srcPos + 1#32
        stream := nextPlace g tok (groupAfter k)
        busy := if endsBlock g tok (groupAfter k) then false else s.busy
        done := if endsBlock g tok (groupAfter k) then true else s.done } ∧
      ∀ j : ByteIx, b[j] =
        if j = blkIx g k then v
        else if ∃ k' ∈ skipped tok (groupAfter k), j = blkIx g k' then 0#8 else s.blk[j]

/-- A TOKEN where a literal is due, or a LITERAL where a token is due, is refused by name: the model's choice (log 6). -/
def Obligations.StreamByteOutOfPlaceIsRefused : Prop :=
  ∀ s : State,
    (∀ g v, s.stream = .tokenDue g → exec (.literal v) s = .refused .literalOutOfPlace) ∧
    (∀ g k tok t, s.stream = .literalDue g k tok → exec (.token t) s = .refused .tokenOutOfPlace)

/-- Running the stream bytes one by one from the beginning of a block, until the block is complete, is BMI: at most 36
steps (R66, R71, R110, R115). The place in the stream and stepping inside a command are the model's choice (log 4). -/
def Obligations.StreamBytesRunToTheEndAreBmi : Prop :=
  ∀ s : State, lengthsLegal s → s.stream = .tokenDue 0 →
    ∃ n t, n ≤ 36 ∧ Host.Core.run Sys2Proof.core n { s with busy := true, done := false } = .next t ∧
      exec .bmi s = .next t

/-! ### LDBLK and STBLK -/

/-- R130: LDBLK loads 32 bytes when there are 32, handles 1 to 31 by TAIL_POLICY and sets TAIL, and does nothing when
there are none. -/
def Obligations.LdblkLoadsABlockOrReportsTheTail : Prop :=
  encode .ldblk = .command 0x00000008#32 ∧
  ∀ s : State, lengthsLegal s →
    (s.srcPos.toNat + 32 ≤ s.srcLen.toNat →
      ∃ b, exec .ldblk s = .next { s with
          blk := b, srcPos := s.srcPos + 32#32, blkCnt := s.blkCnt + 1#32, busy := false, done := true } ∧
        ∀ j : ByteIx, b[j] = memRead s (s.srcPos.toNat + j.val)) ∧
    (s.srcPos < s.srcLen → s.srcLen.toNat < s.srcPos.toNat + 32 →
      ∃ b, (∀ j : ByteIx, b[j] =
          if s.srcPos.toNat + j.val < s.srcLen.toNat then memRead s (s.srcPos.toNat + j.val) else 0#8) ∧
        exec .ldblk s = .next (
          if Config.tailPolicy = .zeropad then
            { s with
              blk := b, srcPos := s.srcLen, blkCnt := s.blkCnt + 1#32, tail := true, busy := false, done := true }
          else { s with tail := true, busy := false, done := true })) ∧
    (s.srcLen ≤ s.srcPos → exec .ldblk s = .next { s with busy := false, done := true })

/-- R131: STBLK appends the 32 bytes of BLK; without room it writes the bytes that fit, leaves DST_POS at DST_CAP and
sets BOUNDS; past the capacity it writes nothing. With `sz = 1` only the cursor moves. -/
def Obligations.StblkAppendsTheBlock : Prop :=
  encode .stblk = .command 0x00000009#32 ∧
  ∀ s : State, lengthsLegal s →
    (s.dstPos.toNat + 32 ≤ s.dstCap.toNat →
      ∃ m, exec .stblk s = .next { s with dst := m, dstPos := s.dstPos + 32#32, busy := false, done := true } ∧
        writtenAt s.dst m s.dstPos.toNat s.blk.toList) ∧
    (s.dstPos ≤ s.dstCap → s.dstCap.toNat < s.dstPos.toNat + 32 →
      ∃ m, exec .stblk s = .next { s with
          dst := m, dstPos := s.dstCap, bounds := true, busy := false, done := true } ∧
        writtenAt s.dst m s.dstPos.toNat (s.blk.toList.take (s.dstCap.toNat - s.dstPos.toNat))) ∧
    (s.dstCap < s.dstPos → exec .stblk s = .next { s with bounds := true, busy := false, done := true }) ∧
    stblkStage true s = .running { s with dstPos := s.dstPos + 32#32 }

/-! ### The whole-buffer commands -/

/-- R132: DEC with room leaves the decoded blocks in the destination from offset 0 and every register as the rule
says. -/
def Obligations.DecDecodesTheWholeSource : Prop :=
  encode .dec = .command 0x00000001#32 ∧
  ∀ s : State, lengthsLegal s → 32 * (decoded s).1.length ≤ s.dstCap.toNat →
    ∃ m, exec .dec s = .next { s with
        blk := (decoded s).1.getLast?.getD s.blk
        srcPos := s.srcLen
        dstPos := BitVec.ofNat 32 (32 * (decoded s).1.length)
        blkCnt := BitVec.ofNat 32 (decoded s).1.length
        trunc := (decoded s).2, tail := false, bounds := false, cmderr := false, cfgerr := false
        dst := m, busy := false, done := true } ∧
      writtenAt s.dst m 0 (bytesOfBlocks (decoded s).1)

/-- R133: DECSZ ends as DEC does with a destination large enough, and writes no destination byte. -/
def Obligations.DecszCountsWithoutWriting : Prop :=
  encode .decsz = .command 0x00000011#32 ∧
  ∀ s : State, lengthsLegal s →
    exec .decsz s = .next { s with
      blk := (decoded s).1.getLast?.getD s.blk
      srcPos := s.srcLen
      dstPos := BitVec.ofNat 32 (32 * (decoded s).1.length)
      blkCnt := BitVec.ofNat 32 (decoded s).1.length
      trunc := (decoded s).2, tail := false, bounds := false, cmderr := false, cfgerr := false
      busy := false, done := true }

/-- R134: ENC with room leaves the concatenated compressed blocks in the destination from offset 0 and every register as
the rule says for the implementation's TAIL_POLICY. -/
def Obligations.EncEncodesTheWholeSource : Prop :=
  encode .enc = .command 0x00000002#32 ∧
  ∀ s : State, lengthsLegal s → (encodedStream Config.tailPolicy s).length ≤ s.dstCap.toNat →
    ∃ m, exec .enc s = .next { s with
        blk := (encodedBlocks Config.tailPolicy s).getLast?.getD s.blk
        srcPos := BitVec.ofNat 32 (encodedSrcPos Config.tailPolicy s)
        dstPos := BitVec.ofNat 32 (encodedStream Config.tailPolicy s).length
        blkCnt := BitVec.ofNat 32 (encodedBlocks Config.tailPolicy s).length
        trunc := false, tail := decide (s.srcLen.toNat % 32 ≠ 0), bounds := false, cmderr := false, cfgerr := false
        dst := m, busy := false, done := true } ∧
      writtenAt s.dst m 0 (encodedStream Config.tailPolicy s)

/-- R135: ENCSZ ends as ENC does with a destination large enough, and writes no destination byte. -/
def Obligations.EncszCountsWithoutWriting : Prop :=
  encode .encsz = .command 0x00000012#32 ∧
  ∀ s : State, lengthsLegal s →
    exec .encsz s = .next { s with
      blk := (encodedBlocks Config.tailPolicy s).getLast?.getD s.blk
      srcPos := BitVec.ofNat 32 (encodedSrcPos Config.tailPolicy s)
      dstPos := BitVec.ofNat 32 (encodedStream Config.tailPolicy s).length
      blkCnt := BitVec.ofNat 32 (encodedBlocks Config.tailPolicy s).length
      trunc := false, tail := decide (s.srcLen.toNat % 32 ≠ 0), bounds := false, cmderr := false, cfgerr := false
      busy := false, done := true }

/-- R142: DEC into a destination that is too small stops inside the block in hand, which is consumed, counted, in BLK
after its XOR stage, and partly written. -/
def Obligations.AbortedDecStopsInTheBlockInHand : Prop :=
  ∀ s : State, lengthsLegal s → s.dstCap.toNat < 32 * (decoded s).1.length →
    ∃ m b, exec .dec s = .next { s with
        blk := b
        srcPos := s.srcLen - BitVec.ofNat 32 (inputAfter (s.dstCap.toNat / 32 + 1) (wholeInput s)).length
        dstPos := s.dstCap
        blkCnt := BitVec.ofNat 32 (s.dstCap.toNat / 32 + 1)
        trunc := (decoded s).2 && decide ((decoded s).1.length = s.dstCap.toNat / 32 + 1)
        tail := false, bounds := true, cmderr := false, cfgerr := false
        dst := m, busy := false, done := true } ∧
      (decoded s).1[s.dstCap.toNat / 32]? = some b ∧
      writtenAt s.dst m 0 ((bytesOfBlocks (decoded s).1).take s.dstCap.toNat)

/-- R142: ENC into a destination that is too small stops inside the block in hand, which is consumed, counted, in BLK
after its XOR stage, and partly written. -/
def Obligations.AbortedEncStopsInTheBlockInHand : Prop :=
  ∀ s : State, lengthsLegal s → s.dstCap.toNat < (encodedStream Config.tailPolicy s).length →
    ∃ m b n, exec .enc s = .next { s with
        blk := b
        srcPos := BitVec.ofNat 32 (min (32 * (n + 1)) s.srcLen.toNat)
        dstPos := s.dstCap
        blkCnt := BitVec.ofNat 32 (n + 1)
        trunc := false, tail := decide (s.srcLen.toNat < 32 * (n + 1))
        bounds := true, cmderr := false, cfgerr := false
        dst := m, busy := false, done := true } ∧
      (encodedBlocks Config.tailPolicy s)[n]? = some b ∧
      encodedLength Config.tailPolicy n s ≤ s.dstCap.toNat ∧
      s.dstCap.toNat < encodedLength Config.tailPolicy (n + 1) s ∧
      writtenAt s.dst m 0 ((encodedStream Config.tailPolicy s).take s.dstCap.toNat)

/-- R169: after DEC or ENC, aborted or not, the destination holds a prefix of what the same command writes with a larger
destination; an aborted command has filled its own to the capacity. -/
def Obligations.AbortLeavesACorrectPrefix : Prop :=
  ∀ (i : Instr) (s : State) (c : Word), i = .dec ∨ i = .enc → lengthsLegal s → s.dstCap ≤ c → c ≤ Config.maxLen →
    ∃ t u, exec i s = .next t ∧ exec i { s with dstCap := c } = .next u ∧
      (t.bounds = true → t.dstPos = s.dstCap) ∧
      ∀ a, a < t.dstPos.toNat → destByte t a = destByte u a

/-- R139: DECSZ and ENCSZ answer exactly the size DEC and ENC produce; with at least that capacity those complete without
Bounds in the same state, and leave the bytes from DST_POS on untouched. -/
def Obligations.SizeCommandsAgreeWithTheWritingOnes : Prop :=
  ∀ (s : State) (c : Word), lengthsLegal s → c ≤ Config.maxLen →
    (∃ t, exec .decsz s = .next t ∧ t.bounds = false ∧ t.dst = s.dst ∧
      (t.dstPos ≤ c → ∃ m, exec .dec { s with dstCap := c } = .next { t with dstCap := c, dst := m } ∧
        ∀ a, t.dstPos.toNat ≤ a → byteAt .destination m a = destByte s a)) ∧
    (∃ t, exec .encsz s = .next t ∧ t.bounds = false ∧ t.dst = s.dst ∧
      (t.dstPos ≤ c → ∃ m, exec .enc { s with dstCap := c } = .next { t with dstCap := c, dst := m } ∧
        ∀ a, t.dstPos.toNat ≤ a → byteAt .destination m a = destByte s a))

/-- R138: decoding what was encoded gives the input back, when its length is a multiple of 32, under every
TAIL_POLICY. -/
def Obligations.DecodeOfEncodeIsTheInput : Prop :=
  ∀ s : State, lengthsLegal s → s.srcLen.toNat % 32 = 0 →
    (encodedStream Config.tailPolicy s).length ≤ s.dstCap.toNat →
    ∃ t, exec .enc s = .next t ∧ t.tail = false ∧ t.bounds = false ∧
      ∀ u : State, u.srcLen = t.dstPos → (∀ a, a < t.dstPos.toNat → memRead u a = destByte t a) →
        s.srcLen ≤ u.dstCap → u.dstCap ≤ Config.maxLen →
        ∃ v, exec .dec u = .next v ∧ v.dstPos = s.srcLen ∧ v.trunc = false ∧ v.tail = false ∧ v.bounds = false ∧
          ∀ a, a < s.srcLen.toNat → destByte v a = memRead s a

/-- R72, R138: encoding what a canonical stream decodes to gives the stream back. -/
def Obligations.EncodeOfDecodeIsACanonicalStream : Prop :=
  ∀ (s : State) (xs : List (List GroupRecord)), lengthsLegal s → (∀ rs ∈ xs, canonicalBlock rs = true) →
    wholeInput s = (xs.map compressedBlockBytes).flatten → 32 * xs.length ≤ s.dstCap.toNat →
    ∃ t, exec .dec s = .next t ∧ t.trunc = false ∧ t.bounds = false ∧ t.dstPos.toNat = 32 * xs.length ∧
      ∀ u : State, u.srcLen = t.dstPos → (∀ a, a < t.dstPos.toNat → memRead u a = destByte t a) →
        s.srcLen ≤ u.dstCap → u.dstCap ≤ Config.maxLen →
        ∃ v, exec .enc u = .next v ∧ v.dstPos = s.srcLen ∧ v.bounds = false ∧
          ∀ a, a < s.srcLen.toNat → destByte v a = memRead s a

/-- R143: DEC is the host script CLR, then BMI, XORF, STBLK while SRC_POS is below SRC_LEN; ENC is CLR, then LDBLK, XORI,
BMF while blocks load, unless REJECT refuses the length. -/
def Obligations.WholeBufferCommandsAreStageScripts : Prop :=
  ∀ s : State, lengthsLegal s →
    exec .dec s = .next (stageDecode s.srcLen.toNat (after .clr s)) ∧
    (s.srcLen.toNat % 32 = 0 ∨ Config.tailPolicy ≠ .reject →
      exec .enc s = .next (stageEncode (s.srcLen.toNat / 32 + 2) (after .clr s)))

/-- R140: DECSZ answers 32 bytes a block, between `ceil(SRC_LEN / 36)` and `ceil(SRC_LEN / 4)` blocks; ENCSZ answers
between 4 and 36 bytes a block. -/
def Obligations.OutputLengthsAreBounded : Prop :=
  ∀ s : State, lengthsLegal s →
    (∃ t, exec .decsz s = .next t ∧ t.dstPos.toNat = 32 * t.blkCnt.toNat ∧
      (s.srcLen.toNat + 35) / 36 ≤ t.blkCnt.toNat ∧ t.blkCnt.toNat ≤ (s.srcLen.toNat + 3) / 4) ∧
    (∃ t, exec .encsz s = .next t ∧ 4 * t.blkCnt.toNat ≤ t.dstPos.toNat ∧ t.dstPos.toNat ≤ 36 * t.blkCnt.toNat)

/-! ### Rules of the whole machine -/

/-- The engine never writes the source space, SRC_LEN or DST_CAP (R18, R19, R43); the host's script and what it has seen
are the model's own (log 3). -/
def Obligations.EngineNeverWritesItsInputs : Prop :=
  ∀ (i : Instr) (s t : State), exec i s = .next t →
    t.src = s.src ∧ t.srcLen = s.srcLen ∧ t.dstCap = s.dstCap ∧ t.script = s.script ∧ t.seen = s.seen

/-- No destination byte at or beyond DST_CAP is ever written, and only BMF, STBLK, DEC and ENC write any (R40, R42,
R163). -/
def Obligations.NothingIsWrittenBeyondTheCapacity : Prop :=
  ∀ (i : Instr) (s t : State), exec i s = .next t →
    (∀ a, s.dstCap.toNat ≤ a → destByte t a = destByte s a) ∧ (i ∉ materialising → t.dst = s.dst)

/-- No source byte at or beyond SRC_LEN has any effect (R41). -/
def Obligations.SourceBeyondItsLengthIsNeverRead : Prop :=
  ∀ (i : Instr) (s t : State) (m : Memory), exec i s = .next t →
    (∀ a, a < s.srcLen.toNat → byteAt .source m a = memRead s a) →
    exec i { s with src := m } = .next { t with src := m }

/-- The contents of the destination space have no effect on anything else (R43). -/
def Obligations.DestinationIsNeverRead : Prop :=
  ∀ (i : Instr) (s t : State) (m : Memory), exec i s = .next t →
    ∃ m', exec i { s with dst := m } = .next { t with dst := m' }

/-- No instruction's result depends on a flag: flags are outputs only (R35, R170). -/
def Obligations.FlagsAreOutputsOnly : Prop :=
  ∀ (i : Instr) (s t f : State), exec i s = .next t →
    ∃ u, exec i (withFlagsOf f s) = .next u ∧ withFlagsOf s u = withFlagsOf s t

/-- A sticky flag that is 1 becomes 0 only in a hardware reset, a CLR, or an accepted whole-buffer command (R28). -/
def Obligations.StickyFlagsAreClearedByThreeEventsOnly : Prop :=
  ∀ s t : State, step s = .next t →
    (∃ n : Nat, (stickyFlags s)[n]? = some true ∧ (stickyFlags t)[n]? = some false) →
    s.busy = false ∧ ∃ rest,
      s.script = .hardReset :: rest ∨
      ∃ w i, s.script = .writeReg 0 w :: rest ∧ decodeCommand w = .ok i ∧
        (i = .clr ∨ (i ∈ wholeBuffer ∧ lengthsLegal s))

/-- R82: Emit checks before it writes, writes at DST_POS and advances by one; with `sz = 1` it only advances. -/
def Obligations.EmitChecksEveryByte : Prop :=
  ∀ (v : Byte) (s : State),
    emit v true s = .running { s with dstPos := s.dstPos + 1#32 } ∧
    (s.dstCap ≤ s.dstPos → emit v false s = .aborted { s with bounds := true }) ∧
    (s.dstPos < s.dstCap → ∃ m, emit v false s = .running { s with dst := m, dstPos := s.dstPos + 1#32 } ∧
      writtenAt s.dst m s.dstPos.toNat [v])

/-- The 32-bit peeks, reads and writes of the Word Codec are big-endian, and reads and writes move the cursors by 4 (R87
to R89); that a read with fewer than four bytes left answers `none` is the model's choice (log 13). -/
def Obligations.WordCodecIsBigEndian : Prop :=
  ∀ s : State,
    (∀ i : WordIx, peekWord (peekBlock s) (4 * i.val) = some (wordOf s.blk i)) ∧
    (s.srcPos.toNat + 4 ≤ s.srcLen.toNat →
      readWord s = some (wordOfBytes (memRead s s.srcPos.toNat) (memRead s (s.srcPos.toNat + 1))
        (memRead s (s.srcPos.toNat + 2)) (memRead s (s.srcPos.toNat + 3)), { s with srcPos := s.srcPos + 4#32 })) ∧
    (s.srcLen.toNat < s.srcPos.toNat + 4 → readWord s = none) ∧
    (∀ v : Word, s.dstPos.toNat + 4 ≤ s.dstCap.toNat →
      ∃ m, writeWord v false s = .running { s with dst := m, dstPos := s.dstPos + 4#32 } ∧
        writtenAt s.dst m s.dstPos.toNat
          [v.extractLsb' 24 8, v.extractLsb' 16 8, v.extractLsb' 8 8, v.extractLsb' 0 8])

/-! ### Invariants -/

/-- Every step from a state at rest with canonical memories leads to such a state (R22, R42; the canonical form is the
model's own, log 2). -/
def Obligations.StepKeepsTheEngineAtRestAndTheMemoriesCanonical : Prop :=
  ∀ s t : State, atRest s → memoriesWf s → step s = .next t → atRest t ∧ memoriesWf t

/-- R34: no counter comes near its width. -/
def Obligations.StepKeepsTheCountersBounded : Prop :=
  ∀ s t : State, atRest s → countersBounded s → step s = .next t → atRest t ∧ countersBounded t

/-- The state after reset meets both invariants. -/
def Obligations.ResetMeetsTheInvariants : Prop :=
  atRest State.reset ∧ memoriesWf State.reset ∧ countersBounded State.reset
end

