-- ==== Sys2Proof/Laws/Memory.lean ====
section
/-! SUPPORT. The memory laws: reading back a written byte, leaving every other byte alone, and keeping the canonical
form. -/

namespace Sys2Proof.Machine

/-- The canonical form of a list with a head, in one step. -/
theorem Memory.wf_cons (c : Host.Cell) (m : Memory) :
    Memory.wf (c :: m) = true ↔ c.1 < Config.offsetSpace ∧ (∀ d ∈ m.head?, c.1 < d.1) ∧ Memory.wf m = true := by
  cases m with
  | nil => simp [Memory.wf]
  | cons d m => simp only [Memory.wf, Bool.and_eq_true, decide_eq_true_eq, List.head?_cons, Option.mem_def, Option.some.injEq,
    forall_eq']; tauto

/-- Every listed offset is in the offset space. -/
theorem Memory.wf_offset {m : Memory} (h : Memory.wf m = true) : ∀ c ∈ m, c.1 < Config.offsetSpace := by
  induction m with
  | nil => simp
  | cons d m ih =>
    rw [Memory.wf_cons] at h
    intro c hc
    rcases List.mem_cons.mp hc with rfl | hc
    · exact h.1
    · exact ih h.2.2 c hc

/-- The first offset after a store is the stored one or the first one before. -/
theorem storeByte_head (m : Memory) (a : Nat) (v : Byte) :
    ∀ d ∈ (storeByte m a v).head?, d.1 = a ∨ ∃ c ∈ m.head?, d.1 = c.1 := by
  cases m with
  | nil => simp [storeByte]
  | cons c m =>
    unfold storeByte
    split_ifs <;> simp

/-- A store of a byte at an offset of the space keeps the canonical form. -/
theorem storeByte_wf {m : Memory} (h : Memory.wf m = true) {a : Nat} (ha : a < Config.offsetSpace) (v : Byte) :
    Memory.wf (storeByte m a v) = true := by
  induction m with
  | nil => simpa [storeByte, Memory.wf] using ha
  | cons c m ih =>
    have hc := (Memory.wf_cons c m).mp h
    unfold storeByte
    split_ifs with h1 h2
    · exact (Memory.wf_cons _ _).mpr ⟨ha, by simpa using h1, h⟩
    · subst h2
      exact (Memory.wf_cons _ _).mpr ⟨ha, by simpa using hc.2.1, hc.2.2⟩
    · refine (Memory.wf_cons _ _).mpr ⟨hc.1, ?_, ih hc.2.2⟩
      intro d hd
      rcases storeByte_head m a v d hd with hd | ⟨e, he, hd⟩
      · omega
      · exact hd ▸ hc.2.1 e he

/-- A store of bytes that end inside the space keeps the canonical form. -/
theorem storeBytes_wf {m : Memory} (h : Memory.wf m = true) {a : Nat} (vs : List Byte)
    (ha : a + vs.length ≤ Config.offsetSpace) : Memory.wf (storeBytes m a vs) = true := by
  induction vs generalizing m a with
  | nil => exact h
  | cons v vs ih =>
    simp only [List.length_cons] at ha
    exact ih (storeByte_wf h (by omega) v) (by omega)

/-- Reading after a store: the stored byte at its offset, what was there anywhere else. -/
theorem findByte_storeByte (m : Memory) (a : Nat) (v : Byte) (x : Nat) :
    findByte (storeByte m a v) x = if a = x then some v else findByte m x := by
  induction m with
  | nil => simp [storeByte, findByte]
  | cons c m ih =>
    by_cases h1 : a < c.1
    · simp [storeByte, findByte, h1]
    · by_cases h2 : a = c.1
      · subst h2
        simp only [storeByte, h1, if_false, if_true, findByte]
        split_ifs <;> rfl
      · simp only [storeByte, findByte, h1, h2, if_false, ih]
        split_ifs <;> simp_all

/-- Reading a memory after a store, through the reading of one byte. -/
theorem byteAt_storeByte (sp : Space) (m : Memory) (a : Nat) (v : Byte) (x : Nat) :
    byteAt sp (storeByte m a v) x = if a = x then v else byteAt sp m x := by
  simp only [byteAt, findByte_storeByte]
  split_ifs <;> simp

/-- Reading a memory after a store of several bytes. -/
theorem byteAt_storeBytes (sp : Space) (m : Memory) (a : Nat) (vs : List Byte) (x : Nat) :
    byteAt sp (storeBytes m a vs) x =
      if a ≤ x ∧ x < a + vs.length then vs.getD (x - a) 0#8 else byteAt sp m x := by
  induction vs generalizing m a with
  | nil => simp [storeBytes, show ¬ (a ≤ x ∧ x < a) by omega]
  | cons v vs ih =>
    simp only [storeBytes, ih, byteAt_storeByte, List.length_cons]
    by_cases h : a = x
    · subst h; simp
    · by_cases h' : a + 1 ≤ x ∧ x < a + 1 + vs.length
      · obtain ⟨n, hn⟩ : ∃ n, x - a = n + 1 := ⟨x - a - 1, by omega⟩
        rw [if_pos h', if_pos (by omega), hn, show x - (a + 1) = n by omega]; simp
      · rw [if_neg h', if_neg h, if_neg (by omega)]

/-- Memory after reset is in canonical form. -/
theorem reset_memories_wf : Memory.wf State.reset.src = true ∧ Memory.wf State.reset.dst = true := by decide

end Sys2Proof.Machine
end

