-- ==== Sys2Proof/Laws/State.lean ====
section
/-! SUPPORT. One lemma per field per named update of State: what the update leaves in the field. -/

namespace Sys2Proof.Machine

variable (s : State)

@[simp] theorem memWrite_blk (a : Nat) (v : Byte) : (memWrite s a v).blk = s.blk := rfl
@[simp] theorem memWrite_srcLen (a : Nat) (v : Byte) : (memWrite s a v).srcLen = s.srcLen := rfl
@[simp] theorem memWrite_dstCap (a : Nat) (v : Byte) : (memWrite s a v).dstCap = s.dstCap := rfl
@[simp] theorem memWrite_srcPos (a : Nat) (v : Byte) : (memWrite s a v).srcPos = s.srcPos := rfl
@[simp] theorem memWrite_dstPos (a : Nat) (v : Byte) : (memWrite s a v).dstPos = s.dstPos := rfl
@[simp] theorem memWrite_blkCnt (a : Nat) (v : Byte) : (memWrite s a v).blkCnt = s.blkCnt := rfl
@[simp] theorem memWrite_busy (a : Nat) (v : Byte) : (memWrite s a v).busy = s.busy := rfl
@[simp] theorem memWrite_done (a : Nat) (v : Byte) : (memWrite s a v).done = s.done := rfl
@[simp] theorem memWrite_trunc (a : Nat) (v : Byte) : (memWrite s a v).trunc = s.trunc := rfl
@[simp] theorem memWrite_tail (a : Nat) (v : Byte) : (memWrite s a v).tail = s.tail := rfl
@[simp] theorem memWrite_bounds (a : Nat) (v : Byte) : (memWrite s a v).bounds = s.bounds := rfl
@[simp] theorem memWrite_cmderr (a : Nat) (v : Byte) : (memWrite s a v).cmderr = s.cmderr := rfl
@[simp] theorem memWrite_cfgerr (a : Nat) (v : Byte) : (memWrite s a v).cfgerr = s.cfgerr := rfl
@[simp] theorem memWrite_src (a : Nat) (v : Byte) : (memWrite s a v).src = s.src := rfl
@[simp] theorem memWrite_dst (a : Nat) (v : Byte) : (memWrite s a v).dst = storeByte s.dst a v := rfl
@[simp] theorem memWrite_stream (a : Nat) (v : Byte) : (memWrite s a v).stream = s.stream := rfl
@[simp] theorem memWrite_script (a : Nat) (v : Byte) : (memWrite s a v).script = s.script := rfl
@[simp] theorem memWrite_seen (a : Nat) (v : Byte) : (memWrite s a v).seen = s.seen := rfl

@[simp] theorem setByte_blk (j : ByteIx) (v : Byte) : (setByte s j v).blk = s.blk.set j v := rfl
@[simp] theorem setByte_srcLen (j : ByteIx) (v : Byte) : (setByte s j v).srcLen = s.srcLen := rfl
@[simp] theorem setByte_dstCap (j : ByteIx) (v : Byte) : (setByte s j v).dstCap = s.dstCap := rfl
@[simp] theorem setByte_srcPos (j : ByteIx) (v : Byte) : (setByte s j v).srcPos = s.srcPos := rfl
@[simp] theorem setByte_dstPos (j : ByteIx) (v : Byte) : (setByte s j v).dstPos = s.dstPos := rfl
@[simp] theorem setByte_blkCnt (j : ByteIx) (v : Byte) : (setByte s j v).blkCnt = s.blkCnt := rfl
@[simp] theorem setByte_busy (j : ByteIx) (v : Byte) : (setByte s j v).busy = s.busy := rfl
@[simp] theorem setByte_done (j : ByteIx) (v : Byte) : (setByte s j v).done = s.done := rfl
@[simp] theorem setByte_trunc (j : ByteIx) (v : Byte) : (setByte s j v).trunc = s.trunc := rfl
@[simp] theorem setByte_tail (j : ByteIx) (v : Byte) : (setByte s j v).tail = s.tail := rfl
@[simp] theorem setByte_bounds (j : ByteIx) (v : Byte) : (setByte s j v).bounds = s.bounds := rfl
@[simp] theorem setByte_cmderr (j : ByteIx) (v : Byte) : (setByte s j v).cmderr = s.cmderr := rfl
@[simp] theorem setByte_cfgerr (j : ByteIx) (v : Byte) : (setByte s j v).cfgerr = s.cfgerr := rfl
@[simp] theorem setByte_src (j : ByteIx) (v : Byte) : (setByte s j v).src = s.src := rfl
@[simp] theorem setByte_dst (j : ByteIx) (v : Byte) : (setByte s j v).dst = s.dst := rfl
@[simp] theorem setByte_stream (j : ByteIx) (v : Byte) : (setByte s j v).stream = s.stream := rfl
@[simp] theorem setByte_script (j : ByteIx) (v : Byte) : (setByte s j v).script = s.script := rfl
@[simp] theorem setByte_seen (j : ByteIx) (v : Byte) : (setByte s j v).seen = s.seen := rfl

@[simp] theorem advanceSrc_blk : (advanceSrc s).blk = s.blk := rfl
@[simp] theorem advanceSrc_srcLen : (advanceSrc s).srcLen = s.srcLen := rfl
@[simp] theorem advanceSrc_dstCap : (advanceSrc s).dstCap = s.dstCap := rfl
@[simp] theorem advanceSrc_srcPos : (advanceSrc s).srcPos = s.srcPos + 1#32 := rfl
@[simp] theorem advanceSrc_dstPos : (advanceSrc s).dstPos = s.dstPos := rfl
@[simp] theorem advanceSrc_blkCnt : (advanceSrc s).blkCnt = s.blkCnt := rfl
@[simp] theorem advanceSrc_busy : (advanceSrc s).busy = s.busy := rfl
@[simp] theorem advanceSrc_done : (advanceSrc s).done = s.done := rfl
@[simp] theorem advanceSrc_trunc : (advanceSrc s).trunc = s.trunc := rfl
@[simp] theorem advanceSrc_tail : (advanceSrc s).tail = s.tail := rfl
@[simp] theorem advanceSrc_bounds : (advanceSrc s).bounds = s.bounds := rfl
@[simp] theorem advanceSrc_cmderr : (advanceSrc s).cmderr = s.cmderr := rfl
@[simp] theorem advanceSrc_cfgerr : (advanceSrc s).cfgerr = s.cfgerr := rfl
@[simp] theorem advanceSrc_src : (advanceSrc s).src = s.src := rfl
@[simp] theorem advanceSrc_dst : (advanceSrc s).dst = s.dst := rfl
@[simp] theorem advanceSrc_stream : (advanceSrc s).stream = s.stream := rfl
@[simp] theorem advanceSrc_script : (advanceSrc s).script = s.script := rfl
@[simp] theorem advanceSrc_seen : (advanceSrc s).seen = s.seen := rfl

@[simp] theorem advanceDst_blk : (advanceDst s).blk = s.blk := rfl
@[simp] theorem advanceDst_srcLen : (advanceDst s).srcLen = s.srcLen := rfl
@[simp] theorem advanceDst_dstCap : (advanceDst s).dstCap = s.dstCap := rfl
@[simp] theorem advanceDst_srcPos : (advanceDst s).srcPos = s.srcPos := rfl
@[simp] theorem advanceDst_dstPos : (advanceDst s).dstPos = s.dstPos + 1#32 := rfl
@[simp] theorem advanceDst_blkCnt : (advanceDst s).blkCnt = s.blkCnt := rfl
@[simp] theorem advanceDst_busy : (advanceDst s).busy = s.busy := rfl
@[simp] theorem advanceDst_done : (advanceDst s).done = s.done := rfl
@[simp] theorem advanceDst_trunc : (advanceDst s).trunc = s.trunc := rfl
@[simp] theorem advanceDst_tail : (advanceDst s).tail = s.tail := rfl
@[simp] theorem advanceDst_bounds : (advanceDst s).bounds = s.bounds := rfl
@[simp] theorem advanceDst_cmderr : (advanceDst s).cmderr = s.cmderr := rfl
@[simp] theorem advanceDst_cfgerr : (advanceDst s).cfgerr = s.cfgerr := rfl
@[simp] theorem advanceDst_src : (advanceDst s).src = s.src := rfl
@[simp] theorem advanceDst_dst : (advanceDst s).dst = s.dst := rfl
@[simp] theorem advanceDst_stream : (advanceDst s).stream = s.stream := rfl
@[simp] theorem advanceDst_script : (advanceDst s).script = s.script := rfl
@[simp] theorem advanceDst_seen : (advanceDst s).seen = s.seen := rfl

@[simp] theorem countBlock_blk : (countBlock s).blk = s.blk := rfl
@[simp] theorem countBlock_srcLen : (countBlock s).srcLen = s.srcLen := rfl
@[simp] theorem countBlock_dstCap : (countBlock s).dstCap = s.dstCap := rfl
@[simp] theorem countBlock_srcPos : (countBlock s).srcPos = s.srcPos := rfl
@[simp] theorem countBlock_dstPos : (countBlock s).dstPos = s.dstPos := rfl
@[simp] theorem countBlock_blkCnt : (countBlock s).blkCnt = s.blkCnt + 1#32 := rfl
@[simp] theorem countBlock_busy : (countBlock s).busy = s.busy := rfl
@[simp] theorem countBlock_done : (countBlock s).done = s.done := rfl
@[simp] theorem countBlock_trunc : (countBlock s).trunc = s.trunc := rfl
@[simp] theorem countBlock_tail : (countBlock s).tail = s.tail := rfl
@[simp] theorem countBlock_bounds : (countBlock s).bounds = s.bounds := rfl
@[simp] theorem countBlock_cmderr : (countBlock s).cmderr = s.cmderr := rfl
@[simp] theorem countBlock_cfgerr : (countBlock s).cfgerr = s.cfgerr := rfl
@[simp] theorem countBlock_src : (countBlock s).src = s.src := rfl
@[simp] theorem countBlock_dst : (countBlock s).dst = s.dst := rfl
@[simp] theorem countBlock_stream : (countBlock s).stream = s.stream := rfl
@[simp] theorem countBlock_script : (countBlock s).script = s.script := rfl
@[simp] theorem countBlock_seen : (countBlock s).seen = s.seen := rfl

@[simp] theorem setTrunc_blk : (setTrunc s).blk = s.blk := rfl
@[simp] theorem setTrunc_srcLen : (setTrunc s).srcLen = s.srcLen := rfl
@[simp] theorem setTrunc_dstCap : (setTrunc s).dstCap = s.dstCap := rfl
@[simp] theorem setTrunc_srcPos : (setTrunc s).srcPos = s.srcPos := rfl
@[simp] theorem setTrunc_dstPos : (setTrunc s).dstPos = s.dstPos := rfl
@[simp] theorem setTrunc_blkCnt : (setTrunc s).blkCnt = s.blkCnt := rfl
@[simp] theorem setTrunc_busy : (setTrunc s).busy = s.busy := rfl
@[simp] theorem setTrunc_done : (setTrunc s).done = s.done := rfl
@[simp] theorem setTrunc_trunc : (setTrunc s).trunc = true := rfl
@[simp] theorem setTrunc_tail : (setTrunc s).tail = s.tail := rfl
@[simp] theorem setTrunc_bounds : (setTrunc s).bounds = s.bounds := rfl
@[simp] theorem setTrunc_cmderr : (setTrunc s).cmderr = s.cmderr := rfl
@[simp] theorem setTrunc_cfgerr : (setTrunc s).cfgerr = s.cfgerr := rfl
@[simp] theorem setTrunc_src : (setTrunc s).src = s.src := rfl
@[simp] theorem setTrunc_dst : (setTrunc s).dst = s.dst := rfl
@[simp] theorem setTrunc_stream : (setTrunc s).stream = s.stream := rfl
@[simp] theorem setTrunc_script : (setTrunc s).script = s.script := rfl
@[simp] theorem setTrunc_seen : (setTrunc s).seen = s.seen := rfl

@[simp] theorem setTail_blk : (setTail s).blk = s.blk := rfl
@[simp] theorem setTail_srcLen : (setTail s).srcLen = s.srcLen := rfl
@[simp] theorem setTail_dstCap : (setTail s).dstCap = s.dstCap := rfl
@[simp] theorem setTail_srcPos : (setTail s).srcPos = s.srcPos := rfl
@[simp] theorem setTail_dstPos : (setTail s).dstPos = s.dstPos := rfl
@[simp] theorem setTail_blkCnt : (setTail s).blkCnt = s.blkCnt := rfl
@[simp] theorem setTail_busy : (setTail s).busy = s.busy := rfl
@[simp] theorem setTail_done : (setTail s).done = s.done := rfl
@[simp] theorem setTail_trunc : (setTail s).trunc = s.trunc := rfl
@[simp] theorem setTail_tail : (setTail s).tail = true := rfl
@[simp] theorem setTail_bounds : (setTail s).bounds = s.bounds := rfl
@[simp] theorem setTail_cmderr : (setTail s).cmderr = s.cmderr := rfl
@[simp] theorem setTail_cfgerr : (setTail s).cfgerr = s.cfgerr := rfl
@[simp] theorem setTail_src : (setTail s).src = s.src := rfl
@[simp] theorem setTail_dst : (setTail s).dst = s.dst := rfl
@[simp] theorem setTail_stream : (setTail s).stream = s.stream := rfl
@[simp] theorem setTail_script : (setTail s).script = s.script := rfl
@[simp] theorem setTail_seen : (setTail s).seen = s.seen := rfl

@[simp] theorem accept_blk : (accept s).blk = s.blk := rfl
@[simp] theorem accept_srcLen : (accept s).srcLen = s.srcLen := rfl
@[simp] theorem accept_dstCap : (accept s).dstCap = s.dstCap := rfl
@[simp] theorem accept_srcPos : (accept s).srcPos = s.srcPos := rfl
@[simp] theorem accept_dstPos : (accept s).dstPos = s.dstPos := rfl
@[simp] theorem accept_blkCnt : (accept s).blkCnt = s.blkCnt := rfl
@[simp] theorem accept_busy : (accept s).busy = true := rfl
@[simp] theorem accept_done : (accept s).done = false := rfl
@[simp] theorem accept_trunc : (accept s).trunc = s.trunc := rfl
@[simp] theorem accept_tail : (accept s).tail = s.tail := rfl
@[simp] theorem accept_bounds : (accept s).bounds = s.bounds := rfl
@[simp] theorem accept_cmderr : (accept s).cmderr = s.cmderr := rfl
@[simp] theorem accept_cfgerr : (accept s).cfgerr = s.cfgerr := rfl
@[simp] theorem accept_src : (accept s).src = s.src := rfl
@[simp] theorem accept_dst : (accept s).dst = s.dst := rfl
@[simp] theorem accept_stream : (accept s).stream = s.stream := rfl
@[simp] theorem accept_script : (accept s).script = s.script := rfl
@[simp] theorem accept_seen : (accept s).seen = s.seen := rfl

@[simp] theorem complete_blk : (complete s).blk = s.blk := rfl
@[simp] theorem complete_srcLen : (complete s).srcLen = s.srcLen := rfl
@[simp] theorem complete_dstCap : (complete s).dstCap = s.dstCap := rfl
@[simp] theorem complete_srcPos : (complete s).srcPos = s.srcPos := rfl
@[simp] theorem complete_dstPos : (complete s).dstPos = s.dstPos := rfl
@[simp] theorem complete_blkCnt : (complete s).blkCnt = s.blkCnt := rfl
@[simp] theorem complete_busy : (complete s).busy = false := rfl
@[simp] theorem complete_done : (complete s).done = true := rfl
@[simp] theorem complete_trunc : (complete s).trunc = s.trunc := rfl
@[simp] theorem complete_tail : (complete s).tail = s.tail := rfl
@[simp] theorem complete_bounds : (complete s).bounds = s.bounds := rfl
@[simp] theorem complete_cmderr : (complete s).cmderr = s.cmderr := rfl
@[simp] theorem complete_cfgerr : (complete s).cfgerr = s.cfgerr := rfl
@[simp] theorem complete_src : (complete s).src = s.src := rfl
@[simp] theorem complete_dst : (complete s).dst = s.dst := rfl
@[simp] theorem complete_stream : (complete s).stream = s.stream := rfl
@[simp] theorem complete_script : (complete s).script = s.script := rfl
@[simp] theorem complete_seen : (complete s).seen = s.seen := rfl

@[simp] theorem refuseCommand_blk : (refuseCommand s).blk = s.blk := rfl
@[simp] theorem refuseCommand_srcLen : (refuseCommand s).srcLen = s.srcLen := rfl
@[simp] theorem refuseCommand_dstCap : (refuseCommand s).dstCap = s.dstCap := rfl
@[simp] theorem refuseCommand_srcPos : (refuseCommand s).srcPos = s.srcPos := rfl
@[simp] theorem refuseCommand_dstPos : (refuseCommand s).dstPos = s.dstPos := rfl
@[simp] theorem refuseCommand_blkCnt : (refuseCommand s).blkCnt = s.blkCnt := rfl
@[simp] theorem refuseCommand_busy : (refuseCommand s).busy = s.busy := rfl
@[simp] theorem refuseCommand_done : (refuseCommand s).done = s.done := rfl
@[simp] theorem refuseCommand_trunc : (refuseCommand s).trunc = s.trunc := rfl
@[simp] theorem refuseCommand_tail : (refuseCommand s).tail = s.tail := rfl
@[simp] theorem refuseCommand_bounds : (refuseCommand s).bounds = s.bounds := rfl
@[simp] theorem refuseCommand_cmderr : (refuseCommand s).cmderr = true := rfl
@[simp] theorem refuseCommand_cfgerr : (refuseCommand s).cfgerr = s.cfgerr := rfl
@[simp] theorem refuseCommand_src : (refuseCommand s).src = s.src := rfl
@[simp] theorem refuseCommand_dst : (refuseCommand s).dst = s.dst := rfl
@[simp] theorem refuseCommand_stream : (refuseCommand s).stream = s.stream := rfl
@[simp] theorem refuseCommand_script : (refuseCommand s).script = s.script := rfl
@[simp] theorem refuseCommand_seen : (refuseCommand s).seen = s.seen := rfl

@[simp] theorem refuseConfig_blk : (refuseConfig s).blk = s.blk := rfl
@[simp] theorem refuseConfig_srcLen : (refuseConfig s).srcLen = s.srcLen := rfl
@[simp] theorem refuseConfig_dstCap : (refuseConfig s).dstCap = s.dstCap := rfl
@[simp] theorem refuseConfig_srcPos : (refuseConfig s).srcPos = s.srcPos := rfl
@[simp] theorem refuseConfig_dstPos : (refuseConfig s).dstPos = s.dstPos := rfl
@[simp] theorem refuseConfig_blkCnt : (refuseConfig s).blkCnt = s.blkCnt := rfl
@[simp] theorem refuseConfig_busy : (refuseConfig s).busy = s.busy := rfl
@[simp] theorem refuseConfig_done : (refuseConfig s).done = s.done := rfl
@[simp] theorem refuseConfig_trunc : (refuseConfig s).trunc = s.trunc := rfl
@[simp] theorem refuseConfig_tail : (refuseConfig s).tail = s.tail := rfl
@[simp] theorem refuseConfig_bounds : (refuseConfig s).bounds = s.bounds := rfl
@[simp] theorem refuseConfig_cmderr : (refuseConfig s).cmderr = s.cmderr := rfl
@[simp] theorem refuseConfig_cfgerr : (refuseConfig s).cfgerr = true := rfl
@[simp] theorem refuseConfig_src : (refuseConfig s).src = s.src := rfl
@[simp] theorem refuseConfig_dst : (refuseConfig s).dst = s.dst := rfl
@[simp] theorem refuseConfig_stream : (refuseConfig s).stream = s.stream := rfl
@[simp] theorem refuseConfig_script : (refuseConfig s).script = s.script := rfl
@[simp] theorem refuseConfig_seen : (refuseConfig s).seen = s.seen := rfl

@[simp] theorem clearPass_blk : (clearPass s).blk = s.blk := rfl
@[simp] theorem clearPass_srcLen : (clearPass s).srcLen = s.srcLen := rfl
@[simp] theorem clearPass_dstCap : (clearPass s).dstCap = s.dstCap := rfl
@[simp] theorem clearPass_srcPos : (clearPass s).srcPos = 0#32 := rfl
@[simp] theorem clearPass_dstPos : (clearPass s).dstPos = 0#32 := rfl
@[simp] theorem clearPass_blkCnt : (clearPass s).blkCnt = 0#32 := rfl
@[simp] theorem clearPass_busy : (clearPass s).busy = s.busy := rfl
@[simp] theorem clearPass_done : (clearPass s).done = s.done := rfl
@[simp] theorem clearPass_trunc : (clearPass s).trunc = false := rfl
@[simp] theorem clearPass_tail : (clearPass s).tail = false := rfl
@[simp] theorem clearPass_bounds : (clearPass s).bounds = false := rfl
@[simp] theorem clearPass_cmderr : (clearPass s).cmderr = false := rfl
@[simp] theorem clearPass_cfgerr : (clearPass s).cfgerr = false := rfl
@[simp] theorem clearPass_src : (clearPass s).src = s.src := rfl
@[simp] theorem clearPass_dst : (clearPass s).dst = s.dst := rfl
@[simp] theorem clearPass_stream : (clearPass s).stream = s.stream := rfl
@[simp] theorem clearPass_script : (clearPass s).script = s.script := rfl
@[simp] theorem clearPass_seen : (clearPass s).seen = s.seen := rfl

@[simp] theorem xorfStage_blk : (xorfStage s).blk = xorForward s.blk := by simp only [xorfStage]
@[simp] theorem xorfStage_srcLen : (xorfStage s).srcLen = s.srcLen := by simp only [xorfStage]
@[simp] theorem xorfStage_dstCap : (xorfStage s).dstCap = s.dstCap := by simp only [xorfStage]
@[simp] theorem xorfStage_srcPos : (xorfStage s).srcPos = s.srcPos := by simp only [xorfStage]
@[simp] theorem xorfStage_dstPos : (xorfStage s).dstPos = s.dstPos := by simp only [xorfStage]
@[simp] theorem xorfStage_blkCnt : (xorfStage s).blkCnt = s.blkCnt := by simp only [xorfStage]
@[simp] theorem xorfStage_busy : (xorfStage s).busy = s.busy := by simp only [xorfStage]
@[simp] theorem xorfStage_done : (xorfStage s).done = s.done := by simp only [xorfStage]
@[simp] theorem xorfStage_trunc : (xorfStage s).trunc = s.trunc := by simp only [xorfStage]
@[simp] theorem xorfStage_tail : (xorfStage s).tail = s.tail := by simp only [xorfStage]
@[simp] theorem xorfStage_bounds : (xorfStage s).bounds = s.bounds := by simp only [xorfStage]
@[simp] theorem xorfStage_cmderr : (xorfStage s).cmderr = s.cmderr := by simp only [xorfStage]
@[simp] theorem xorfStage_cfgerr : (xorfStage s).cfgerr = s.cfgerr := by simp only [xorfStage]
@[simp] theorem xorfStage_src : (xorfStage s).src = s.src := by simp only [xorfStage]
@[simp] theorem xorfStage_dst : (xorfStage s).dst = s.dst := by simp only [xorfStage]
@[simp] theorem xorfStage_stream : (xorfStage s).stream = s.stream := by simp only [xorfStage]
@[simp] theorem xorfStage_script : (xorfStage s).script = s.script := by simp only [xorfStage]
@[simp] theorem xorfStage_seen : (xorfStage s).seen = s.seen := by simp only [xorfStage]

@[simp] theorem xoriStage_blk : (xoriStage s).blk = xorInverse s.blk := by simp only [xoriStage]
@[simp] theorem xoriStage_srcLen : (xoriStage s).srcLen = s.srcLen := by simp only [xoriStage]
@[simp] theorem xoriStage_dstCap : (xoriStage s).dstCap = s.dstCap := by simp only [xoriStage]
@[simp] theorem xoriStage_srcPos : (xoriStage s).srcPos = s.srcPos := by simp only [xoriStage]
@[simp] theorem xoriStage_dstPos : (xoriStage s).dstPos = s.dstPos := by simp only [xoriStage]
@[simp] theorem xoriStage_blkCnt : (xoriStage s).blkCnt = s.blkCnt := by simp only [xoriStage]
@[simp] theorem xoriStage_busy : (xoriStage s).busy = s.busy := by simp only [xoriStage]
@[simp] theorem xoriStage_done : (xoriStage s).done = s.done := by simp only [xoriStage]
@[simp] theorem xoriStage_trunc : (xoriStage s).trunc = s.trunc := by simp only [xoriStage]
@[simp] theorem xoriStage_tail : (xoriStage s).tail = s.tail := by simp only [xoriStage]
@[simp] theorem xoriStage_bounds : (xoriStage s).bounds = s.bounds := by simp only [xoriStage]
@[simp] theorem xoriStage_cmderr : (xoriStage s).cmderr = s.cmderr := by simp only [xoriStage]
@[simp] theorem xoriStage_cfgerr : (xoriStage s).cfgerr = s.cfgerr := by simp only [xoriStage]
@[simp] theorem xoriStage_src : (xoriStage s).src = s.src := by simp only [xoriStage]
@[simp] theorem xoriStage_dst : (xoriStage s).dst = s.dst := by simp only [xoriStage]
@[simp] theorem xoriStage_stream : (xoriStage s).stream = s.stream := by simp only [xoriStage]
@[simp] theorem xoriStage_script : (xoriStage s).script = s.script := by simp only [xoriStage]
@[simp] theorem xoriStage_seen : (xoriStage s).seen = s.seen := by simp only [xoriStage]

end Sys2Proof.Machine
end

