-- ==== Sys2Proof/Laws/Ops.lean ====
section
/-! SUPPORT. One lemma for each shared operation, saying once everything it can do. -/

namespace Sys2Proof.Machine

/-! ### The byte cursors -/

theorem readSrc_eq (s : State) : readSrc s = (memRead s s.srcPos.toNat, advanceSrc s) := rfl

/-- What `emit` can do (R82): only the cursor moves, or Bounds is raised, or the byte is stored and the cursor moves. -/
theorem emit_cases (v : Byte) (sz : Bool) (s : State) :
    (sz = true ∧ emit v sz s = .running (advanceDst s)) ∨
    (sz = false ∧ s.dstCap ≤ s.dstPos ∧ emit v sz s = .aborted { s with bounds := true }) ∨
    (sz = false ∧ s.dstPos < s.dstCap ∧
      emit v sz s = .running (advanceDst (memWrite s s.dstPos.toNat v))) := by
  unfold emit
  cases sz
  · by_cases h : s.dstCap ≤ s.dstPos
    · simp [destFull, raiseBounds, h]
    · simp [destFull, h, BitVec.not_le.mp h]
  · simp

/-! ### Sequencing -/

@[simp] theorem andThen_running (s : State) (f : State → Progress) : andThen (.running s) f = f s := rfl

@[simp] theorem andThen_aborted (s : State) (f : State → Progress) : andThen (.aborted s) f = .aborted s := rfl

@[simp] theorem progressState_running (s : State) : progressState (.running s) = s := rfl

@[simp] theorem progressState_aborted (s : State) : progressState (.aborted s) = s := rfl

@[simp] theorem emitAll_nil (sz : Bool) (s : State) : emitAll [] sz s = .running s := rfl

theorem emitAll_cons (v : Byte) (vs : List Byte) (sz : Bool) (s : State) :
    emitAll (v :: vs) sz s = andThen (emit v sz s) (emitAll vs sz) := rfl

/-- A sequence that goes on to its end went on through its first part. -/
theorem andThen_eq_running {p : Progress} {f : State → Progress} {t : State} (h : andThen p f = .running t) :
    ∃ s, p = .running s ∧ f s = .running t := by
  cases p with
  | running s => exact ⟨s, rfl, h⟩
  | aborted s => simp at h

/-! ### A property that emitting keeps -/

/-- A property of states that every advance, every allowed store and every Bounds keeps is kept by emitting bytes. -/
theorem emitAll_induct (P : State → Prop) (sz : Bool)
    (hadv : ∀ s, sz = true → P s → P (advanceDst s))
    (hput : ∀ s v, sz = false → s.dstPos < s.dstCap → P s → P (advanceDst (memWrite s s.dstPos.toNat v)))
    (hbnd : ∀ s, sz = false → s.dstCap ≤ s.dstPos → P s → P { s with bounds := true })
    (vs : List Byte) (s : State) (hs : P s) : P (progressState (emitAll vs sz s)) := by
  induction vs generalizing s with
  | nil => exact hs
  | cons v vs ih =>
    rw [emitAll_cons]
    rcases emit_cases v sz s with ⟨hz, h⟩ | ⟨hz, hc, h⟩ | ⟨hz, hc, h⟩ <;> rw [h]
    · exact ih _ (hadv s hz hs)
    · exact hbnd s hz hc hs
    · exact ih _ (hput s v hz hc hs)

/-- Emitting writes nothing but the destination space, DST_POS and BOUNDS. -/
theorem emitAll_frame (vs : List Byte) (sz : Bool) (s : State) :
    ∃ m p b, progressState (emitAll vs sz s) = { s with dst := m, dstPos := p, bounds := b } := by
  refine emitAll_induct (fun t => ∃ m p b, t = { s with dst := m, dstPos := p, bounds := b }) sz ?_ ?_ ?_ vs s
    ⟨s.dst, s.dstPos, s.bounds, rfl⟩
  · rintro t - ⟨m, p, b, rfl⟩; exact ⟨_, _, _, rfl⟩
  · rintro t v - - ⟨m, p, b, rfl⟩; exact ⟨_, _, _, rfl⟩
  · rintro t - - ⟨m, p, b, rfl⟩; exact ⟨_, _, _, rfl⟩

/-- Emitting with `sz` only advances the cursor (R82). -/
theorem emitAll_sizeOnly (vs : List Byte) (s : State) :
    emitAll vs true s = .running { s with dstPos := s.dstPos + BitVec.ofNat 32 vs.length } := by
  induction vs generalizing s with
  | nil => simp
  | cons v vs ih =>
    rw [emitAll_cons]
    simp only [emit, if_true, andThen_running, ih, advanceDst, List.length_cons, Progress.running.injEq]
    rw [BitVec.add_assoc, Nat.add_comm vs.length 1, BitVec.ofNat_add]

/-! ### The life of a command -/

/-- What issuing a stage command does (R154): a refusal that sets CFGERR, or the body between acceptance and end. -/
theorem runStage_cases (body : State → Progress) (s : State) :
    (lengthsIllegal s = true ∧ runStage body s = complete (refuseConfig (accept s))) ∨
    (lengthsIllegal s = false ∧ runStage body s = complete (progressState (body (accept s)))) := by
  unfold runStage
  cases lengthsIllegal s <;> simp

/-- What issuing a whole-buffer command does (R154, R136): as for a stage command, with the zeroing first. -/
theorem runWhole_cases (body : State → Progress) (s : State) :
    (lengthsIllegal s = true ∧ runWhole body s = complete (refuseConfig (accept s))) ∨
    (lengthsIllegal s = false ∧ runWhole body s = complete (progressState (body (clearPass (accept s))))) := by
  unfold runWhole
  cases lengthsIllegal s <;> simp

/-! ### The tests -/

theorem exhausted_iff (s : State) : exhausted s = true ↔ s.srcLen ≤ s.srcPos := by simp [exhausted]

theorem lengthsIllegal_eq_false_iff (s : State) :
    lengthsIllegal s = false ↔ s.srcLen ≤ Config.maxLen ∧ s.dstCap ≤ Config.maxLen := by
  simp [lengthsIllegal, BitVec.not_lt]

theorem remaining_eq_zero_iff (s : State) : remaining s = 0 ↔ s.srcLen ≤ s.srcPos := by
  simp [remaining, BitVec.le_def, Nat.sub_eq_zero_iff_le]

/-! ### The host port -/

/-- What a host action can do: a command or refusal issued through CTRL, a fault outside the offset space, or one next
state. -/
theorem hostAct_cases (a : HostAction) (s : State) :
    (∃ w, a = .writeReg 0 w ∧ hostAct a s = issue w s) ∨
    (a.wf = false ∧ ∃ f, hostAct a s = .fault f) ∨
    (a.wf = true ∧ (∀ w, a ≠ .writeReg 0 w) ∧ ∃ t, hostAct a s = .next t) := by
  cases a with
  | storeSource o bs => cases h : (HostAction.storeSource o bs).wf <;> simp [hostAct, h]
  | writeReg n v =>
    by_cases h : n = 0
    · subst h; exact .inl ⟨v, rfl, rfl⟩
    · exact .inr (.inr ⟨rfl, by simp [h], by simp [hostAct, h]⟩)
  | readReg n => exact .inr (.inr ⟨rfl, by simp, _, rfl⟩)
  | readDest n => cases h : (HostAction.readDest n).wf <;> simp [hostAct, h]
  | hardReset => exact .inr (.inr ⟨rfl, by simp, _, rfl⟩)

/-- What a write to CTRL does (R154): the decoded command, or CMDERR and nothing else. -/
theorem issue_cases (w : Word) (s : State) :
    (∃ i, decodeCommand w = .ok i ∧ issue w s = exec i s) ∨
    (∃ e, decodeCommand w = .error e ∧ issue w s = .next (complete (refuseCommand (accept s)))) := by
  unfold issue
  cases h : decodeCommand w with
  | ok i => exact .inl ⟨i, rfl, by simp [decode, h]⟩
  | error e => exact .inr ⟨e, rfl, by simp [decode, h]⟩

/-- A step is the engine's turn inside a block, or the host's. -/
theorem step_cases (s : State) :
    (s.busy = true ∧ step s = streamTurn s) ∨ (s.busy = false ∧ step s = hostTurn s) := by
  unfold step
  cases s.busy <;> simp

end Sys2Proof.Machine
end

