-- ==== Sys2Proof/Laws/PerInstr.lean ====
section
/-! SUPPORT. A property of every instruction, one lemma per constructor: the form of its encoding. -/

namespace Sys2Proof.Laws

/-- A command is encoded in a word whose reserved field is 0 and whose SZ bit stands only beside DEC and ENC
(30_encoding.md R61); a stream element is encoded in a byte (R67, R71). -/
def EncodedForm.Statement (i : Instr) : Prop :=
  match encode i with
  | .command w => i.isCommand = true ∧ reservedField w = 0#27 ∧ (szField w = true → opField w = 1#4 ∨ opField w = 2#4)
  | .element _ => i.isCommand = false

theorem EncodedForm.nop : EncodedForm.Statement .nop := ⟨rfl, rfl, by decide⟩
theorem EncodedForm.dec : EncodedForm.Statement .dec := ⟨rfl, rfl, by decide⟩
theorem EncodedForm.decsz : EncodedForm.Statement .decsz := ⟨rfl, rfl, by decide⟩
theorem EncodedForm.enc : EncodedForm.Statement .enc := ⟨rfl, rfl, by decide⟩
theorem EncodedForm.encsz : EncodedForm.Statement .encsz := ⟨rfl, rfl, by decide⟩
theorem EncodedForm.xorf : EncodedForm.Statement .xorf := ⟨rfl, rfl, by decide⟩
theorem EncodedForm.xori : EncodedForm.Statement .xori := ⟨rfl, rfl, by decide⟩
theorem EncodedForm.bmi : EncodedForm.Statement .bmi := ⟨rfl, rfl, by decide⟩
theorem EncodedForm.bmf : EncodedForm.Statement .bmf := ⟨rfl, rfl, by decide⟩
theorem EncodedForm.ldblk : EncodedForm.Statement .ldblk := ⟨rfl, rfl, by decide⟩
theorem EncodedForm.stblk : EncodedForm.Statement .stblk := ⟨rfl, rfl, by decide⟩
theorem EncodedForm.clr : EncodedForm.Statement .clr := ⟨rfl, rfl, by decide⟩
theorem EncodedForm.token (t : Byte) : EncodedForm.Statement (.token t) := rfl
theorem EncodedForm.literal (v : Byte) : EncodedForm.Statement (.literal v) := rfl

end Sys2Proof.Laws
end

