-- ==== Sys2Proof/Laws/Stages.lean ====
section
/-! SUPPORT. What each stage of the pipeline can change, said once. -/

namespace Sys2Proof.Machine

/-! ### BMI -/

/-- What the token of a group can do (R110). -/
theorem bmiToken_cases (c : Bool × State) :
    (c.1 = true ∧ bmiToken c = (0#8, c)) ∨
    (c.1 = false ∧ c.2.srcLen ≤ c.2.srcPos ∧ bmiToken c = (0#8, true, setTrunc c.2)) ∨
    (c.1 = false ∧ c.2.srcPos < c.2.srcLen ∧
      bmiToken c = (memRead c.2 c.2.srcPos.toNat, false, advanceSrc c.2)) := by
  obtain ⟨stop, s⟩ := c
  cases stop
  · by_cases h : s.srcLen ≤ s.srcPos
    · simp [bmiToken, exhausted, stopTruncated, h]
    · simp [bmiToken, exhausted, readSrc, h, BitVec.not_le.mp h]
  · simp [bmiToken]

/-- What one logical byte of a group can do (R110, R115). -/
theorem bmiByte_cases (g : GroupIx) (tok : Byte) (c : Bool × State) (k : BitIx) :
    ((c.1 = true ∨ tokenBit tok k = false) ∧ bmiByte g tok c k = (c.1, setByte c.2 (blkIx g k) 0#8)) ∨
    (c.1 = false ∧ tokenBit tok k = true ∧ c.2.srcLen ≤ c.2.srcPos ∧
      bmiByte g tok c k = (true, setByte (setTrunc c.2) (blkIx g k) 0#8)) ∨
    (c.1 = false ∧ tokenBit tok k = true ∧ c.2.srcPos < c.2.srcLen ∧
      bmiByte g tok c k = (false, setByte (advanceSrc c.2) (blkIx g k) (memRead c.2 c.2.srcPos.toNat))) := by
  obtain ⟨stop, s⟩ := c
  cases stop
  · cases ht : tokenBit tok k
    · simp [bmiByte, ht]
    · by_cases h : s.srcLen ≤ s.srcPos
      · simp [bmiByte, exhausted, stopTruncated, ht, h]
      · simp [bmiByte, exhausted, readSrc, ht, h, BitVec.not_le.mp h]
  · simp [bmiByte]

/-- A property that every reading, every byte stored in BLK and every TRUNC keeps is kept by BMI's groups. -/
theorem bmiGroups_induct (P : Bool × State → Prop)
    (hset : ∀ s b j, P (b, s) → P (b, setByte s j 0#8))
    (hstop : ∀ s, s.srcLen ≤ s.srcPos → P (false, s) → P (true, setTrunc s))
    (htok : ∀ s, s.srcPos < s.srcLen → P (false, s) → P (false, advanceSrc s))
    (hlit : ∀ s j, s.srcPos < s.srcLen → P (false, s) →
      P (false, setByte (advanceSrc s) j (memRead s s.srcPos.toNat)))
    (gs : List GroupIx) (c : Bool × State) (hc : P c) : P (gs.foldl bmiGroup c) := by
  induction gs generalizing c with
  | nil => exact hc
  | cons g gs ih =>
    refine ih _ ?_
    have hbytes : ∀ (tok : Byte) (ks : List BitIx) (d : Bool × State), P d → P (ks.foldl (bmiByte g tok) d) := by
      intro tok ks
      induction ks with
      | nil => exact fun d hd => hd
      | cons k ks ihk =>
        intro d hd
        refine ihk _ ?_
        obtain ⟨stop, s⟩ := d
        rcases bmiByte_cases g tok (stop, s) k with ⟨-, h⟩ | ⟨hs, -, he, h⟩ | ⟨hs, -, he, h⟩ <;> rw [h]
        · exact hset _ _ _ hd
        · simp only at hs; subst hs; exact hset _ _ _ (hstop _ he hd)
        · simp only at hs; subst hs; exact hlit _ _ he hd
    obtain ⟨stop, s⟩ := c
    refine hbytes _ _ _ ?_
    rcases bmiToken_cases (stop, s) with ⟨-, h⟩ | ⟨hs, he, h⟩ | ⟨hs, he, h⟩ <;> rw [h]
    · exact hc
    · simp only at hs; subst hs; exact hstop _ he hc
    · simp only at hs; subst hs; exact htok _ he hc

/-- BMI writes nothing but BLK, SRC_POS, BLKCNT and TRUNC (R110). -/
theorem bmiStage_frame (s : State) :
    ∃ b p n t, bmiStage s = { s with blk := b, srcPos := p, blkCnt := n, trunc := t } := by
  refine bmiGroups_induct (fun c => ∃ b p n t, c.2 = { s with blk := b, srcPos := p, blkCnt := n, trunc := t })
    ?_ ?_ ?_ ?_ groups _ ?_
  · rintro _ _ j ⟨b, p, n, t, rfl⟩; exact ⟨_, _, _, _, rfl⟩
  · rintro _ - ⟨b, p, n, t, rfl⟩; exact ⟨_, _, _, _, rfl⟩
  · rintro _ - ⟨b, p, n, t, rfl⟩; exact ⟨_, _, _, _, rfl⟩
  · rintro _ j - ⟨b, p, n, t, rfl⟩; exact ⟨_, _, _, _, rfl⟩
  · cases exhausted s
    · exact ⟨s.blk, s.srcPos, s.blkCnt + 1#32, s.trunc, rfl⟩
    · exact ⟨s.blk, s.srcPos, s.blkCnt, s.trunc, rfl⟩

/-! ### LDBLK -/

/-- Loading bytes writes nothing but BLK and SRC_POS (R130). -/
theorem loadBytes_frame (n : Nat) (s : State) : ∃ b p, loadBytes n s = { s with blk := b, srcPos := p } := by
  have h : ∀ (js : List ByteIx) (t : State), (∃ b p, t = { s with blk := b, srcPos := p }) →
      ∃ b p, js.foldl (loadByte n) t = { s with blk := b, srcPos := p } := by
    intro js
    induction js with
    | nil => exact fun t ht => ht
    | cons j js ih =>
      rintro t ⟨b, p, rfl⟩
      refine ih _ ?_
      unfold loadByte
      split_ifs
      · exact ⟨_, _, rfl⟩
      · exact ⟨_, _, rfl⟩
  exact h blockOrder s ⟨s.blk, s.srcPos, rfl⟩

/-- What LDBLK can do (R130): load a whole block, meet a trailing partial block, or nothing. -/
theorem ldblkStage_cases (p : TailPolicy) (s : State) :
    (32 ≤ remaining s ∧ ldblkStage p s = (true, countBlock (loadBytes 32 s))) ∨
    (1 ≤ remaining s ∧ remaining s < 32 ∧ p = .zeropad ∧
      ldblkStage p s = (true, countBlock (loadBytes (remaining s) (setTail s)))) ∨
    (1 ≤ remaining s ∧ remaining s < 32 ∧ p ≠ .zeropad ∧ ldblkStage p s = (false, setTail s)) ∨
    (remaining s = 0 ∧ ldblkStage p s = (false, s)) := by
  by_cases h : 32 ≤ remaining s
  · simp [ldblkStage, h]
  · by_cases h1 : 1 ≤ remaining s
    · cases p <;> simp [ldblkStage, h, h1, Nat.not_le.mp h]
    · have h0 : remaining s = 0 := by omega
      simp [ldblkStage, h0]

/-! ### The loops -/

theorem decLoop_zero (sz : Bool) (s : State) : decLoop sz 0 s = .running s := rfl

theorem decLoop_exhausted (sz : Bool) (n : Nat) (s : State) (h : s.srcLen ≤ s.srcPos) :
    decLoop sz n s = .running s := by
  cases n <;> simp [decLoop, exhausted, h]

theorem decLoop_block (sz : Bool) (n : Nat) (s : State) (h : s.srcPos < s.srcLen) :
    decLoop sz (n + 1) s = andThen (stblkStage sz (xorfStage (bmiStage s))) (decLoop sz n) := by
  simp [decLoop, exhausted, BitVec.not_le.mpr h]

theorem encLoop_stop (p : TailPolicy) (sz : Bool) (n : Nat) (s : State) (h : (ldblkStage p s).1 = false) :
    encLoop p sz (n + 1) s = .running (ldblkStage p s).2 := by simp [encLoop, h]

theorem encLoop_block (p : TailPolicy) (sz : Bool) (n : Nat) (s : State) (h : (ldblkStage p s).1 = true) :
    encLoop p sz (n + 1) s = andThen (bmfStage sz (xoriStage (ldblkStage p s).2)) (encLoop p sz n) := by
  simp [encLoop, h]

/-! ### Stream bytes -/

/-- Seeking the next literal writes nothing but BLK, the place in the stream, and at the end of a block BUSY and DONE
(30_encoding.md R71). -/
theorem seekLiteral_frame (g : GroupIx) (tok : Byte) (ks : List BitIx) (s : State) :
    ∃ b q y d, seekLiteral g tok ks s = { s with blk := b, stream := q, busy := y, done := d } := by
  induction ks generalizing s with
  | nil =>
    unfold seekLiteral endGroup
    split_ifs
    · exact ⟨s.blk, _, _, _, rfl⟩
    · exact ⟨s.blk, _, s.busy, s.done, rfl⟩
  | cons k ks ih =>
    unfold seekLiteral
    split_ifs
    · exact ⟨s.blk, _, s.busy, s.done, rfl⟩
    · obtain ⟨b, q, y, d, h⟩ := ih (setByte s (blkIx g k) 0#8)
      exact ⟨b, q, y, d, h⟩

/-- Zero-filling bytes of a group writes nothing but BLK. -/
theorem zeroBytes_frame (g : GroupIx) (ks : List BitIx) (s : State) : ∃ b, zeroBytes g ks s = { s with blk := b } := by
  induction ks generalizing s with
  | nil => exact ⟨s.blk, rfl⟩
  | cons k ks ih =>
    obtain ⟨b, h⟩ := ih (setByte s (blkIx g k) 0#8)
    exact ⟨b, h⟩

end Sys2Proof.Machine
end

