-- ==== Sys2Proof/Laws/Words.lean ====
section
/-! SUPPORT. The word view of a block: reading a word back, leaving the others alone, and the bytes it is made of. -/

namespace Sys2Proof.Machine

/-- The four bytes of a word make the word (20_memory.md R44). -/
theorem wordOfBytes_wordByte (v : Word) :
    wordOfBytes (wordByte v 0) (wordByte v 1) (wordByte v 2) (wordByte v 3) = v := by
  apply BitVec.eq_of_getLsbD_eq
  intro n hn
  simp only [wordOfBytes, wordOfHalves, half, wordByte, BitVec.getLsbD_append, BitVec.getLsbD_extractLsb']
  have : n < 8 ∨ (8 ≤ n ∧ n < 16) ∨ (16 ≤ n ∧ n < 24) ∨ 24 ≤ n := by omega
  rcases this with h | ⟨h, h'⟩ | ⟨h, h'⟩ | h
  · simp [h, show n < 16 by omega]
  · simp [show ¬ n < 8 by omega, h', show n - 8 < 8 by omega, show 8 + (n - 8) = n by omega]
  · simp [show ¬ n < 16 by omega, show n - 16 < 8 by omega, show 16 + (n - 16) = n by omega]
  · simp [show ¬ n < 16 by omega, show ¬ n - 16 < 8 by omega, show n - 16 - 8 < 8 by omega,
      show 24 + (n - 16 - 8) = n by omega]

/-- A byte of the word of four bytes is that byte (20_memory.md R45). -/
theorem wordByte_wordOfBytes (b0 b1 b2 b3 : Byte) :
    wordByte (wordOfBytes b0 b1 b2 b3) 0 = b0 ∧ wordByte (wordOfBytes b0 b1 b2 b3) 1 = b1 ∧
    wordByte (wordOfBytes b0 b1 b2 b3) 2 = b2 ∧ wordByte (wordOfBytes b0 b1 b2 b3) 3 = b3 := by
  refine ⟨?_, ?_, ?_, ?_⟩ <;> apply BitVec.eq_of_getLsbD_eq <;> intro n hn <;>
    simp only [wordOfBytes, wordOfHalves, half, wordByte, BitVec.getLsbD_append, BitVec.getLsbD_extractLsb', hn]
  · simp [show ¬ 24 + n < 16 by omega, show ¬ 24 + n - 16 < 8 by omega, show 24 + n - 16 - 8 = n by omega]
  · simp [show ¬ 16 + n < 16 by omega, show 16 + n - 16 = n by omega, hn]
  · simp [show 8 + n < 16 by omega, show ¬ 8 + n < 8 by omega, show 8 + n - 8 = n by omega]
  · simp [show n < 16 by omega, hn]

/-- Two places of the word view are one byte of the block only if they are the same place. -/
theorem laneIx_inj {i i' : WordIx} {b b' : Fin 4} : laneIx i b = laneIx i' b' ↔ i = i' ∧ b = b' := by
  simp only [laneIx, Fin.ext_iff]
  omega

/-- Every byte of the block has a place in the word view. -/
theorem exists_laneIx (j : ByteIx) : ∃ i n, j = laneIx i n :=
  ⟨⟨j.val / 4, by omega⟩, ⟨j.val % 4, by omega⟩, by simp only [laneIx, Fin.ext_iff]; omega⟩

/-- The bytes of a block after a word is written (10_state.md R12, 20_memory.md R45). -/
theorem setWord_lane (b : Block) (i i' : WordIx) (n : Fin 4) (v : Word) :
    (setWord b i v)[laneIx i' n] = if i' = i then wordByte v n else b[laneIx i' n] := by
  have key : ∀ m : Fin 4, (laneIx i m).val = (laneIx i' n).val ↔ i' = i ∧ n = m := by
    intro m
    rw [← Fin.ext_iff, laneIx_inj]; tauto
  simp only [setWord, Fin.getElem_fin, Vector.getElem_set, key]
  by_cases h : i' = i
  · fin_cases n <;> simp [h]
  · simp [h]

/-- Reading a word after a word is written. -/
theorem wordOf_setWord (b : Block) (i i' : WordIx) (v : Word) :
    wordOf (setWord b i v) i' = if i' = i then v else wordOf b i' := by
  simp only [wordOf, setWord_lane]
  split_ifs
  · exact wordOfBytes_wordByte v
  · rfl

/-- A byte of a word of a block is the byte of the block (20_memory.md R45). -/
theorem wordByte_wordOf (b : Block) (i : WordIx) (n : Fin 4) : wordByte (wordOf b i) n = b[laneIx i n] := by
  obtain ⟨h0, h1, h2, h3⟩ := wordByte_wordOfBytes b[laneIx i 0] b[laneIx i 1] b[laneIx i 2] b[laneIx i 3]
  fin_cases n <;> assumption

/-- Two blocks with the same words are the same block. -/
theorem block_ext_words {b d : Block} (h : ∀ i, wordOf b i = wordOf d i) : b = d := by
  apply Vector.ext
  intro j hj
  obtain ⟨i, n, hin⟩ := exists_laneIx ⟨j, hj⟩
  have e : b[laneIx i n] = d[laneIx i n] := by rw [← wordByte_wordOf, ← wordByte_wordOf, h]
  simpa [← hin] using e

end Sys2Proof.Machine
end

