-- ==== Sys2Proof/Tests/Slice0.lean ====
section
/-! SUPPORT. The model's own tests: well-formedness, decoding, one step of every instruction on the vectors of spec
95_test_vectors.md, and a witness for the hypotheses of every statement that has some. -/

-- decide evaluates whole steps of the machine
set_option maxRecDepth 8192

namespace Sys2Proof.Tests

open Sys2Proof Sys2Proof.Machine Sys2Proof.Safety

/-! ### Well-formedness: what each check refuses -/

/-- A token where a literal is due, and a literal where a token is due (R71). -/
theorem test_wf_element_out_of_place :
    (Instr.token 0x00#8).wf (.literalDue 0 0 0x80#8) = false ∧ (Instr.literal 0x01#8).wf (.tokenDue 2) = false := by
  decide

/-- A literal due at a byte whose token bit is 0 (R71). -/
theorem test_wf_place_without_bit :
    (StreamPos.literalDue 1 3 0x80#8).wf = false ∧ (Instr.literal 0x01#8).wf (.literalDue 1 3 0x80#8) = false := by decide

/-- A group record with a literal too few (R68), and one with a literal 0x00, which is well formed but not canonical
(R72). -/
theorem test_wf_group_record :
    (GroupRecord.mk 0xC0#8 [0x01#8]).wf = false ∧ (GroupRecord.mk 0x80#8 [0x00#8]).wf = true ∧
    (GroupRecord.mk 0x80#8 [0x00#8]).canonical = false := by decide

/-- A block of three group records (R66). -/
theorem test_wf_block : compressedBlockWf [⟨0#8, []⟩, ⟨0#8, []⟩, ⟨0#8, []⟩] = false := by decide

/-- Host accesses past the offset space (20_memory.md R40). -/
theorem test_wf_host_action :
    (HostAction.storeSource 0xFFFFFFFF [1#8, 2#8]).wf = false ∧ (HostAction.readDest 0x100000001).wf = false ∧
    (HostAction.storeSource 0xFFFFFFFE [1#8, 2#8]).wf = true := by decide

/-- A memory out of order, and one that lists an offset twice. -/
theorem test_wf_memory : Memory.wf [(2, 0#8), (1, 0#8)] = false ∧ Memory.wf [(1, 0#8), (1, 0#8)] = false := by decide

/-! ### Decoding: words written out bit by bit from 30_encoding.md R61, R62, R67 -/

theorem test_decode_driver :
    decodeTableWord 32 0b00000000000000000000000000000001 = some .dec ∧
    decodeTableWord 32 0b00000000000000000000000000010001 = some .decsz ∧
    decodeTableWord 32 0b00000000000000000000000000000010 = some .enc ∧
    decodeTableWord 32 0b00000000000000000000000000010010 = some .encsz := by decide

theorem test_decode_xor :
    decodeTableWord 32 0b00000000000000000000000000000100 = some .xorf ∧
    decodeTableWord 32 0b00000000000000000000000000000101 = some .xori := by decide

theorem test_decode_bitmap :
    decodeTableWord 32 0b00000000000000000000000000000110 = some .bmi ∧
    decodeTableWord 32 0b00000000000000000000000000000111 = some .bmf := by decide

theorem test_decode_block :
    decodeTableWord 32 0b00000000000000000000000000001000 = some .ldblk ∧
    decodeTableWord 32 0b00000000000000000000000000001001 = some .stblk := by decide

theorem test_decode_system :
    decodeTableWord 32 0b00000000000000000000000000000000 = some .nop ∧
    decodeTableWord 32 0b00000000000000000000000000001010 = some .clr := by decide

theorem test_decode_stream :
    decodeTableWord 8 0b10001000 = some (.token 0b10001000#8) ∧
    decode (.literalDue 3 7 0x01#8) (.element 0b01111111#8) = .ok (.literal 0x7F#8) := by decide

/-- V-SYS-3, each reason by its name. -/
theorem test_decode_refuses_by_name :
    decodeCommand 0x00000003#32 = .error .reservedOp ∧ decodeCommand 0x0000000B#32 = .error .reservedOp ∧
    decodeCommand 0x00000010#32 = .error .sizeOnly ∧ decodeCommand 0x0000001A#32 = .error .sizeOnly ∧
    decodeCommand 0x00000020#32 = .error .reservedBits ∧ decodeCommand 0x80000001#32 = .error .reservedBits := by
  decide

/-! ### Small states -/

/-- The reset state with source bytes stored, SRC_LEN set to their count, and a destination capacity. -/
def loaded (bs : List Byte) (cap : Word) : State :=
  { State.reset with src := storeBytes [] 0 bs, srcLen := BitVec.ofNat 32 bs.length, dstCap := cap }

/-- The reset state with the first two words of BLK set, and a destination capacity. -/
def withWords (w0 w1 : Word) (cap : Word) : State :=
  { State.reset with blk := setWord (setWord State.reset.blk 0 w0) 1 w1, dstCap := cap }

/-- A field of the next state, if there is one. -/
def ofNext {α : Type} (f : State → α) (o : Host.Outcome State Fault Refusal) : Option α :=
  match o with
  | .next s => some (f s)
  | _ => none

/-! ### One step of every instruction (spec 95_test_vectors.md) -/

/-- V-SYS-2. -/
theorem test_nop : ofNext statusWord (exec .nop State.reset) = some 0x00000002#32 := by decide

/-- R151's example: a fault is acknowledged. -/
theorem test_clr :
    ofNext (fun s => (statusWord s, s.dstPos)) (exec .clr { State.reset with bounds := true, dstPos := 16#32 })
      = some (0x00000002#32, 0#32) := by decide

/-- V-XOR-4: the prefix chain carries W0 to the end. -/
theorem test_xorf_carries :
    ofNext (fun s => (wordOf s.blk 1, wordOf s.blk 7)) (exec .xorf (withWords 0xA5A5A5A5#32 0#32 0#32))
      = some (0xA5A5A5A5#32, 0xA5A5A5A5#32) := by decide

/-- V-SYS-4: CFGERR. -/
theorem test_xorf_refused :
    ofNext (fun s => (statusWord s, wordOf s.blk 1))
      (exec .xorf { withWords 0x11111111#32 0x22222222#32 0#32 with srcLen := 0x10000001#32 })
      = some (0x00000042#32, 0x22222222#32) := by decide

/-- V-XOR-4: only W1 picks up W0. -/
theorem test_xori :
    ofNext (fun s => (wordOf s.blk 0, wordOf s.blk 1, wordOf s.blk 2)) (exec .xori (withWords 0xA5A5A5A5#32 0#32 0#32))
      = some (0xA5A5A5A5#32, 0xA5A5A5A5#32, 0#32) := by decide

/-- V-BMI-4: bit order. -/
theorem test_bmi_bit_order :
    ofNext (fun s => (wordOf s.blk 0, wordOf s.blk 1, wordOf s.blk 5, s.srcPos))
      (exec .bmi (loaded [0xA5#8, 0xDE#8, 0xAD#8, 0xBE#8, 0xEF#8, 0x00#8, 0x01#8, 0x7F#8, 0x80#8, 0x80#8] 0#32))
      = some (0xDE00AD00#32, 0x00BE00EF#32, 0x0000007F#32, 10#32) := by decide

/-- V-BMI-6: exhausted where a literal is due. -/
theorem test_bmi_truncated :
    ofNext (fun s => (wordOf s.blk 0, s.srcPos, statusWord s)) (exec .bmi (loaded [0xC0#8, 0xAA#8] 0#32))
      = some (0xAA000000#32, 2#32, 0x00000006#32) := by decide

/-- V-BMF-1. -/
theorem test_bmf :
    ofNext (fun s => (s.dst, s.dstPos)) (exec .bmf (withWords 0x01000000#32 0x01000000#32 128#32))
      = some ([(0, 0x88#8), (1, 1#8), (2, 1#8), (3, 0#8), (4, 0#8), (5, 0#8)], 6#32) := by decide

/-- V-BMF-7: the token fits, its literal does not. -/
theorem test_bmf_bounds :
    ofNext (fun s => (s.dst, s.dstPos, statusWord s)) (exec .bmf (withWords 0x01000000#32 0x01000000#32 1#32))
      = some ([(0, 0x88#8)], 1#32, 0x00000012#32) := by decide

/-- R130: 32 bytes exactly, and none. -/
theorem test_ldblk :
    ofNext (fun s => (wordOf s.blk 7, s.srcPos, s.blkCnt, statusWord s))
      (exec .ldblk (loaded (List.replicate 31 0x77#8 ++ [0x01#8]) 0#32))
      = some (0x77777701#32, 32#32, 1#32, 0x00000002#32) := by decide

/-- V-LD-1 under each tail policy, with one byte left. -/
theorem test_ldblk_tail :
    (ldblkStage .zeropad (loaded [0x21#8] 0#32)).2.srcPos = 1#32 ∧
    (ldblkStage .drop (loaded [0x21#8] 0#32)).2.srcPos = 0#32 ∧
    (ldblkStage .reject (loaded [0x21#8] 0#32)).2.tail = true := by decide

/-- V-ST-2: a partial store. -/
theorem test_stblk_bounds :
    ofNext (fun s => (s.dst, s.dstPos, s.bounds)) (exec .stblk (withWords 0x10111213#32 0#32 3#32))
      = some ([(0, 0x10#8), (1, 0x11#8), (2, 0x12#8)], 3#32, true) := by decide

/-- V-DEC-2. -/
theorem test_dec :
    ofNext (fun s => (findByte s.dst 28, s.srcPos, s.dstPos, statusWord s))
      (exec .dec (loaded [0x80#8, 0x01#8, 0x00#8, 0x00#8, 0x00#8] 128#32))
      = some (some 0x01#8, 5#32, 32#32, 0x00000002#32) := by decide

/-- V-DEC-15: truncation and bounds together. -/
theorem test_dec_bounds :
    ofNext (fun s => (s.dstPos, s.blkCnt, statusWord s)) (exec .dec (loaded [0xC0#8, 0xAA#8] 16#32))
      = some (16#32, 1#32, 0x00000016#32) := by decide

/-- V-DEC-8 as a size: one stray byte after a complete block, and no bounds check. -/
theorem test_decsz :
    ofNext (fun s => (s.dst, s.dstPos, statusWord s)) (exec .decsz (loaded [0#8, 0#8, 0#8, 0#8, 0x80#8] 0#32))
      = some ([], 64#32, 0x00000006#32) := by decide

/-- V-ENC-1. -/
theorem test_enc :
    ofNext (fun s => (s.dst, s.dstPos, statusWord s)) (exec .enc (loaded (0x01#8 :: List.replicate 31 0#8) 128#32))
      = some ([(0, 0x88#8), (1, 1#8), (2, 1#8), (3, 0#8), (4, 0#8), (5, 0#8)], 6#32, 0x00000002#32) := by decide

/-- V-ENC-6 under each tail policy. -/
theorem test_enc_tail :
    (progressState (encPass .zeropad true (loaded [1#8, 2#8, 3#8, 4#8, 5#8, 6#8, 7#8, 8#8] 0#32))).dstPos = 16#32 ∧
    (progressState (encPass .drop true (loaded [1#8, 2#8] 0#32))).tail = true ∧
    (progressState (encPass .reject true (loaded [1#8, 2#8] 0#32))).tail = true := by decide

/-- V-SZ-2. -/
theorem test_encsz :
    ofNext (fun s => (s.dst, s.dstPos)) (exec .encsz (loaded (0x01#8 :: List.replicate 31 0#8) 0#32))
      = some ([], 6#32) := by decide

/-- R71: the token 0x88 of group 0, first among `88 01 01 00 00 00`. -/
theorem test_token :
    ofNext (fun s => (s.srcPos, s.blkCnt, s.stream)) (exec (.token 0x88#8) State.reset)
      = some (1#32, 1#32, .literalDue 0 0 0x88#8) := by decide

/-- R71: the literal for k = 4 of that token ends the group. -/
theorem test_literal :
    ofNext (fun s => (wordOf s.blk 1, s.stream))
      (exec (.literal 0x01#8) { State.reset with stream := .literalDue 0 4 0x88#8 })
      = some (0x01000000#32, .tokenDue 1) := by decide

/-- V-SYS-9: a write to STATUS is ignored, one to W3 is stored big-endian. -/
theorem test_host_write :
    statusWord (writeRegister 1 0xFFFFFFFF#32 State.reset) = 0#32 ∧
    getByte (writeRegister 11 0xCAFEF00D#32 State.reset) 12 = 0xCA#8 := by decide

/-- The machine runs a placed command word, and a placed token, from reset. -/
theorem test_step_runs_placed :
    ofNext statusWord (step (State.reset.withFetchWord 32 0x00000006)) = some 0x00000006#32 ∧
    ofNext statusWord (step (State.reset.withFetchWord 32 0x00000003)) = some 0x00000022#32 ∧
    ofNext (fun s => s.stream) (step (State.reset.withFetchWord 8 0x40)) = some (.literalDue 0 1 0x40#8) := by decide

/-! ### Witnesses: concrete values that meet the hypotheses of the statements -/

/-- `88 01 01 00 00 00`, one complete canonical block. -/
def oneBlock : List GroupRecord := [⟨0x88#8, [1#8, 1#8]⟩, ⟨0#8, []⟩, ⟨0#8, []⟩, ⟨0#8, []⟩]

/-- A state whose source is `oneBlock` and whose destination takes `cap` bytes. -/
def blockLoaded (cap : Word) : State := loaded (compressedBlockBytes oneBlock) cap

/-- A state about to do one host action. -/
def acting (a : HostAction) : State := { State.reset with script := [a] }

/-- DecodeAndEncodeAgree, at both kinds of place. -/
theorem witness_DecodeAndEncodeAgree :
    (StreamPos.tokenDue 3).wf = true ∧ (StreamPos.literalDue 0 7 0x01#8).wf = true := by decide

theorem witness_StepRunsTheDecodedCommand :
    (acting (.writeReg 0 0x12#32)).busy = false ∧ (acting (.writeReg 0 0x12#32)).script = .writeReg 0 0x12#32 :: [] ∧
    decodeCommand 0x12#32 = .ok .encsz := by decide

theorem witness_StepRunsTheDecodedStreamByte :
    (withElement 0x88#8 State.reset).busy = true ∧
    (withElement 0x88#8 State.reset).srcPos < (withElement 0x88#8 State.reset).srcLen := by decide

theorem witness_IllegalWordSetsOnlyCmderr :
    (acting (.writeReg 0 0x20#32)).busy = false ∧ (acting (.writeReg 0 0x20#32)).script = .writeReg 0 0x20#32 :: [] ∧
    ∀ p ∈ commandTable, p.1 ≠ 0x20#32 := by decide

theorem witness_IdleEngineKeepsAllState : State.reset.busy = false ∧ State.reset.script = [] := by decide

theorem witness_HardResetZeroesRegistersAndKeepsMemories :
    (acting .hardReset).busy = false ∧ (acting .hardReset).script = .hardReset :: [] := by decide

theorem witness_StatusHoldsSevenFlagsAndIgnoresWrites :
    (acting (.writeReg 1 5#32)).busy = false ∧ (acting (.writeReg 1 5#32)).script = .writeReg 1 5#32 :: [] := by decide

/-- HostReadReturnsTheRegister, at the ends of the ranges of numbers. -/
theorem witness_HostReadReturnsTheRegister :
    (acting (.readReg 8)).busy = false ∧ (acting (.readReg 8)).script = .readReg 8 :: [] ∧
    (∃ i : WordIx, 8 = 8 + i.val) ∧ (∃ i : WordIx, 15 = 8 + i.val) ∧ 16 ≤ 16 ∧
    (acting (.readReg 15)).script = .readReg 15 :: [] ∧ (acting (.readReg 16)).script = .readReg 16 :: [] := by decide

/-- HostWriteStoresTheRegister, at the ends of the ranges of numbers. -/
theorem witness_HostWriteStoresTheRegister :
    (acting (.writeReg 8 7#32)).busy = false ∧ (acting (.writeReg 8 7#32)).script = .writeReg 8 7#32 :: [] ∧
    (∃ i : WordIx, 8 = 8 + i.val) ∧ (∃ i : WordIx, 15 = 8 + i.val) ∧
    (7 = 1 ∨ (4 ≤ 7 ∧ 7 ≤ 7) ∨ 16 ≤ 7) ∧ (4 = 1 ∨ (4 ≤ 4 ∧ 4 ≤ 7) ∨ 16 ≤ 4) ∧
    (acting (.writeReg 16 7#32)).script = .writeReg 16 7#32 :: [] := by decide

/-- HostReachesBothMemoriesByOffset: the last offset, and one past it. -/
theorem witness_HostReachesBothMemoriesByOffset :
    (acting (.storeSource 4294967295 [1#8])).busy = false ∧
    (acting (.storeSource 4294967295 [1#8])).script = .storeSource 4294967295 [1#8] :: [] ∧
    4294967295 + [1#8].length ≤ 2 ^ 32 ∧ 2 ^ 32 < 4294967296 + [1#8].length ∧
    (acting (.readDest 4294967296)).script = .readDest 4294967296 :: [] ∧ 4294967296 ≤ 2 ^ 32 ∧
    2 ^ 32 < 4294967297 := by decide

/-- IllegalLengthsSetOnlyCfgerr: each length one above MAX_LEN. -/
theorem witness_IllegalLengthsSetOnlyCfgerr :
    Instr.decsz ∈ configured ∧ Config.maxLen < (loaded [] 0x10000001#32).dstCap ∧
    Config.maxLen < { State.reset with srcLen := 0x10000001#32 }.srcLen := by decide

theorem witness_EveryCommandCompletes : Instr.ldblk.isCommand = true := by decide

/-- The length hypothesis of every statement about a command, at MAX_LEN. -/
theorem witness_lengthsLegal :
    lengthsLegal { State.reset with srcLen := 0x10000000#32, dstCap := 0x10000000#32 } ∧ lengthsLegal State.reset := by
  decide

/-- XorfMakesEveryWordThePrefixXor, XoriMakesEveryWordTheDifference, XorfAndXoriAreMutualInverses and
XorTransformsAreFourByteChains: a block that is not zero. -/
theorem witness_XorTransforms : lengthsLegal (withWords 1#32 2#32 0#32) ∧ (7 : WordIx) ≠ 0 := by decide

theorem witness_CompressedBlockIsFourToThirtySixBytes : compressedBlockWf oneBlock = true := by decide

theorem witness_BmiPullsOneCompressedBlock : lengthsLegal (blockLoaded 0#32) := by decide

/-- BmiConsumesExactlyOneBlock, first clause: a complete block that ends where the source does. -/
theorem witness_BmiConsumesExactlyOneBlock :
    lengthsLegal (blockLoaded 0#32) ∧ compressedBlockWf oneBlock = true ∧
    sourceHolds (blockLoaded 0#32) (blockLoaded 0#32).srcPos.toNat (compressedBlockBytes oneBlock) ∧
    (blockLoaded 0#32).srcPos.toNat + (compressedBlockBytes oneBlock).length ≤ (blockLoaded 0#32).srcLen.toNat := by
  decide

/-- BmiConsumesExactlyOneBlock, second clause: a source of one token, no complete block. -/
theorem witness_BmiConsumesExactlyOneBlock_truncated :
    lengthsLegal (loaded [0x80#8] 0#32) ∧ (loaded [0x80#8] 0#32).srcPos ≤ (loaded [0x80#8] 0#32).srcLen ∧
    ∀ rs : List GroupRecord, compressedBlockWf rs = true →
      ¬ compressedBlockBytes rs <+: inputLeft (loaded [0x80#8] 0#32) := by
  refine ⟨by decide, by decide, fun rs h hp => ?_⟩
  have hl := hp.length_le
  have h1 : (inputLeft (loaded [0x80#8] 0#32)).length = 1 := by decide
  match rs, h with
  | [a, b, c, d], _ =>
    simp [compressedBlockBytes, GroupRecord.bytes] at hl
    omega

/-- BmfEmitsTheCompressedBlock: room for exactly the six bytes. -/
theorem witness_BmfEmitsTheCompressedBlock :
    lengthsLegal (withWords 0x01000000#32 0x01000000#32 6#32) ∧
    0 + (compressedBytes (withWords 0x01000000#32 0x01000000#32 6#32).blk).length ≤ 6 := by decide

/-- BmfStopsAtTheDestinationEnd: one byte too few, no room at all, and a cursor past the capacity. -/
theorem witness_BmfStopsAtTheDestinationEnd :
    (lengthsLegal (withWords 0x01000000#32 0x01000000#32 5#32) ∧
      (withWords 0x01000000#32 0x01000000#32 5#32).dstPos ≤ 5#32 ∧
      5 < 0 + (compressedBytes (withWords 0x01000000#32 0x01000000#32 5#32).blk).length) ∧
    (lengthsLegal State.reset ∧ State.reset.dstPos ≤ State.reset.dstCap ∧
      State.reset.dstCap.toNat < State.reset.dstPos.toNat + (compressedBytes State.reset.blk).length) ∧
    { State.reset with dstPos := 1#32 }.dstCap < { State.reset with dstPos := 1#32 }.dstPos := by decide

/-- BmiInvertsBmf: BMF's six bytes are in the source of the second state. -/
theorem witness_BmiInvertsBmf :
    let s := withWords 0x01000000#32 0x01000000#32 6#32
    let u := blockLoaded 0#32
    lengthsLegal s ∧ s.dstPos.toNat + (compressedBytes s.blk).length ≤ s.dstCap.toNat ∧ lengthsLegal u ∧
    ofNext (fun t => (t.dstPos.toNat - s.dstPos.toNat, (List.range 6).map (fun x => findByte t.dst x))) (exec .bmf s)
      = some (6, (List.range 6).map (fun x => findByte u.src x)) ∧
    u.srcPos.toNat + 6 ≤ u.srcLen.toNat ∧ u.srcPos ≤ u.srcLen := by decide

theorem witness_LoadedBlocksHoldNoStaleData :
    lengthsLegal (blockLoaded 0#32) ∧ (ldblkStage .zeropad (loaded [0x21#8] 0#32)).1 = true := by decide

theorem witness_TokenBeginsItsGroup : State.reset.stream = .tokenDue 0 := by decide

theorem witness_LiteralFillsItsByte :
    { State.reset with stream := .literalDue 3 7 0x01#8 }.stream = .literalDue 3 7 0x01#8 := by decide

/-- StreamByteOutOfPlaceIsRefused, both clauses. -/
theorem witness_StreamByteOutOfPlaceIsRefused :
    State.reset.stream = .tokenDue 0 ∧
    { State.reset with stream := .literalDue 0 0 0x80#8 }.stream = .literalDue 0 0 0x80#8 := by decide

theorem witness_StreamBytesRunToTheEndAreBmi :
    lengthsLegal (blockLoaded 0#32) ∧ (blockLoaded 0#32).stream = .tokenDue 0 := by decide

/-- LdblkLoadsABlockOrReportsTheTail: 32 bytes left, 31 left, 1 left, none left. -/
theorem witness_LdblkLoadsABlockOrReportsTheTail :
    (∀ n ∈ [0, 1, 31, 32], lengthsLegal (loaded (List.replicate n 7#8) 0#32)) ∧
    0 + 32 ≤ (loaded (List.replicate 32 7#8) 0#32).srcLen.toNat ∧
    0#32 < (loaded (List.replicate 31 7#8) 0#32).srcLen ∧ (loaded (List.replicate 31 7#8) 0#32).srcLen.toNat < 0 + 32 ∧
    0#32 < (loaded [7#8] 0#32).srcLen ∧ (loaded [] 0#32).srcLen ≤ 0#32 := by decide

/-- StblkAppendsTheBlock: 32 bytes of room, 31, none, and a cursor past the capacity. -/
theorem witness_StblkAppendsTheBlock :
    lengthsLegal (loaded [] 32#32) ∧ lengthsLegal (loaded [] 31#32) ∧ lengthsLegal (loaded [] 0#32) ∧
    (loaded [] 32#32).dstPos.toNat + 32 ≤ (loaded [] 32#32).dstCap.toNat ∧
    (loaded [] 31#32).dstPos ≤ (loaded [] 31#32).dstCap ∧ (loaded [] 31#32).dstCap.toNat < 0 + 32 ∧
    (loaded [] 0#32).dstPos ≤ (loaded [] 0#32).dstCap ∧
    lengthsLegal { State.reset with dstPos := 1#32 } ∧
    { State.reset with dstPos := 1#32 }.dstCap < { State.reset with dstPos := 1#32 }.dstPos := by decide

/-- What `blockLoaded` decodes to: one block. -/
theorem decoded_blockLoaded (cap : Word) : (decoded (blockLoaded cap)).1.length = 1 := by
  have h : wholeInput (blockLoaded cap) = [0x88#8, 1#8, 1#8, 0#8, 0#8, 0#8] := rfl
  have hl : (blockLoaded cap).srcLen.toNat = 6 := rfl
  rw [decoded, h, hl]
  decide

/-- DecDecodesTheWholeSource, and DecszCountsWithoutWriting: one block and exactly its 32 bytes of room. -/
theorem witness_DecDecodesTheWholeSource :
    lengthsLegal (blockLoaded 32#32) ∧
    32 * (decoded (blockLoaded 32#32)).1.length ≤ (blockLoaded 32#32).dstCap.toNat := by
  rw [decoded_blockLoaded]; decide

/-- EncEncodesTheWholeSource, and EncszCountsWithoutWriting: one block of zeros and exactly its 4 bytes of room. -/
theorem witness_EncEncodesTheWholeSource :
    lengthsLegal (loaded (List.replicate 32 0#8) 4#32) ∧
    (encodedStream Config.tailPolicy (loaded (List.replicate 32 0#8) 4#32)).length
      ≤ (loaded (List.replicate 32 0#8) 4#32).dstCap.toNat := by decide

/-- AbortedDecStopsInTheBlockInHand: one byte too few, and no room at all. -/
theorem witness_AbortedDecStopsInTheBlockInHand :
    lengthsLegal (blockLoaded 31#32) ∧ lengthsLegal (blockLoaded 0#32) ∧
    (blockLoaded 31#32).dstCap.toNat < 32 * (decoded (blockLoaded 31#32)).1.length ∧
    (blockLoaded 0#32).dstCap.toNat < 32 * (decoded (blockLoaded 0#32)).1.length := by
  rw [decoded_blockLoaded, decoded_blockLoaded]; decide

/-- AbortedEncStopsInTheBlockInHand: one byte too few, and no room at all. -/
theorem witness_AbortedEncStopsInTheBlockInHand :
    lengthsLegal (loaded (List.replicate 32 0#8) 3#32) ∧ lengthsLegal (loaded (List.replicate 32 0#8) 0#32) ∧
    3 < (encodedStream Config.tailPolicy (loaded (List.replicate 32 0#8) 3#32)).length ∧
    0 < (encodedStream Config.tailPolicy (loaded (List.replicate 32 0#8) 0#32)).length := by decide

theorem witness_AbortLeavesACorrectPrefix :
    lengthsLegal (blockLoaded 16#32) ∧ (blockLoaded 16#32).dstCap ≤ 32#32 ∧ 32#32 ≤ Config.maxLen := by decide

/-- SizeCommandsAgreeWithTheWritingOnes: a capacity that is exactly the answer. -/
theorem witness_SizeCommandsAgreeWithTheWritingOnes :
    lengthsLegal (blockLoaded 0#32) ∧ 32#32 ≤ Config.maxLen ∧
    ofNext (fun t => t.dstPos) (exec .decsz (blockLoaded 0#32)) = some 32#32 := by decide

/-- DecodeOfEncodeIsTheInput: 32 zero bytes, and a second state that holds the four bytes ENC wrote. -/
theorem witness_DecodeOfEncodeIsTheInput :
    let s := loaded (List.replicate 32 0#8) 4#32
    let u := loaded [0#8, 0#8, 0#8, 0#8] 32#32
    lengthsLegal s ∧ s.srcLen.toNat % 32 = 0 ∧ (encodedStream Config.tailPolicy s).length ≤ s.dstCap.toNat ∧
    ofNext (fun t => (t.dstPos, t.dst)) (exec .enc s) = some (u.srcLen, u.src) ∧
    s.srcLen ≤ u.dstCap ∧ u.dstCap ≤ Config.maxLen := by decide

/-- EncodeOfDecodeIsACanonicalStream: one canonical block, and a second state that holds the 32 bytes DEC wrote. -/
theorem witness_EncodeOfDecodeIsACanonicalStream :
    let s := blockLoaded 32#32
    let u := loaded (0x01#8 :: List.replicate 31 0#8) 6#32
    lengthsLegal s ∧ (∀ rs ∈ [oneBlock], canonicalBlock rs = true) ∧
    wholeInput s = ([oneBlock].map compressedBlockBytes).flatten ∧ 32 * [oneBlock].length ≤ s.dstCap.toNat ∧
    ofNext (fun t => (t.dstPos, t.dst)) (exec .dec s) = some (u.srcLen, u.src) ∧
    s.srcLen ≤ u.dstCap ∧ u.dstCap ≤ Config.maxLen := by decide

theorem witness_WholeBufferCommandsAreStageScripts :
    lengthsLegal (loaded (List.replicate 32 0#8) 4#32) ∧ (loaded (List.replicate 32 0#8) 4#32).srcLen.toNat % 32 = 0 := by
  decide

theorem witness_OutputLengthsAreBounded : lengthsLegal (blockLoaded 0#32) := by decide

/-- The statements about any instruction that answers a next state: EngineNeverWritesItsInputs,
NothingIsWrittenBeyondTheCapacity, DestinationIsNeverRead and FlagsAreOutputsOnly. -/
theorem witness_AnyInstructionThatAnswers :
    (ofNext (fun t => t.srcPos) (exec .bmi (blockLoaded 0#32))).isSome = true ∧ Instr.bmi ∉ materialising ∧
    (blockLoaded 0#32).dstCap.toNat ≤ 0 := by decide

/-- SourceBeyondItsLengthIsNeverRead: a second memory that differs only at SRC_LEN. -/
theorem witness_SourceBeyondItsLengthIsNeverRead :
    (ofNext (fun t => t.srcPos) (exec .bmi (blockLoaded 0#32))).isSome = true ∧
    ∀ a, a < (blockLoaded 0#32).srcLen.toNat →
      findByte (storeByte (blockLoaded 0#32).src 6 0xEE#8) a = findByte (blockLoaded 0#32).src a := by decide

/-- StickyFlagsAreClearedByThreeEventsOnly: a CLR after a fault. -/
theorem witness_StickyFlagsAreClearedByThreeEventsOnly :
    let s := { acting (.writeReg 0 0x0A#32) with bounds := true }
    (stickyFlags s)[2]? = some true ∧ ofNext (fun t => (stickyFlags t)[2]?) (step s) = some (some false) := by decide

/-- EmitChecksEveryByte: a full destination, and one with one byte of room. -/
theorem witness_EmitChecksEveryByte :
    State.reset.dstCap ≤ State.reset.dstPos ∧ (loaded [] 1#32).dstPos < (loaded [] 1#32).dstCap := by decide

/-- WordCodecIsBigEndian: four bytes left and three, four bytes of room. -/
theorem witness_WordCodecIsBigEndian :
    0 + 4 ≤ (loaded [1#8, 2#8, 3#8, 4#8] 4#32).srcLen.toNat ∧ (loaded [1#8, 2#8, 3#8] 4#32).srcLen.toNat < 0 + 4 ∧
    (loaded [] 4#32).dstPos.toNat + 4 ≤ (loaded [] 4#32).dstCap.toNat := by decide

/-- StepKeepsTheEngineAtRestAndTheMemoriesCanonical, StepKeepsTheCountersBounded: a host about to issue BMF. -/
theorem witness_StepKeepsTheInvariants :
    let s := { withWords 1#32 0#32 5#32 with script := [.writeReg 0 0x07#32] }
    atRest s ∧ memoriesWf s ∧ countersBounded s ∧ (ofNext (fun t => t.dst) (step s)).isSome = true := by decide

end Sys2Proof.Tests
end

/-! PROOFS. What issuing a command leaves at its end (spec 00_scope.md R6; 10_state.md R22; 43_block_driver.md R137). -/

namespace Sys2Proof.Proofs

open Sys2Proof Sys2Proof.Machine

/-! ### The place in the stream -/

theorem emitAll_stream (vs : List Byte) (sz : Bool) (s : State) :
    (progressState (emitAll vs sz s)).stream = s.stream := by
  obtain ⟨m, p, b, h⟩ := emitAll_frame vs sz s
  rw [h]

theorem bmfStage_stream (sz : Bool) (s : State) : (progressState (bmfStage sz s)).stream = s.stream :=
  emitAll_stream (compressedBytes s.blk) sz s

theorem stblkStage_stream (sz : Bool) (s : State) : (progressState (stblkStage sz s)).stream = s.stream :=
  emitAll_stream s.blk.toList sz s

theorem bmiStage_stream (s : State) : (bmiStage s).stream = s.stream := by
  obtain ⟨b, p, n, t, h⟩ := bmiStage_frame s
  rw [h]

theorem loadBytes_stream (n : Nat) (s : State) : (loadBytes n s).stream = s.stream := by
  obtain ⟨b, p, h⟩ := loadBytes_frame n s
  rw [h]

theorem ldblkStage_stream (p : TailPolicy) (s : State) : (ldblkStage p s).2.stream = s.stream := by
  rcases ldblkStage_cases p s with ⟨-, h⟩ | ⟨-, -, -, h⟩ | ⟨-, -, -, h⟩ | ⟨-, h⟩ <;> rw [h]
  · exact loadBytes_stream 32 s
  · exact loadBytes_stream (remaining s) (setTail s)
  · rfl

/-- A sequence whose parts keep the place in the stream keeps it, aborted or not. -/
theorem andThen_stream {p : Progress} {f : State → Progress} {q : StreamPos} (hp : (progressState p).stream = q)
    (hf : ∀ t, (progressState (f t)).stream = t.stream) : (progressState (andThen p f)).stream = q := by
  cases p with
  | running t => exact (hf t).trans hp
  | aborted t => exact hp

theorem decLoop_stream (sz : Bool) (n : Nat) (s : State) : (progressState (decLoop sz n s)).stream = s.stream := by
  induction n generalizing s with
  | zero => rfl
  | succ n ih =>
    by_cases h : s.srcPos < s.srcLen
    · rw [decLoop_block sz n s h]
      refine andThen_stream ?_ ih
      exact (stblkStage_stream sz _).trans ((xorfStage_stream _).trans (bmiStage_stream s))
    · rw [decLoop_exhausted sz _ s (BitVec.not_lt.mp h), progressState_running]

theorem encLoop_stream (p : TailPolicy) (sz : Bool) (n : Nat) (s : State) :
    (progressState (encLoop p sz n s)).stream = s.stream := by
  induction n generalizing s with
  | zero => rfl
  | succ n ih =>
    cases h : (ldblkStage p s).1 with
    | true =>
      rw [encLoop_block p sz n s h]
      refine andThen_stream ?_ ih
      exact (bmfStage_stream sz _).trans ((xoriStage_stream _).trans (ldblkStage_stream p s))
    | false =>
      rw [encLoop_stop p sz n s h, progressState_running, ldblkStage_stream]

theorem decPass_stream (sz : Bool) (s : State) : (progressState (decPass sz s)).stream = s.stream :=
  decLoop_stream sz s.srcLen.toNat s

theorem encPass_stream (p : TailPolicy) (sz : Bool) (s : State) :
    (progressState (encPass p sz s)).stream = s.stream := by
  unfold encPass
  split_ifs
  · rfl
  · exact encLoop_stream p sz _ s

/-! ### The end of a command -/

/-- The command has completed in `t` (R22), at the place in the stream where it was issued in `s`. -/
def CompletedFrom (s t : State) : Prop := t.busy = false ∧ t.done = true ∧ t.stream = s.stream

theorem completedFrom_complete {s u : State} (h : u.stream = s.stream) : CompletedFrom s (complete u) :=
  ⟨rfl, rfl, h⟩

theorem runStage_completed {body : State → Progress} (hbody : ∀ t, (progressState (body t)).stream = t.stream)
    (s : State) : CompletedFrom s (runStage body s) := by
  rcases runStage_cases body s with ⟨-, h⟩ | ⟨-, h⟩ <;> rw [h]
  · exact completedFrom_complete rfl
  · exact completedFrom_complete (hbody (accept s))

/-- A stage command whose stage cannot abort. -/
theorem runStage_running_completed (f : State → State) (hf : ∀ t, (f t).stream = t.stream) (s : State) :
    CompletedFrom s (runStage (fun t => .running (f t)) s) :=
  runStage_completed (body := fun t => .running (f t)) hf s

theorem runWhole_completed {body : State → Progress} (hbody : ∀ t, (progressState (body t)).stream = t.stream)
    (s : State) : CompletedFrom s (runWhole body s) := by
  rcases runWhole_cases body s with ⟨-, h⟩ | ⟨-, h⟩ <;> rw [h]
  · exact completedFrom_complete rfl
  · exact completedFrom_complete (hbody (clearPass (accept s)))

/-- Settles O17, by the shape of each command: its body between acceptance and the shared end, or the refusal. -/
theorem everyCommandCompletes : Obligations.EveryCommandCompletes := by
  intro i s hi
  cases i with
  | nop => exact ⟨_, rfl, completedFrom_complete rfl⟩
  | clr => exact ⟨_, rfl, completedFrom_complete rfl⟩
  | dec => exact ⟨_, rfl, runWhole_completed (decPass_stream false) s⟩
  | decsz => exact ⟨_, rfl, runWhole_completed (decPass_stream true) s⟩
  | enc => exact ⟨_, rfl, runWhole_completed (encPass_stream _ false) s⟩
  | encsz => exact ⟨_, rfl, runWhole_completed (encPass_stream _ true) s⟩
  | xorf => exact ⟨_, rfl, runStage_running_completed xorfStage xorfStage_stream s⟩
  | xori => exact ⟨_, rfl, runStage_running_completed xoriStage xoriStage_stream s⟩
  | bmi => exact ⟨_, rfl, runStage_running_completed bmiStage bmiStage_stream s⟩
  | bmf => exact ⟨_, rfl, runStage_completed (bmfStage_stream false) s⟩
  | ldblk => exact ⟨_, rfl, runStage_running_completed (fun t => (ldblkStage _ t).2) (ldblkStage_stream _) s⟩
  | stblk => exact ⟨_, rfl, runStage_completed (stblkStage_stream false) s⟩
  | token t => simp [Instr.isCommand] at hi
  | literal v => simp [Instr.isCommand] at hi

end Sys2Proof.Proofs

/-! PROOFS. What the encode pass leaves when its output fits (spec 43_block_driver.md R130, R134 to R136;
42_sparse_bitmap.md R111). -/

namespace Sys2Proof.Proofs

open Sys2Proof Sys2Proof.Machine Sys2Proof.Safety

/-! ### Emitting with room -/

theorem storeBytes_append (m : Memory) (a : Nat) (vs ws : List Byte) :
    storeBytes m a (vs ++ ws) = storeBytes (storeBytes m a vs) (a + vs.length) ws := by
  induction vs generalizing m a with
  | nil => rfl
  | cons v vs ih =>
    rw [List.cons_append, storeBytes, ih, storeBytes, List.length_cons, Nat.add_assoc, Nat.add_comm 1]

/-- The destination memory after `vs` are emitted with room at offset `a`: `sz` leaves it alone (R82). -/
def emitted (sz : Bool) (m : Memory) (a : Nat) (vs : List Byte) : Memory := if sz then m else storeBytes m a vs

theorem emitted_nil (sz : Bool) (m : Memory) (a : Nat) : emitted sz m a [] = m := by cases sz <;> rfl

theorem emitted_append (sz : Bool) (m : Memory) (a : Nat) (vs ws : List Byte) :
    emitted sz m a (vs ++ ws) = emitted sz (emitted sz m a vs) (a + vs.length) ws := by
  cases sz
  · exact storeBytes_append m a vs ws
  · rfl

/-- There is room to emit `n` bytes from DST_POS on; with `sz` there always is (R82). -/
def Room (sz : Bool) (n : Nat) (s : State) : Prop := sz = true ∨ s.dstPos.toNat + n ≤ s.dstCap.toNat

/-- Moving a cursor on by a distance that does not wrap. -/
theorem toNat_add_ofNat {p : Word} {n : Nat} (h : p.toNat + n < 2 ^ 32) :
    (p + BitVec.ofNat 32 n).toNat = p.toNat + n := by
  rw [BitVec.toNat_add, BitVec.toNat_ofNat]
  omega

/-- Bytes emitted after `n` others for which there was room stand right behind them. -/
theorem emitted_dstPos_add {sz : Bool} {n : Nat} {s : State} (h : Room sz n s) (m : Memory) (vs : List Byte) :
    emitted sz m (s.dstPos + BitVec.ofNat 32 n).toNat vs = emitted sz m (s.dstPos.toNat + n) vs := by
  rcases h with rfl | h
  · rfl
  · have hcap := s.dstCap.isLt
    rw [toNat_add_ofNat (by omega)]

/-- Emitting bytes for which there is room stores them all and goes on (R82). -/
theorem emitAll_room (sz : Bool) (vs : List Byte) (s : State) (h : Room sz vs.length s) :
    emitAll vs sz s = .running { s with
      dst := emitted sz s.dst s.dstPos.toNat vs, dstPos := s.dstPos + BitVec.ofNat 32 vs.length } := by
  cases sz with
  | true => exact emitAll_sizeOnly vs s
  | false =>
    replace h : s.dstPos.toNat + vs.length ≤ s.dstCap.toNat := h.resolve_left (by decide)
    induction vs generalizing s with
    | nil => simp [emitted_nil]
    | cons v vs ih =>
      rw [List.length_cons] at h
      have hcap := s.dstCap.isLt
      have hput : emit v false s = .running (advanceDst (memWrite s s.dstPos.toNat v)) := by
        simp [emit, destFull, BitVec.le_def, show ¬ s.dstCap.toNat ≤ s.dstPos.toNat by omega]
      have hpos : (s.dstPos + 1#32).toNat = s.dstPos.toNat + 1 := toNat_add_ofNat (n := 1) (by omega)
      have hroom : (s.dstPos + 1#32).toNat + vs.length ≤ s.dstCap.toNat := by omega
      rw [emitAll_cons, hput, andThen_running, ih (advanceDst (memWrite s s.dstPos.toNat v)) hroom]
      simp only [advanceDst, memWrite, emitted, Bool.false_eq_true, if_false, storeBytes, hpos, List.length_cons,
        Nat.add_comm vs.length 1, BitVec.ofNat_add, BitVec.add_assoc]

/-! ### The source bytes left -/

theorem inputLeft_length (s : State) : (inputLeft s).length = remaining s := by simp [inputLeft]

theorem inputLeft_getD {s : State} {n : Nat} (h : n < remaining s) :
    (inputLeft s).getD n 0#8 = memRead s (s.srcPos.toNat + n) := by
  simp [inputLeft, List.getD, h]

/-- A cursor moved within the bytes left does not wrap. -/
theorem srcPos_toNat_add {s : State} {n : Nat} (h : n ≤ remaining s) :
    (s.srcPos + BitVec.ofNat 32 n).toNat = s.srcPos.toNat + n := by
  have hlen := s.srcLen.isLt
  have hpos := s.srcPos.isLt
  unfold remaining at h
  exact toNat_add_ofNat (by omega)

/-- Moving SRC_POS on by `n` of the bytes left drops those bytes from the input. -/
theorem inputLeft_drop {s t : State} {n : Nat} (hn : n ≤ remaining s) (hsrc : t.src = s.src)
    (hlen : t.srcLen = s.srcLen) (hpos : t.srcPos = s.srcPos + BitVec.ofNat 32 n) :
    inputLeft t = (inputLeft s).drop n := by
  have hp : t.srcPos.toNat = s.srcPos.toNat + n := by rw [hpos, srcPos_toNat_add hn]
  have hr : remaining t = remaining s - n := by unfold remaining; rw [hlen, hp]; omega
  apply List.ext_getElem
  · rw [List.length_drop, inputLeft_length, inputLeft_length, hr]
  · intro j h1 h2
    simp [inputLeft, memRead, hsrc, hp, Nat.add_assoc]

/-! ### Loading a block -/

/-- The block after the first `m` of its bytes are loaded, `n` of them from the source (R130). -/
def loadedBlock (n m : Nat) (s : State) : Block :=
  Vector.ofFn fun j => if j.val < m then (if j.val < n then memRead s (s.srcPos.toNat + j.val) else 0#8) else s.blk[j]

theorem loadedBlock_zero (n : Nat) (s : State) : loadedBlock n 0 s = s.blk := by
  apply Vector.ext
  intro j hj
  simp [loadedBlock]

theorem loadedBlock_set (n : Nat) (s : State) (m : ByteIx) :
    (loadedBlock n m.val s).set m (if m.val < n then memRead s (s.srcPos.toNat + m.val) else 0#8) =
      loadedBlock n (m.val + 1) s := by
  apply Vector.ext
  intro j hj
  rw [Vector.getElem_set]
  simp only [loadedBlock, Vector.getElem_ofFn]
  by_cases h : m.val = j
  · simp [h]
  · simp [h, show j < m.val + 1 ↔ j < m.val by omega]

/-- The loads of the first `m` bytes (R130). -/
theorem foldl_loadByte_take {n : Nat} {s : State} (hn : n ≤ remaining s) {m : Nat} (hm : m ≤ 32) :
    (blockOrder.take m).foldl (loadByte n) s =
      { s with blk := loadedBlock n m s, srcPos := s.srcPos + BitVec.ofNat 32 (min m n) } := by
  induction m with
  | zero => simp [loadedBlock_zero]
  | succ m ih =>
    have hlt : m < blockOrder.length := by simpa [blockOrder] using hm
    have hget : blockOrder[m] = (⟨m, hm⟩ : ByteIx) := by simp [blockOrder]
    rw [List.take_succ_eq_append_getElem hlt, List.foldl_append, ih (by omega), hget, List.foldl_cons, List.foldl_nil,
      ← loadedBlock_set n s ⟨m, hm⟩]
    by_cases h : m < n
    · have hpos := srcPos_toNat_add (s := s) (n := m) (by omega)
      simp [loadByte, h, readSrc, setByte, advanceSrc, memRead, Nat.min_eq_left h.le, hpos, BitVec.ofNat_add,
        BitVec.add_assoc]
    · simp [loadByte, h, setByte, Nat.min_eq_right (Nat.not_lt.mp h),
        Nat.min_eq_right ((Nat.not_lt.mp h).trans (Nat.le_succ m))]

/-- LDBLK's loop loads the next `n` source bytes, then zeros (R130). -/
theorem loadBytes_eq {n : Nat} {s : State} (hn : n ≤ remaining s) (h32 : n ≤ 32) :
    loadBytes n s =
      { s with blk := blockOfList ((inputLeft s).take n), srcPos := s.srcPos + BitVec.ofNat 32 n } := by
  have hall : blockOrder.take 32 = blockOrder := by simp [blockOrder]
  have hblk : loadedBlock n 32 s = blockOfList ((inputLeft s).take n) := by
    apply Vector.ext
    intro j hj
    simp only [loadedBlock, blockOfList, Vector.getElem_ofFn, hj, if_true]
    by_cases h : j < n
    · rw [if_pos h, ← inputLeft_getD (by omega : j < remaining s)]
      simp [List.getD, h]
    · rw [if_neg h]
      simp [List.getD, h]
  rw [loadBytes, ← hall, foldl_loadByte_take hn le_rfl, hblk, Nat.min_eq_right h32]

/-! ### Writing out blocks -/

/-- The stream of a list of blocks (30_encoding.md R65). -/
def streamOf (bs : List Block) : List Byte := (bs.map compressedBytes).flatten

theorem streamOf_cons (b : Block) (bs : List Block) : streamOf (b :: bs) = compressedBytes b ++ streamOf bs := rfl

/-- The state after the blocks `bs` were loaded, transformed and emitted with room, but for SRC_POS and TAIL. -/
def withBlocks (sz : Bool) (bs : List Block) (s : State) : State :=
  { s with
    blk := bs.getLast?.getD s.blk
    dstPos := s.dstPos + BitVec.ofNat 32 (streamOf bs).length
    blkCnt := s.blkCnt + BitVec.ofNat 32 bs.length
    dst := emitted sz s.dst s.dstPos.toNat (streamOf bs) }

theorem withBlocks_nil (sz : Bool) (s : State) : withBlocks sz [] s = s := by
  simp [withBlocks, streamOf, emitted_nil]

theorem withBlocks_cons {sz : Bool} {b : Block} {s : State} (bs : List Block)
    (hroom : Room sz (compressedBytes b).length s) :
    withBlocks sz bs (withBlocks sz [b] s) = withBlocks sz (b :: bs) s := by
  have hone : streamOf [b] = compressedBytes b := by simp [streamOf]
  simp only [withBlocks, hone, streamOf_cons, emitted_append, emitted_dstPos_add hroom, List.length_append,
    List.length_cons, List.length_nil, List.getLast?_cons, List.getLast?_nil, Option.getD_some, Option.getD_none,
    BitVec.ofNat_add, BitVec.add_assoc, Nat.add_comm bs.length 1, Nat.zero_add]

/-- The state after one block of `k` source bytes was loaded, transformed to `b` and emitted with room. -/
def blockWritten (sz : Bool) (b : Block) (k : Nat) (s : State) : State :=
  { withBlocks sz [b] s with srcPos := s.srcPos + BitVec.ofNat 32 k }

/-- ENC's transform and output of the block in BLK, with room for it (R134). -/
theorem bmf_xori_room {sz : Bool} {t : State} (hroom : Room sz (compressedBytes (xorInverse t.blk)).length t) :
    bmfStage sz (xoriStage t) = .running { t with
      blk := xorInverse t.blk
      dst := emitted sz t.dst t.dstPos.toNat (compressedBytes (xorInverse t.blk))
      dstPos := t.dstPos + BitVec.ofNat 32 (compressedBytes (xorInverse t.blk)).length } := by
  have hroom' : Room sz (compressedBytes (xorInverse t.blk)).length (xoriStage t) := by
    rwa [Room, xoriStage_dstPos, xoriStage_dstCap]
  rw [bmfStage, xoriStage_blk, emitAll_room sz _ _ hroom', xoriStage]

/-- One iteration of ENC's loop that loads `k` bytes and has room for the compressed block (R134). -/
theorem encLoop_loads {p : TailPolicy} {s u : State} {k : Nat} (hk : k ≤ remaining u) (h32 : k ≤ 32)
    (hload : ldblkStage p s = (true, countBlock (loadBytes k u))) (sz : Bool) (n : Nat)
    (hroom : Room sz (compressedBytes (xorInverse (blockOfList ((inputLeft u).take k)))).length u) :
    encLoop p sz (n + 1) s =
      encLoop p sz n (blockWritten sz (xorInverse (blockOfList ((inputLeft u).take k))) k u) := by
  rw [encLoop_block p sz n s (by rw [hload]), hload, loadBytes_eq hk h32, bmf_xori_room, andThen_running]
  · simp [countBlock, blockWritten, withBlocks, streamOf]
  · simpa only [Room, countBlock] using hroom

/-- How many of `r` source bytes left the loop of ENC reads (R130, R134). -/
def consumed (p : TailPolicy) (r : Nat) : Nat := if r % 32 = 0 ∨ p = .zeropad then r else r / 32 * 32

theorem consumed_add_block (p : TailPolicy) (r : Nat) : consumed p (32 + r) = 32 + consumed p r := by
  simp only [consumed, Nat.add_mod_left]
  split_ifs <;> omega

/-- The state after the loop of ENC wrote the blocks `bs` (R134): SRC_POS and TAIL as the tail policy says. -/
def afterEncoding (p : TailPolicy) (sz : Bool) (bs : List Block) (s : State) : State :=
  { withBlocks sz bs s with
    srcPos := s.srcPos + BitVec.ofNat 32 (consumed p (remaining s))
    tail := s.tail || decide (remaining s % 32 ≠ 0) }

/-- With no source byte left the loop has nothing to do. -/
theorem encLoop_nothing_left {p : TailPolicy} {s : State} (h : remaining s = 0) (sz : Bool) (n : Nat) :
    encLoop p sz (n + 1) s = .running s := by
  have hload : ldblkStage p s = (false, s) := by simp [ldblkStage, h]
  rw [encLoop_stop p sz n s (by rw [hload]), hload]

theorem remaining_blockWritten {s : State} {k : Nat} (hk : k ≤ remaining s) (sz : Bool) (b : Block) :
    remaining (blockWritten sz b k s) = remaining s - k := by
  have hpos : (blockWritten sz b k s).srcPos.toNat = s.srcPos.toNat + k := srcPos_toNat_add hk
  have hlen : (blockWritten sz b k s).srcLen = s.srcLen := rfl
  unfold remaining
  rw [hpos, hlen, Nat.sub_add_eq]

theorem inputLeft_blockWritten {s : State} {k : Nat} (hk : k ≤ remaining s) (sz : Bool) (b : Block) :
    inputLeft (blockWritten sz b k s) = (inputLeft s).drop k :=
  inputLeft_drop hk rfl rfl rfl

/-- Room for two pieces of output is room for the first, and for the second where the first has been written. -/
theorem room_split {sz : Bool} {b : Block} {bs : List Block} {s : State} (h : Room sz (streamOf (b :: bs)).length s)
    (k : Nat) : Room sz (compressedBytes b).length s ∧ Room sz (streamOf bs).length (blockWritten sz b k s) := by
  rw [streamOf_cons, List.length_append] at h
  rcases h with h | h
  · exact ⟨.inl h, .inl h⟩
  · have hcap := s.dstCap.isLt
    have hpos : (blockWritten sz b k s).dstPos.toNat = s.dstPos.toNat + (compressedBytes b).length := by
      simpa [blockWritten, withBlocks, streamOf] using
        toNat_add_ofNat (p := s.dstPos) (n := (compressedBytes b).length) (by omega)
    have hdcap : (blockWritten sz b k s).dstCap = s.dstCap := rfl
    exact ⟨.inr (by omega), .inr (by rw [hpos, hdcap]; omega)⟩

/-- Encoding a whole block and then `bs` is encoding the block and `bs`. -/
theorem afterEncoding_cons {p : TailPolicy} {sz : Bool} {b : Block} {bs : List Block} {s : State}
    (h32 : 32 ≤ remaining s) (hroom : Room sz (compressedBytes b).length s) :
    afterEncoding p sz bs (blockWritten sz b 32 s) = afterEncoding p sz (b :: bs) s := by
  obtain ⟨r, hr⟩ := Nat.exists_eq_add_of_le h32
  have hrem : remaining (blockWritten sz b 32 s) = r := by rw [remaining_blockWritten h32, hr, Nat.add_sub_cancel_left]
  have hpos : (blockWritten sz b 32 s).srcPos + BitVec.ofNat 32 (consumed p r) =
      s.srcPos + BitVec.ofNat 32 (consumed p (32 + r)) := by
    rw [consumed_add_block, BitVec.ofNat_add, ← BitVec.add_assoc]
    rfl
  have hblocks : withBlocks sz bs (blockWritten sz b 32 s) =
      { withBlocks sz (b :: bs) s with srcPos := s.srcPos + BitVec.ofNat 32 32 } := by
    rw [← withBlocks_cons bs hroom]
    rfl
  rw [afterEncoding, afterEncoding, hrem, hr, hpos, hblocks, Nat.add_mod_left]
  rfl

/-! ### The loop of ENC -/

theorem rawBlocks_whole (p : TailPolicy) (n : Nat) {input : List Byte} (h : 32 ≤ input.length) :
    rawBlocks p (n + 1) input = blockOfList (input.take 32) :: rawBlocks p n (input.drop 32) := by
  simp [rawBlocks, h]

theorem rawBlocks_zeropad (n : Nat) {input : List Byte} (h1 : 1 ≤ input.length) (hlt : input.length < 32) :
    rawBlocks .zeropad (n + 1) input = [blockOfList input] := by
  simp [rawBlocks, Nat.not_le.mpr hlt, Nat.ne_of_gt h1]

theorem rawBlocks_none {p : TailPolicy} (n : Nat) {input : List Byte} (hlt : input.length < 32)
    (h : input.length = 0 ∨ p ≠ .zeropad) : rawBlocks p (n + 1) input = [] := by
  rw [rawBlocks, if_neg (Nat.not_le.mpr hlt), if_neg (by tauto)]

/-- The loop of ENC with room for its output and enough iterations (R134). -/
theorem encLoop_room (p : TailPolicy) (sz : Bool) (n : Nat) (s : State) (hn : remaining s < 32 * n)
    (hroom : Room sz (streamOf ((rawBlocks p n (inputLeft s)).map xorInverse)).length s) :
    encLoop p sz (n + 1) s = .running (afterEncoding p sz ((rawBlocks p n (inputLeft s)).map xorInverse) s) := by
  induction n generalizing s with
  | zero => omega
  | succ n ih =>
    have hlen := inputLeft_length s
    rcases ldblkStage_cases p s with ⟨h32, hload⟩ | ⟨h1, hlt, rfl, hload⟩ | ⟨h1, hlt, hp, hload⟩ | ⟨h0, -⟩
    · rw [rawBlocks_whole p n (hlen ▸ h32), List.map_cons] at hroom ⊢
      obtain ⟨hroom1, hroom2⟩ := room_split hroom 32
      rw [encLoop_loads h32 le_rfl hload sz (n + 1) hroom1, ← afterEncoding_cons h32 hroom1]
      rw [← inputLeft_blockWritten h32 sz _] at hroom2 ⊢
      exact ih _ (by rw [remaining_blockWritten h32]; omega) hroom2
    · have hinput : (inputLeft (setTail s)).take (remaining s) = inputLeft s :=
        hlen ▸ List.take_length
      have hleft : remaining s ≤ remaining (setTail s) := le_rfl
      have hpart : remaining s % 32 ≠ 0 := by omega
      rw [rawBlocks_zeropad n (hlen ▸ h1) (hlen ▸ hlt), List.map_singleton] at hroom ⊢
      rw [encLoop_loads hleft hlt.le hload sz (n + 1) (by rw [hinput]; exact (room_split hroom 0).1), hinput,
        encLoop_nothing_left (by rw [remaining_blockWritten hleft]; exact Nat.sub_self _)]
      simp [afterEncoding, blockWritten, withBlocks, consumed, setTail, hpart]
    · have hpart : remaining s % 32 ≠ 0 := by omega
      rw [rawBlocks_none n (hlen ▸ hlt) (.inr hp), encLoop_stop p sz _ s (by rw [hload]), hload]
      simp [afterEncoding, withBlocks_nil, consumed, hp, hpart, Nat.div_eq_of_lt hlt, setTail]
    · rw [rawBlocks_none n (by omega) (.inl (hlen.trans h0)), encLoop_nothing_left h0]
      simp [afterEncoding, withBlocks_nil, consumed, h0]

/-! ### The encode pass -/

/-- The blocks of the whole input are those of the input left where SRC_POS is 0. -/
theorem inputLeft_start {s : State} (h : s.srcPos = 0#32) : inputLeft s = wholeInput s := by
  simp [inputLeft, wholeInput, remaining, h]

theorem remaining_start {s : State} (h : s.srcPos = 0#32) : remaining s = s.srcLen.toNat := by simp [remaining, h]

/-- The state ENC or ENCSZ ends in, once its output fits (R134, R135), before it completes. -/
def encodeResult (p : TailPolicy) (sz : Bool) (s : State) : State :=
  { withBlocks sz (encodedBlocks p s) s with
    srcPos := BitVec.ofNat 32 (encodedSrcPos p s)
    tail := s.tail || decide (s.srcLen.toNat % 32 ≠ 0) }

/-- The encode pass with room for the stream, from zeroed cursors (R134). -/
theorem encPass_room (p : TailPolicy) (sz : Bool) (s : State) (hpos : s.srcPos = 0#32)
    (hroom : Room sz (encodedStream p s).length s) : encPass p sz s = .running (encodeResult p sz s) := by
  by_cases hrej : s.srcLen.toNat % 32 ≠ 0 ∧ p = .reject
  · obtain ⟨hpart, rfl⟩ := hrej
    have hstop : encPass .reject sz s = .running (setTail s) := by simp [encPass, lengthPartial, hpart]
    rw [hstop]
    simp [encodeResult, encodedBlocks, encodedSrcPos, withBlocks_nil, hpart, setTail, hpos]
  · have hloop : encPass p sz s = encLoop p sz (s.srcLen.toNat / 32 + 1 + 1) s := by
      have hgo : (lengthPartial s && p == .reject) = false := by simpa [lengthPartial] using hrej
      rw [encPass, hgo, if_neg Bool.false_ne_true]
    have hblocks : encodedBlocks p s = (rawBlocks p (s.srcLen.toNat / 32 + 1) (inputLeft s)).map xorInverse := by
      rw [encodedBlocks, if_neg hrej, inputLeft_start hpos]
    have hcur : encodedSrcPos p s = consumed p s.srcLen.toNat := by
      unfold encodedSrcPos consumed
      split_ifs <;> tauto
    rw [encodedStream, hblocks] at hroom
    rw [hloop, encLoop_room p sz _ s (by rw [remaining_start hpos]; omega) hroom, encodeResult, hblocks, hcur,
      afterEncoding, remaining_start hpos, hpos, BitVec.zero_add]

/-- What ENC emits is settled by the source memory and SRC_LEN, which the start of the command leaves alone (R136). -/
theorem encodedBlocks_start (p : TailPolicy) (s : State) :
    encodedBlocks p (clearPass (accept s)) = encodedBlocks p s := by
  have hinput : wholeInput (clearPass (accept s)) = wholeInput s := rfl
  simp only [encodedBlocks, hinput, clearPass_srcLen, accept_srcLen]

theorem encodedStream_eq (p : TailPolicy) (s : State) : encodedStream p s = streamOf (encodedBlocks p s) := rfl

theorem encodedStream_start (p : TailPolicy) (s : State) :
    encodedStream p (clearPass (accept s)) = encodedStream p s := by
  rw [encodedStream_eq, encodedStream_eq, encodedBlocks_start]

/-- What issuing ENC, or ENCSZ with `sz`, does once its output fits (R134 to R136, R154). -/
theorem runWhole_encPass_room (p : TailPolicy) (sz : Bool) (s : State) (hlegal : lengthsLegal s)
    (hroom : sz = true ∨ (encodedStream p s).length ≤ s.dstCap.toNat) :
    runWhole (encPass p sz) s = { s with
      blk := (encodedBlocks p s).getLast?.getD s.blk
      srcPos := BitVec.ofNat 32 (encodedSrcPos p s)
      dstPos := BitVec.ofNat 32 (encodedStream p s).length
      blkCnt := BitVec.ofNat 32 (encodedBlocks p s).length
      trunc := false, tail := decide (s.srcLen.toNat % 32 ≠ 0), bounds := false, cmderr := false, cfgerr := false
      dst := emitted sz s.dst 0 (encodedStream p s), busy := false, done := true } := by
  have hlegal' : lengthsIllegal s = false := (lengthsIllegal_eq_false_iff s).mpr hlegal
  have hroom' : Room sz (encodedStream p (clearPass (accept s))).length (clearPass (accept s)) := by
    simpa [Room, encodedStream_start] using hroom
  have htail : decide ((clearPass (accept s)).srcLen.toNat % 32 ≠ 0) = decide (s.srcLen.toNat % 32 ≠ 0) := rfl
  have hcur : encodedSrcPos p (clearPass (accept s)) = encodedSrcPos p s := rfl
  rw [runWhole, hlegal', if_neg Bool.false_ne_true, encPass_room p sz _ rfl hroom', progressState_running, encodeResult,
    encodedBlocks_start, hcur, htail, encodedStream_eq]
  simp [withBlocks, complete, clearPass, accept]

/-- Settles O38: the pass with room writes the stream at offset 0, as `byteAt_storeBytes` reads it back. -/
theorem encEncodesTheWholeSource : Obligations.EncEncodesTheWholeSource := by
  refine ⟨rfl, fun s hlegal hroom => ⟨storeBytes s.dst 0 (encodedStream Config.tailPolicy s), ?_, ?_⟩⟩
  · exact congrArg Host.Outcome.next (runWhole_encPass_room Config.tailPolicy false s hlegal (.inr hroom))
  · exact byteAt_storeBytes .destination s.dst 0 _

end Sys2Proof.Proofs

/-! PROOFS. What a command is made of, and what a step of an idle engine can do, each said once (spec 44_system.md R152
to R154; 43_block_driver.md R132 to R137; 10_state.md R29, R33). -/

namespace Sys2Proof.Proofs

open Sys2Proof Sys2Proof.Machine Sys2Proof.Safety

/-! ### A command between its acceptance and its end -/

/-- The state in which a command's pseudocode begins: CLR and the whole-buffer commands zero the cursors, BLKCNT and the
sticky flags first (R136, R151). -/
def started (i : Instr) (s : State) : State :=
  if i = .clr ∨ i ∈ wholeBuffer then clearPass (accept s) else accept s

/-- The pseudocode of a command; NOP and CLR have none. A stream byte is no command and has none here. -/
def body (i : Instr) (s : State) : Progress :=
  match i with
  | .dec => decPass false s
  | .decsz => decPass true s
  | .enc => encPass Config.tailPolicy false s
  | .encsz => encPass Config.tailPolicy true s
  | .xorf => .running (xorfStage s)
  | .xori => .running (xoriStage s)
  | .bmi => .running (bmiStage s)
  | .bmf => bmfStage false s
  | .ldblk => .running (ldblkStage Config.tailPolicy s).2
  | .stblk => stblkStage false s
  | .nop | .clr | .token _ | .literal _ => .running s

/-- The ways the command `i` issued in `s` ends (R154): refused for its configuration, its pseudocode run, or, for NOP
and CLR, which make no CFGERR test, nothing run at all. -/
inductive CommandEnd (i : Instr) (s : State) : State → Prop
  | refused : i ∈ configured → lengthsIllegal s = true → CommandEnd i s (complete (refuseConfig (accept s)))
  | ran : lengthsIllegal s = false → CommandEnd i s (complete (progressState (body i (started i s))))
  | bare : i = .nop ∨ i = .clr → CommandEnd i s (complete (started i s))

theorem runStage_commandEnd {i : Instr} (hi : i ∈ configured) {s : State} (hstart : started i s = accept s) :
    CommandEnd i s (runStage (body i) s) := by
  rcases runStage_cases (body i) s with ⟨hl, h⟩ | ⟨hl, h⟩ <;> rw [h]
  · exact .refused hi hl
  · exact hstart ▸ .ran hl

theorem runWhole_commandEnd {i : Instr} (hi : i ∈ configured) {s : State} (hstart : started i s = clearPass (accept s)) :
    CommandEnd i s (runWhole (body i) s) := by
  rcases runWhole_cases (body i) s with ⟨hl, h⟩ | ⟨hl, h⟩ <;> rw [h]
  · exact .refused hi hl
  · exact hstart ▸ .ran hl

/-- Every command answers a next state, in one of those ways. -/
theorem exec_commandEnd {i : Instr} (hi : i.isCommand = true) (s : State) :
    ∃ t, exec i s = .next t ∧ CommandEnd i s t := by
  cases i with
  | nop => exact ⟨_, rfl, .bare (.inl rfl)⟩
  | clr => exact ⟨_, rfl, .bare (.inr rfl)⟩
  | dec => exact ⟨_, rfl, runWhole_commandEnd (by decide) rfl⟩
  | decsz => exact ⟨_, rfl, runWhole_commandEnd (by decide) rfl⟩
  | enc => exact ⟨_, rfl, runWhole_commandEnd (by decide) rfl⟩
  | encsz => exact ⟨_, rfl, runWhole_commandEnd (by decide) rfl⟩
  | xorf => exact ⟨_, rfl, runStage_commandEnd (by decide) rfl⟩
  | xori => exact ⟨_, rfl, runStage_commandEnd (by decide) rfl⟩
  | bmi => exact ⟨_, rfl, runStage_commandEnd (by decide) rfl⟩
  | bmf => exact ⟨_, rfl, runStage_commandEnd (by decide) rfl⟩
  | ldblk => exact ⟨_, rfl, runStage_commandEnd (by decide) rfl⟩
  | stblk => exact ⟨_, rfl, runStage_commandEnd (by decide) rfl⟩
  | token t => simp [Instr.isCommand] at hi
  | literal v => simp [Instr.isCommand] at hi

theorem commandEnd_of_exec {i : Instr} (hi : i.isCommand = true) {s t : State} (h : exec i s = .next t) :
    CommandEnd i s t := by
  obtain ⟨u, hu, hend⟩ := exec_commandEnd hi s
  cases hu.symm.trans h
  exact hend

/-- The start of a command is its acceptance, with or without the zeroing. -/
theorem started_cases (i : Instr) (s : State) :
    ((i = .clr ∨ i ∈ wholeBuffer) ∧ started i s = clearPass (accept s)) ∨
    (¬ (i = .clr ∨ i ∈ wholeBuffer) ∧ started i s = accept s) := by
  unfold started
  split_ifs with h <;> simp [h]

/-! ### Decoding a command word -/

theorem commandOfOp_isCommand : ∀ op : BitVec 4, ∀ i ∈ commandOfOp op, i.isCommand = true := by decide

theorem sizeOnlyOf_isCommand {i j : Instr} (h : sizeOnlyOf i = some j) : j.isCommand = true := by
  cases i <;> simp [sizeOnlyOf] at h <;> subst h <;> rfl

/-- A command word never decodes to a stream byte (R60). -/
theorem decodeCommand_isCommand {w : Word} {i : Instr} (h : decodeCommand w = .ok i) : i.isCommand = true := by
  unfold decodeCommand at h
  split at h
  · simp at h
  · split at h
    · simp at h
    · next j hop =>
      split at h
      · split at h
        · next k hso =>
          cases h
          exact sizeOnlyOf_isCommand hso
        · simp at h
      · cases h
        exact commandOfOp_isCommand _ _ hop

/-! ### A step of an idle engine -/

/-- A step of an engine that is not busy is the host's turn. -/
theorem step_idle {s : State} (hb : s.busy = false) : step s = hostTurn s := by simp [step, hb]

theorem step_action {s : State} {a : HostAction} {rest : List HostAction} (hb : s.busy = false)
    (hs : s.script = a :: rest) : step s = hostAct a { s with script := rest } := by
  rw [step_idle hb, hostTurn, hs]

theorem hostAct_command (w : Word) (s : State) : hostAct (.writeReg 0 w) s = issue w s := rfl

theorem hostAct_writeReg {n : Nat} (hn : n ≠ 0) (v : Word) (s : State) :
    hostAct (.writeReg n v) s = .next (writeRegister n v s) := by simp [hostAct, hn]

theorem issue_ok {w : Word} {i : Instr} (h : decodeCommand w = .ok i) (s : State) : issue w s = exec i s := by
  simp [issue, decode, h]

theorem wordReg_word (i : WordIx) : wordReg (8 + i.val) = some i := by
  simp [wordReg, show 8 + i.val < 16 by omega]

theorem wordReg_none {n : Nat} (h : n < 8 ∨ 16 ≤ n) : wordReg n = none := by
  simp only [wordReg, dite_eq_right_iff, reduceCtorEq, imp_false]
  omega

theorem writeRegister_srcLen (v : Word) (s : State) : writeRegister 2 v s = { s with srcLen := v } := rfl

theorem writeRegister_dstCap (v : Word) (s : State) : writeRegister 3 v s = { s with dstCap := v } := rfl

theorem writeRegister_word (i : WordIx) (v : Word) (s : State) :
    writeRegister (8 + i.val) v s = { s with blk := setWord s.blk i v } := by
  unfold writeRegister
  split
  · omega
  · omega
  · rw [wordReg_word]

/-- STATUS, the cursors, BLKCNT and the reserved numbers ignore a write (R29). -/
theorem writeRegister_ignored {n : Nat} (h : n ≤ 1 ∨ (4 ≤ n ∧ n ≤ 7) ∨ 16 ≤ n) (v : Word) (s : State) :
    writeRegister n v s = s := by
  unfold writeRegister
  split
  · omega
  · omega
  · rw [wordReg_none (by omega)]

/-- A register write outside CTRL writes nothing but BLK and the two lengths (R153). -/
theorem writeRegister_frame (n : Nat) (v : Word) (s : State) :
    ∃ b l c, writeRegister n v s = { s with blk := b, srcLen := l, dstCap := c } := by
  unfold writeRegister
  split
  · exact ⟨s.blk, v, s.dstCap, rfl⟩
  · exact ⟨s.blk, s.srcLen, v, rfl⟩
  · split
    · exact ⟨_, s.srcLen, s.dstCap, rfl⟩
    · exact ⟨s.blk, s.srcLen, s.dstCap, rfl⟩

/-- What a step of an idle engine in `s` can answer. Every host access that is no write to CTRL and no reset is an
`access`: it can change BLK, the two lengths, the source memory and what was seen. -/
inductive IdleStep (s : State) : State → Prop
  | nothing : s.script = [] → IdleStep s s
  | reset (rest : List HostAction) : s.script = .hardReset :: rest → IdleStep s (hardReset { s with script := rest })
  | command (rest : List HostAction) (w : Word) (i : Instr) (t : State) : s.script = .writeReg 0 w :: rest →
      decodeCommand w = .ok i → exec i { s with script := rest } = .next t → IdleStep s t
  | illegal (rest : List HostAction) : IdleStep s (complete (refuseCommand (accept { s with script := rest })))
  | access (rest : List HostAction) (b : Block) (l c : Word) (m : Memory) (e : List HostSeen) :
      (Memory.wf s.src = true → Memory.wf m = true) →
      IdleStep s { s with blk := b, srcLen := l, dstCap := c, src := m, script := rest, seen := e }

theorem issue_idleStep {s t : State} {w : Word} {rest : List HostAction} (hs : s.script = .writeReg 0 w :: rest)
    (h : issue w { s with script := rest } = .next t) : IdleStep s t := by
  rcases issue_cases w { s with script := rest } with ⟨i, hdec, hi⟩ | ⟨e, -, hi⟩
  · exact .command rest w i t hs hdec (hi.symm.trans h)
  · cases hi.symm.trans h
    exact .illegal rest

theorem storeSource_idleStep {s t : State} {o : Nat} {bs : List Byte} {rest : List HostAction}
    (h : hostAct (.storeSource o bs) { s with script := rest } = .next t) : IdleStep s t := by
  unfold hostAct at h
  split_ifs at h with hwf
  cases h
  have hend : o + bs.length ≤ Config.offsetSpace := by simpa [HostAction.wf] using hwf
  exact .access rest s.blk s.srcLen s.dstCap _ s.seen fun hsrc => storeBytes_wf hsrc bs hend

theorem readDest_idleStep {s t : State} {n : Nat} {rest : List HostAction}
    (h : hostAct (.readDest n) { s with script := rest } = .next t) : IdleStep s t := by
  unfold hostAct at h
  split_ifs at h
  cases h
  exact .access rest s.blk s.srcLen s.dstCap s.src _ id

theorem writeReg_idleStep {s t : State} {n : Nat} {v : Word} {rest : List HostAction}
    (hs : s.script = .writeReg n v :: rest) (h : hostAct (.writeReg n v) { s with script := rest } = .next t) :
    IdleStep s t := by
  by_cases hn : n = 0
  · subst hn
    exact issue_idleStep hs h
  · cases (hostAct_writeReg hn v _).symm.trans h
    obtain ⟨b, l, c, hw⟩ := writeRegister_frame n v { s with script := rest }
    rw [hw]
    exact .access rest b l c s.src s.seen id

theorem idleStep_of_step {s t : State} (hb : s.busy = false) (h : step s = .next t) : IdleStep s t := by
  cases hs : s.script with
  | nil =>
    rw [step_idle hb, hostTurn, hs] at h
    cases h
    exact .nothing hs
  | cons a rest =>
    rw [step_action hb hs] at h
    cases a with
    | storeSource o bs => exact storeSource_idleStep h
    | writeReg n v => exact writeReg_idleStep hs h
    | readReg n =>
      cases h
      exact .access rest s.blk s.srcLen s.dstCap s.src _ id
    | readDest n => exact readDest_idleStep h
    | hardReset =>
      cases h
      exact .reset rest hs

end Sys2Proof.Proofs

/-! PROOFS. A property that every small operation of a command keeps is kept by every instruction (spec 40_cursor_word.md
R80 to R83; 42_sparse_bitmap.md R110, R115; 43_block_driver.md R130 to R137). -/

namespace Sys2Proof.Proofs

open Sys2Proof Sys2Proof.Machine Sys2Proof.Safety

/-! ### Loops -/

/-- What each block of DEC keeps, its output aborted or not, its loop keeps (R132). -/
theorem decLoop_induct (P : State → Prop) (sz : Bool)
    (hblock : ∀ s, s.srcPos < s.srcLen → P s → P (progressState (stblkStage sz (xorfStage (bmiStage s)))))
    (n : Nat) (s : State) (hs : P s) : P (progressState (decLoop sz n s)) := by
  induction n generalizing s with
  | zero => exact hs
  | succ n ih =>
    by_cases h : s.srcPos < s.srcLen
    · have hnext := hblock s h hs
      rw [decLoop_block sz n s h]
      cases hp : stblkStage sz (xorfStage (bmiStage s)) with
      | running t => exact ih t (by simpa [hp] using hnext)
      | aborted t => simpa [hp] using hnext
    · rw [decLoop_exhausted sz _ s (BitVec.not_lt.mp h)]
      exact hs

/-- What each block of ENC, its output aborted or not, and the load that ends the loop keep, its loop keeps (R134). -/
theorem encLoop_induct (P : State → Prop) (p : TailPolicy) (sz : Bool)
    (hstop : ∀ s, (ldblkStage p s).1 = false → P s → P (ldblkStage p s).2)
    (hblock : ∀ s, (ldblkStage p s).1 = true → P s → P (progressState (bmfStage sz (xoriStage (ldblkStage p s).2))))
    (n : Nat) (s : State) (hs : P s) : P (progressState (encLoop p sz n s)) := by
  induction n generalizing s with
  | zero => exact hs
  | succ n ih =>
    cases hl : (ldblkStage p s).1 with
    | false =>
      rw [encLoop_stop p sz n s hl]
      exact hstop s hl hs
    | true =>
      have hnext := hblock s hl hs
      rw [encLoop_block p sz n s hl]
      cases hp : bmfStage sz (xoriStage (ldblkStage p s).2) with
      | running t => exact ih t (by simpa [hp] using hnext)
      | aborted t => simpa [hp] using hnext

/-- What REJECT's test and the loop of ENC keep, its pass keeps (R134). -/
theorem encPass_induct (P : State → Prop) (p : TailPolicy) (sz : Bool) (htail : ∀ s, P s → P (setTail s))
    (hloop : ∀ n s, P s → P (progressState (encLoop p sz n s))) (s : State) (hs : P s) :
    P (progressState (encPass p sz s)) := by
  unfold encPass
  split_ifs
  · exact htail s hs
  · exact hloop _ s hs

/-! ### Properties kept by the parts of a command -/

/-- `P` is kept by everything a command does to the state between its acceptance and its end, and by the end itself. The
zeroing with which some commands start, and the two refusals, are left out. -/
structure KeptByParts (P : State → Prop) : Prop where
  blk : ∀ s b, P s → P { s with blk := b }
  src : ∀ s, P s → P (advanceSrc s)
  dst : ∀ s, P s → P (advanceDst s)
  put : ∀ s v, s.dstPos < s.dstCap → P s → P (memWrite s s.dstPos.toNat v)
  count : ∀ s, P s → P (countBlock s)
  trunc : ∀ s, P s → P (setTrunc s)
  tail : ∀ s, P s → P (setTail s)
  bounds : ∀ s, P s → P { s with bounds := true }
  place : ∀ s q, P s → P { s with stream := q }
  life : ∀ s b d, P s → P { s with busy := b, done := d }

section
variable {P : State → Prop} (h : KeptByParts P)
include h

theorem KeptByParts.accept_kept {s : State} (hs : P s) : P (accept s) := h.life s true false hs

theorem KeptByParts.complete_kept {s : State} (hs : P s) : P (complete s) := h.life s false true hs

theorem KeptByParts.setByte_kept (j : ByteIx) (v : Byte) {s : State} (hs : P s) : P (setByte s j v) := h.blk s _ hs

theorem KeptByParts.emitAll_kept (vs : List Byte) (sz : Bool) {s : State} (hs : P s) :
    P (progressState (emitAll vs sz s)) :=
  emitAll_induct P sz (fun t _ => h.dst t) (fun t v _ hroom ht => h.dst _ (h.put t v hroom ht))
    (fun t _ _ => h.bounds t) vs s hs

theorem KeptByParts.bmiStage_kept {s : State} (hs : P s) : P (bmiStage s) := by
  refine bmiGroups_induct (fun c => P c.2) (fun t _ j ht => h.setByte_kept j _ ht) (fun t _ ht => h.trunc t ht)
    (fun t _ ht => h.src t ht) (fun t j _ ht => h.setByte_kept j _ (h.src t ht)) groups _ ?_
  cases exhausted s
  · exact h.count s hs
  · exact hs

theorem KeptByParts.loadBytes_kept (n : Nat) {s : State} (hs : P s) : P (loadBytes n s) := by
  have hbyte : ∀ t j, P t → P (loadByte n t j) := by
    intro t j ht
    unfold loadByte
    split_ifs
    · exact h.setByte_kept j _ (h.src t ht)
    · exact h.setByte_kept j _ ht
  exact List.foldlRecOn blockOrder (loadByte n) hs fun t ht j _ => hbyte t j ht

theorem KeptByParts.ldblkStage_kept (p : TailPolicy) {s : State} (hs : P s) : P (ldblkStage p s).2 := by
  rcases ldblkStage_cases p s with ⟨-, hl⟩ | ⟨-, -, -, hl⟩ | ⟨-, -, -, hl⟩ | ⟨-, hl⟩ <;> rw [hl]
  · exact h.count _ (h.loadBytes_kept 32 hs)
  · exact h.count _ (h.loadBytes_kept _ (h.tail s hs))
  · exact h.tail s hs
  · exact hs

theorem KeptByParts.decPass_kept (sz : Bool) {s : State} (hs : P s) : P (progressState (decPass sz s)) :=
  decLoop_induct P sz (fun _ _ ht => h.emitAll_kept _ sz (h.blk _ _ (h.bmiStage_kept ht))) _ s hs

theorem KeptByParts.encPass_kept (p : TailPolicy) (sz : Bool) {s : State} (hs : P s) :
    P (progressState (encPass p sz s)) :=
  encPass_induct P p sz h.tail
    (encLoop_induct P p sz (fun _ _ => h.ldblkStage_kept p)
      fun _ _ ht => h.emitAll_kept _ sz (h.blk _ _ (h.ldblkStage_kept p ht))) s hs

/-- The pseudocode of every command keeps what its parts keep. -/
theorem KeptByParts.body_kept (i : Instr) {s : State} (hs : P s) : P (progressState (body i s)) := by
  cases i with
  | dec => exact h.decPass_kept false hs
  | decsz => exact h.decPass_kept true hs
  | enc => exact h.encPass_kept _ false hs
  | encsz => exact h.encPass_kept _ true hs
  | xorf => exact h.blk s _ hs
  | xori => exact h.blk s _ hs
  | bmi => exact h.bmiStage_kept hs
  | bmf => exact h.emitAll_kept _ false hs
  | ldblk => exact h.ldblkStage_kept _ hs
  | stblk => exact h.emitAll_kept _ false hs
  | nop | clr | token t | literal v => exact hs

/-! ### Stream bytes -/

theorem KeptByParts.seekLiteral_kept (g : GroupIx) (tok : Byte) (ks : List BitIx) {s : State} (hs : P s) :
    P (seekLiteral g tok ks s) := by
  obtain ⟨b, q, y, d, hseek⟩ := seekLiteral_frame g tok ks s
  rw [hseek]
  exact h.life _ y d (h.place _ q (h.blk s b hs))

theorem KeptByParts.execToken_kept {t : Byte} {s u : State} (hu : execToken t s = .next u) (hs : P s) : P u := by
  unfold execToken beginBlock at hu
  split at hu
  · cases hu
    split_ifs
    · exact h.seekLiteral_kept _ t _ (h.src _ (h.count s hs))
    · exact h.seekLiteral_kept _ t _ (h.src s hs)
  · cases hu

theorem KeptByParts.execLiteral_kept {v : Byte} {s u : State} (hu : execLiteral v s = .next u) (hs : P s) : P u := by
  unfold execLiteral at hu
  split at hu
  · cases hu
  · cases hu
    exact h.seekLiteral_kept _ _ _ (h.setByte_kept _ v (h.src s hs))

theorem KeptByParts.zeroBytes_kept (g : GroupIx) (ks : List BitIx) {s : State} (hs : P s) : P (zeroBytes g ks s) := by
  obtain ⟨b, hz⟩ := zeroBytes_frame g ks s
  rw [hz]
  exact h.blk s b hs

theorem KeptByParts.zeroRest_kept (pos : StreamPos) {s : State} (hs : P s) : P (zeroRest pos s) := by
  have hgroups : ∀ (gs : List GroupIx) (t : State), P t → P (gs.foldl (fun t g => zeroBytes g groupOrder t) t) :=
    fun gs t ht => List.foldlRecOn gs _ ht fun u hu g _ => h.zeroBytes_kept g groupOrder hu
  cases pos with
  | tokenDue g => exact hgroups _ s hs
  | literalDue g k tok => exact hgroups _ _ (h.zeroBytes_kept g _ hs)

theorem KeptByParts.truncateBlock_kept {s : State} (hs : P s) : P (truncateBlock s) :=
  h.complete_kept (h.place _ _ (h.zeroRest_kept s.stream (h.trunc s hs)))

/-- The engine's turn inside a block keeps what the parts of a command keep. -/
theorem KeptByParts.streamTurn_kept {s t : State} (ht : streamTurn s = .next t) (hs : P s) : P t := by
  unfold streamTurn at ht
  split_ifs at ht
  · cases ht
    exact h.truncateBlock_kept hs
  · cases hpos : s.stream with
    | tokenDue g =>
      rw [hpos] at ht
      exact h.execToken_kept ht hs
    | literalDue g k tok =>
      rw [hpos] at ht
      exact h.execLiteral_kept ht hs

/-! ### Instructions -/

/-- Every instruction keeps what the parts of a command keep, if the zeroing and the refusal for the configuration keep it
too. -/
theorem KeptByParts.exec_kept (hclear : ∀ s, P s → P (clearPass s)) (hconfig : ∀ s, P s → P (refuseConfig s))
    {i : Instr} {s t : State} (ht : exec i s = .next t) (hs : P s) : P t := by
  have hstart : P (started i s) := by
    rcases started_cases i s with ⟨-, he⟩ | ⟨-, he⟩ <;> rw [he]
    · exact hclear _ (h.accept_kept hs)
    · exact h.accept_kept hs
  have hcommand : i.isCommand = true → P t := by
    intro hi
    cases commandEnd_of_exec hi ht with
    | refused _ _ => exact h.complete_kept (hconfig _ (h.accept_kept hs))
    | ran _ => exact h.complete_kept (h.body_kept i hstart)
    | bare _ => exact h.complete_kept hstart
  cases i with
  | token b => exact h.execToken_kept ht hs
  | literal v => exact h.execLiteral_kept ht hs
  | _ => exact hcommand rfl

end

/-! ### The inputs of the engine -/

/-- The engine's inputs and the model's own records are in `t` as in `s`. -/
def SameInputs (s t : State) : Prop :=
  t.src = s.src ∧ t.srcLen = s.srcLen ∧ t.dstCap = s.dstCap ∧ t.script = s.script ∧ t.seen = s.seen

/-- No part of a command writes an input. -/
theorem sameInputs_keptByParts (s : State) : KeptByParts (SameInputs s) := by
  constructor <;> intros <;> assumption

/-- Settles O48: no part of an instruction, no zeroing and no refusal writes an input. -/
theorem engineNeverWritesItsInputs : Obligations.EngineNeverWritesItsInputs := by
  intro i s t h
  exact (sameInputs_keptByParts s).exec_kept (fun _ hu => hu) (fun _ hu => hu) h ⟨rfl, rfl, rfl, rfl, rfl⟩

end Sys2Proof.Proofs

/-! PROOFS. The sticky flags, the engine at rest, and the canonical form of the memories (spec 10_state.md R19, R22, R28;
20_memory.md R42). -/

namespace Sys2Proof.Proofs

open Sys2Proof Sys2Proof.Machine Sys2Proof.Safety

/-! ### Sticky flags -/

/-- Every sticky flag that is 1 in `s` is 1 in `t`. -/
def StickyKept (s t : State) : Prop :=
  (s.trunc = true → t.trunc = true) ∧ (s.tail = true → t.tail = true) ∧ (s.bounds = true → t.bounds = true) ∧
  (s.cmderr = true → t.cmderr = true) ∧ (s.cfgerr = true → t.cfgerr = true)

theorem StickyKept.refl (s : State) : StickyKept s s := ⟨id, id, id, id, id⟩

/-- A command sets sticky flags between its start and its end, and clears none. -/
theorem stickyKept_keptByParts (s : State) : KeptByParts (StickyKept s) where
  blk _ _ h := h
  src _ h := h
  dst _ h := h
  put _ _ _ h := h
  count _ h := h
  trunc := fun _ ⟨_, hta, hb, hm, hf⟩ => ⟨fun _ => rfl, hta, hb, hm, hf⟩
  tail := fun _ ⟨ht, _, hb, hm, hf⟩ => ⟨ht, fun _ => rfl, hb, hm, hf⟩
  bounds := fun _ ⟨ht, hta, _, hm, hf⟩ => ⟨ht, hta, fun _ => rfl, hm, hf⟩
  place _ _ h := h
  life _ _ _ h := h

theorem stickyKept_refuseConfig {s t : State} : StickyKept s t → StickyKept s (refuseConfig t) :=
  fun ⟨ht, hta, hb, hm, _⟩ => ⟨ht, hta, hb, hm, fun _ => rfl⟩

theorem stickyKept_refuseCommand {s t : State} : StickyKept s t → StickyKept s (refuseCommand t) :=
  fun ⟨ht, hta, hb, _, hf⟩ => ⟨ht, hta, hb, fun _ => rfl, hf⟩

/-- If every sticky flag is kept, none was cleared. -/
theorem not_cleared_of_stickyKept {s t : State} (h : StickyKept s t) :
    ¬ ∃ n : Nat, (stickyFlags s)[n]? = some true ∧ (stickyFlags t)[n]? = some false := by
  obtain ⟨htrunc, htail, hbounds, hcmderr, hcfgerr⟩ := h
  rintro ⟨n, hs, ht⟩
  match n with
  | 0 => exact absurd (htrunc (Option.some.inj hs)) (ne_true_of_eq_false (Option.some.inj ht))
  | 1 => exact absurd (htail (Option.some.inj hs)) (ne_true_of_eq_false (Option.some.inj ht))
  | 2 => exact absurd (hbounds (Option.some.inj hs)) (ne_true_of_eq_false (Option.some.inj ht))
  | 3 => exact absurd (hcmderr (Option.some.inj hs)) (ne_true_of_eq_false (Option.some.inj ht))
  | 4 => exact absurd (hcfgerr (Option.some.inj hs)) (ne_true_of_eq_false (Option.some.inj ht))
  | n + 5 => simp [stickyFlags] at hs

/-- A command that clears a sticky flag is CLR, or a whole-buffer command that makes the lengths' test and passes it. -/
theorem stickyKept_of_command {i : Instr} {s t : State} (hend : CommandEnd i s t) :
    StickyKept s t ∨ i = .clr ∨ (i ∈ wholeBuffer ∧ lengthsLegal s) := by
  have parts := stickyKept_keptByParts s
  have haccept : StickyKept s (accept s) := parts.accept_kept (.refl s)
  cases hend with
  | refused _ _ => exact .inl (parts.complete_kept (stickyKept_refuseConfig haccept))
  | ran hlegal =>
    rcases started_cases i s with ⟨hclear, -⟩ | ⟨-, he⟩
    · exact .inr (hclear.imp_right fun hi => ⟨hi, (lengthsIllegal_eq_false_iff s).mp hlegal⟩)
    · exact .inl (parts.complete_kept (parts.body_kept i (he ▸ haccept)))
  | bare hi =>
    rcases hi with rfl | rfl
    · exact .inl (parts.complete_kept haccept)
    · exact .inr (.inl rfl)

/-- Settles O53, by what a step can answer: all but the three events keep every sticky flag. -/
theorem stickyFlagsAreClearedByThreeEventsOnly : Obligations.StickyFlagsAreClearedByThreeEventsOnly := by
  intro s t hstep hcleared
  have hnot : ¬ StickyKept s t := fun h => not_cleared_of_stickyKept h hcleared
  rcases step_cases s with ⟨-, hturn⟩ | ⟨hb, -⟩
  · exact absurd ((stickyKept_keptByParts s).streamTurn_kept (hturn.symm.trans hstep) (.refl s)) hnot
  · refine ⟨hb, ?_⟩
    cases idleStep_of_step hb hstep with
    | nothing _ => exact absurd (.refl s) hnot
    | reset rest hs => exact ⟨rest, .inl hs⟩
    | command rest w i _ hs hdec hexec =>
      have hend := commandEnd_of_exec (decodeCommand_isCommand hdec) hexec
      exact ⟨rest, .inr ⟨w, i, hs, hdec, (stickyKept_of_command hend).resolve_left hnot⟩⟩
    | illegal rest => exact absurd (stickyKept_refuseCommand (t := accept _) (.refl s)) hnot
    | access rest b l c m e _ => exact absurd (.refl s) hnot

/-! ### The engine at rest -/

/-- Every step of an engine at rest ends at rest: a command completes where it began (R22). -/
theorem step_atRest {s t : State} (hrest : atRest s) (hstep : step s = .next t) : atRest t := by
  obtain ⟨hb, hpos⟩ := hrest
  cases idleStep_of_step hb hstep with
  | nothing _ => exact ⟨hb, hpos⟩
  | reset rest _ => exact ⟨rfl, rfl⟩
  | command rest w i _ _ hdec hexec =>
    obtain ⟨u, hu, hbusy, -, hstream⟩ := everyCommandCompletes i _ (decodeCommand_isCommand hdec)
    cases hu.symm.trans hexec
    exact ⟨hbusy, hstream.trans hpos⟩
  | illegal rest => exact ⟨rfl, hpos⟩
  | access rest b l c m e _ => exact ⟨hb, hpos⟩

/-! ### The canonical form of the memories -/

/-- A store lists no offset but its own and those listed before. -/
theorem mem_storeByte {m : Memory} {a : Nat} {v : Byte} {c : Host.Cell} (h : c ∈ storeByte m a v) :
    c = (a, v) ∨ c ∈ m := by
  induction m with
  | nil => simpa [storeByte] using h
  | cons d m ih =>
    unfold storeByte at h
    split_ifs at h
    · exact List.mem_cons.mp h
    · exact (List.mem_cons.mp h).imp_right (List.mem_cons_of_mem d)
    · rcases List.mem_cons.mp h with rfl | h
      · exact .inr List.mem_cons_self
      · exact (ih h).imp_right (List.mem_cons_of_mem d)

/-- Both memories are canonical, and the bound on writing is at most MAX_LEN (R19, R42). -/
def CanonicalBelowCap (s : State) : Prop := memoriesWf s ∧ s.dstCap ≤ Config.maxLen

/-- A byte is stored at DST_POS only below DST_CAP (R42), so a command keeps the destination canonical. -/
theorem canonicalBelowCap_keptByParts : KeptByParts CanonicalBelowCap where
  blk _ _ h := h
  src _ h := h
  dst _ h := h
  put := by
    rintro s v hroom ⟨⟨hsrc, hdst, hmax⟩, hcap⟩
    have hpos : s.dstPos.toNat < Config.maxLen.toNat := (BitVec.lt_def.mp hroom).trans_le (BitVec.le_def.mp hcap)
    refine ⟨⟨hsrc, storeByte_wf hdst s.dstPos.isLt v, fun c hc => ?_⟩, hcap⟩
    rcases mem_storeByte hc with rfl | hc
    · exact hpos
    · exact hmax c hc
  count _ h := h
  trunc _ h := h
  tail _ h := h
  bounds _ h := h
  place _ _ h := h
  life _ _ _ h := h

theorem commandEnd_memoriesWf {i : Instr} {s t : State} (hend : CommandEnd i s t) (h : memoriesWf s) :
    memoriesWf t := by
  have hstart : (started i s).src = s.src ∧ (started i s).dst = s.dst ∧ (started i s).dstCap = s.dstCap := by
    rcases started_cases i s with ⟨-, he⟩ | ⟨-, he⟩ <;> rw [he] <;> exact ⟨rfl, rfl, rfl⟩
  obtain ⟨hsrc, hdst, hcap⟩ := hstart
  have hwf : memoriesWf (started i s) := by rwa [memoriesWf, hsrc, hdst]
  cases hend with
  | refused _ _ => exact h
  | ran hlegal =>
    obtain ⟨-, hdstCap⟩ := (lengthsIllegal_eq_false_iff s).mp hlegal
    have hcanon : CanonicalBelowCap (started i s) := ⟨hwf, hcap ▸ hdstCap⟩
    exact (canonicalBelowCap_keptByParts.body_kept i hcanon).1
  | bare _ => exact hwf

/-- Settles O56, by what a step of an idle engine can answer. -/
theorem stepKeepsTheEngineAtRestAndTheMemoriesCanonical :
    Obligations.StepKeepsTheEngineAtRestAndTheMemoriesCanonical := by
  intro s t hrest hwf hstep
  refine ⟨step_atRest hrest hstep, ?_⟩
  cases idleStep_of_step hrest.1 hstep with
  | nothing _ => exact hwf
  | reset rest _ => exact hwf
  | command rest w i _ _ hdec hexec =>
    exact commandEnd_memoriesWf (commandEnd_of_exec (decodeCommand_isCommand hdec) hexec) hwf
  | illegal rest => exact hwf
  | access rest b l c m e hstore =>
    obtain ⟨hsrc, hdst, hmax⟩ := hwf
    exact ⟨hstore hsrc, hdst, hmax⟩

end Sys2Proof.Proofs

/-! PROOFS. The flags of STATUS are outputs: two runs that differ in them alone stay so (spec 10_state.md R35;
60_exceptions.md R170). -/

namespace Sys2Proof.Proofs

open Sys2Proof Sys2Proof.Machine Sys2Proof.Safety

/-! ### States that differ in the flags alone -/

/-- `u` is `s` with other flags. -/
def FlagsApart (s u : State) : Prop := ∃ f, u = withFlagsOf f s

/-- Two pieces of a command have come equally far, in states that differ in the flags alone. -/
inductive ProgressApart : Progress → Progress → Prop
  | running {s u : State} : FlagsApart s u → ProgressApart (.running s) (.running u)
  | aborted {s u : State} : FlagsApart s u → ProgressApart (.aborted s) (.aborted u)

/-- An operation on states that no flag has an effect on, but on the flags. -/
def FlagBlind (f : State → State) : Prop := ∀ ⦃s u⦄, FlagsApart s u → FlagsApart (f s) (f u)

/-- A piece of a command that no flag has an effect on, but on the flags. -/
def FlagBlindPiece (f : State → Progress) : Prop := ∀ ⦃s u⦄, FlagsApart s u → ProgressApart (f s) (f u)

theorem progressState_flagsApart {p q : Progress} (h : ProgressApart p q) :
    FlagsApart (progressState p) (progressState q) := by
  cases h with
  | running h => exact h
  | aborted h => exact h

theorem andThen_progressApart {p q : Progress} {g : State → Progress} (h : ProgressApart p q) (hg : FlagBlindPiece g) :
    ProgressApart (andThen p g) (andThen q g) := by
  cases h with
  | running h => exact hg h
  | aborted h => exact .aborted h

/-! ### What the two states share -/

section
variable {s u : State} (h : FlagsApart s u)
include h

theorem FlagsApart.blk_eq : u.blk = s.blk := by obtain ⟨f, rfl⟩ := h; rfl
theorem FlagsApart.srcLen_eq : u.srcLen = s.srcLen := by obtain ⟨f, rfl⟩ := h; rfl
theorem FlagsApart.stream_eq : u.stream = s.stream := by obtain ⟨f, rfl⟩ := h; rfl
theorem FlagsApart.exhausted_eq : exhausted u = exhausted s := by obtain ⟨f, rfl⟩ := h; rfl
theorem FlagsApart.destFull_eq : destFull u = destFull s := by obtain ⟨f, rfl⟩ := h; rfl
theorem FlagsApart.remaining_eq : remaining u = remaining s := by obtain ⟨f, rfl⟩ := h; rfl
theorem FlagsApart.lengthPartial_eq : lengthPartial u = lengthPartial s := by obtain ⟨f, rfl⟩ := h; rfl
theorem FlagsApart.lengthsIllegal_eq : lengthsIllegal u = lengthsIllegal s := by obtain ⟨f, rfl⟩ := h; rfl
theorem FlagsApart.memRead_eq : memRead u u.srcPos.toNat = memRead s s.srcPos.toNat := by obtain ⟨f, rfl⟩ := h; rfl

end

/-! ### The named operations -/

theorem accept_flagBlind : FlagBlind accept := by rintro s _ ⟨f, rfl⟩; exact ⟨accept f, rfl⟩
theorem complete_flagBlind : FlagBlind complete := by rintro s _ ⟨f, rfl⟩; exact ⟨complete f, rfl⟩
theorem clearPass_flagBlind : FlagBlind clearPass := by rintro s _ ⟨f, rfl⟩; exact ⟨clearPass f, rfl⟩
theorem refuseConfig_flagBlind : FlagBlind refuseConfig := by rintro s _ ⟨f, rfl⟩; exact ⟨refuseConfig f, rfl⟩
theorem setTrunc_flagBlind : FlagBlind setTrunc := by rintro s _ ⟨f, rfl⟩; exact ⟨setTrunc f, rfl⟩
theorem setTail_flagBlind : FlagBlind setTail := by rintro s _ ⟨f, rfl⟩; exact ⟨setTail f, rfl⟩
theorem countBlock_flagBlind : FlagBlind countBlock := by rintro s _ ⟨f, rfl⟩; exact ⟨f, rfl⟩
theorem advanceSrc_flagBlind : FlagBlind advanceSrc := by rintro s _ ⟨f, rfl⟩; exact ⟨f, rfl⟩
theorem xorfStage_flagBlind : FlagBlind xorfStage := by rintro s _ ⟨f, rfl⟩; exact ⟨f, rfl⟩
theorem xoriStage_flagBlind : FlagBlind xoriStage := by rintro s _ ⟨f, rfl⟩; exact ⟨f, rfl⟩
theorem setByte_flagBlind (j : ByteIx) (v : Byte) : FlagBlind (setByte · j v) := by
  rintro s _ ⟨f, rfl⟩; exact ⟨f, rfl⟩
theorem setPlace_flagBlind (q : StreamPos) : FlagBlind fun s => { s with stream := q } := by
  rintro s _ ⟨f, rfl⟩; exact ⟨f, rfl⟩

theorem advanceDst_flagBlind : FlagBlind advanceDst := by rintro s _ ⟨f, rfl⟩; exact ⟨f, rfl⟩
theorem putByte_flagBlind (v : Byte) : FlagBlind fun s => memWrite s s.dstPos.toNat v := by
  rintro s _ ⟨f, rfl⟩; exact ⟨f, rfl⟩
theorem setBounds_flagBlind : FlagBlind fun s => { s with bounds := true } := by
  rintro s _ ⟨f, rfl⟩; exact ⟨{ f with bounds := true }, rfl⟩

theorem emit_flagBlind (v : Byte) (sz : Bool) : FlagBlindPiece (emit v sz) := by
  intro s u h
  unfold emit
  rw [h.destFull_eq]
  split_ifs
  · exact .running (advanceDst_flagBlind h)
  · exact .aborted (setBounds_flagBlind h)
  · exact .running (advanceDst_flagBlind (putByte_flagBlind v h))

theorem emitAll_flagBlind (vs : List Byte) (sz : Bool) : FlagBlindPiece (emitAll vs sz) := by
  induction vs with
  | nil => exact fun _ _ h => .running h
  | cons v vs ih => exact fun _ _ h => andThen_progressApart (emit_flagBlind v sz h) ih

/-! ### BMI and LDBLK -/

/-- BMI's temporary `stop` is the same on both sides, and the states differ in the flags alone. -/
def StopApart (c d : Bool × State) : Prop := d.1 = c.1 ∧ FlagsApart c.2 d.2

theorem bmiToken_flagBlind {c d : Bool × State} (h : StopApart c d) :
    (bmiToken d).1 = (bmiToken c).1 ∧ StopApart (bmiToken c).2 (bmiToken d).2 := by
  obtain ⟨hstop, hst⟩ := h
  unfold bmiToken
  rw [hstop, hst.exhausted_eq]
  split_ifs
  · exact ⟨rfl, hstop, hst⟩
  · exact ⟨rfl, rfl, setTrunc_flagBlind hst⟩
  · exact ⟨hst.memRead_eq, rfl, advanceSrc_flagBlind hst⟩

theorem bmiByte_flagBlind (g : GroupIx) (tok : Byte) (k : BitIx) {c d : Bool × State} (h : StopApart c d) :
    StopApart (bmiByte g tok c k) (bmiByte g tok d k) := by
  obtain ⟨hstop, hst⟩ := h
  unfold bmiByte
  rw [hstop, hst.exhausted_eq, readSrc_eq, readSrc_eq, hst.memRead_eq]
  split_ifs
  · exact ⟨rfl, setByte_flagBlind _ _ (setTrunc_flagBlind hst)⟩
  · exact ⟨rfl, setByte_flagBlind _ _ (advanceSrc_flagBlind hst)⟩
  · exact ⟨rfl, setByte_flagBlind _ _ hst⟩

theorem bmiGroup_flagBlind (g : GroupIx) {c d : Bool × State} (h : StopApart c d) :
    StopApart (bmiGroup c g) (bmiGroup d g) := by
  obtain ⟨htok, hc⟩ := bmiToken_flagBlind h
  simp only [bmiGroup, htok]
  exact List.foldl_rel (r := StopApart) hc fun k _ _ _ => bmiByte_flagBlind g _ k

theorem bmiStage_flagBlind : FlagBlind bmiStage := by
  intro s u h
  have hstart : StopApart (false, if exhausted s then s else countBlock s)
      (false, if exhausted u then u else countBlock u) := by
    rw [h.exhausted_eq]
    split_ifs
    · exact ⟨rfl, h⟩
    · exact ⟨rfl, countBlock_flagBlind h⟩
  exact (List.foldl_rel hstart fun g _ _ _ => bmiGroup_flagBlind g).2

theorem loadBytes_flagBlind (n : Nat) : FlagBlind (loadBytes n) := by
  intro s u h
  refine List.foldl_rel (r := FlagsApart) h fun j _ t v htv => ?_
  unfold loadByte
  rw [readSrc_eq, readSrc_eq, htv.memRead_eq]
  split_ifs
  · exact setByte_flagBlind j _ (advanceSrc_flagBlind htv)
  · exact setByte_flagBlind j _ htv

theorem ldblkStage_flagBlind (p : TailPolicy) {s u : State} (h : FlagsApart s u) :
    (ldblkStage p u).1 = (ldblkStage p s).1 ∧ FlagsApart (ldblkStage p s).2 (ldblkStage p u).2 := by
  unfold ldblkStage
  rw [h.remaining_eq]
  split_ifs
  · exact ⟨rfl, countBlock_flagBlind (loadBytes_flagBlind 32 h)⟩
  · cases p with
    | zeropad => exact ⟨rfl, countBlock_flagBlind (loadBytes_flagBlind _ (setTail_flagBlind h))⟩
    | drop => exact ⟨rfl, setTail_flagBlind h⟩
    | reject => exact ⟨rfl, setTail_flagBlind h⟩
  · exact ⟨rfl, h⟩

/-! ### BMF, STBLK and the loops -/

theorem bmfStage_flagBlind (sz : Bool) : FlagBlindPiece (bmfStage sz) := by
  intro s u h
  rw [bmfStage, bmfStage, h.blk_eq]
  exact emitAll_flagBlind _ sz h

theorem stblkStage_flagBlind (sz : Bool) : FlagBlindPiece (stblkStage sz) := by
  intro s u h
  rw [stblkStage, stblkStage, h.blk_eq]
  exact emitAll_flagBlind _ sz h

theorem decLoop_flagBlind (sz : Bool) (n : Nat) : FlagBlindPiece (decLoop sz n) := by
  induction n with
  | zero => exact fun _ _ h => .running h
  | succ n ih =>
    intro s u h
    unfold decLoop
    rw [h.exhausted_eq]
    split_ifs
    · exact .running h
    · exact andThen_progressApart (stblkStage_flagBlind sz (xorfStage_flagBlind (bmiStage_flagBlind h))) ih

theorem encLoop_flagBlind (p : TailPolicy) (sz : Bool) (n : Nat) : FlagBlindPiece (encLoop p sz n) := by
  induction n with
  | zero => exact fun _ _ h => .running h
  | succ n ih =>
    intro s u h
    obtain ⟨hloaded, hload⟩ := ldblkStage_flagBlind p h
    unfold encLoop
    rw [hloaded]
    split_ifs
    · exact andThen_progressApart (bmfStage_flagBlind sz (xoriStage_flagBlind hload)) ih
    · exact .running hload

theorem decPass_flagBlind (sz : Bool) : FlagBlindPiece (decPass sz) := by
  intro s u h
  unfold decPass
  rw [h.srcLen_eq]
  exact decLoop_flagBlind sz _ h

theorem encPass_flagBlind (p : TailPolicy) (sz : Bool) : FlagBlindPiece (encPass p sz) := by
  intro s u h
  rw [encPass, encPass, h.lengthPartial_eq, h.srcLen_eq]
  split_ifs
  · exact .running (setTail_flagBlind h)
  · exact encLoop_flagBlind p sz _ h

/-! ### Commands -/

theorem runStage_flagBlind {f : State → Progress} (hf : FlagBlindPiece f) : FlagBlind (runStage f) := by
  intro s u h
  have haccept := accept_flagBlind h
  rw [runStage, runStage, h.lengthsIllegal_eq]
  split_ifs
  · exact complete_flagBlind (refuseConfig_flagBlind haccept)
  · exact complete_flagBlind (progressState_flagsApart (hf haccept))

theorem runWhole_flagBlind {f : State → Progress} (hf : FlagBlindPiece f) : FlagBlind (runWhole f) := by
  intro s u h
  have haccept := accept_flagBlind h
  rw [runWhole, runWhole, h.lengthsIllegal_eq]
  split_ifs
  · exact complete_flagBlind (refuseConfig_flagBlind haccept)
  · exact complete_flagBlind (progressState_flagsApart (hf (clearPass_flagBlind haccept)))

/-- A stage command whose stage cannot abort. -/
theorem runStage_running_flagBlind {f : State → State} (hf : FlagBlind f) :
    FlagBlind (runStage fun t => .running (f t)) := runStage_flagBlind fun _ _ h => .running (hf h)

/-! ### Stream bytes -/

theorem seekLiteral_flagBlind (g : GroupIx) (tok : Byte) (ks : List BitIx) : FlagBlind (seekLiteral g tok ks) := by
  induction ks with
  | nil =>
    intro s u h
    unfold seekLiteral endGroup
    split_ifs
    · exact complete_flagBlind (setPlace_flagBlind _ h)
    · exact setPlace_flagBlind _ h
  | cons k ks ih =>
    intro s u h
    unfold seekLiteral
    split_ifs
    · exact setPlace_flagBlind _ h
    · exact ih (setByte_flagBlind _ _ h)

theorem beginBlock_flagBlind (g : GroupIx) : FlagBlind (beginBlock g) := by
  intro s u h
  unfold beginBlock
  split_ifs
  · exact countBlock_flagBlind h
  · exact h

/-! ### Instructions -/

/-- The answer `o'` is a next state with other flags, if `o` is a next state. -/
def AnswersApart (o o' : Host.Outcome State Fault Refusal) : Prop :=
  ∀ t, o = .next t → ∃ u, o' = .next u ∧ FlagsApart t u

theorem answersApart_next {t u : State} (h : FlagsApart t u) : AnswersApart (.next t) (.next u) := by
  rintro _ ⟨⟩
  exact ⟨u, rfl, h⟩

theorem answersApart_refused (r : Refusal) (o : Host.Outcome State Fault Refusal) : AnswersApart (.refused r) o :=
  fun _ ht => Host.Outcome.noConfusion rfl rfl rfl (heq_of_eq ht)

theorem execToken_flagsApart (t : Byte) {s u : State} (h : FlagsApart s u) :
    AnswersApart (execToken t s) (execToken t u) := by
  unfold execToken
  rw [h.stream_eq]
  split
  · exact answersApart_next (seekLiteral_flagBlind _ t _ (advanceSrc_flagBlind (beginBlock_flagBlind _ h)))
  · exact answersApart_refused _ _

theorem execLiteral_flagsApart (v : Byte) {s u : State} (h : FlagsApart s u) :
    AnswersApart (execLiteral v s) (execLiteral v u) := by
  unfold execLiteral
  rw [h.stream_eq]
  split
  · exact answersApart_refused _ _
  · exact answersApart_next (seekLiteral_flagBlind _ _ _ (setByte_flagBlind _ v (advanceSrc_flagBlind h)))

/-- No flag has an effect on what an instruction answers, but on the flags. -/
theorem exec_flagsApart (i : Instr) {s u : State} (h : FlagsApart s u) : AnswersApart (exec i s) (exec i u) := by
  cases i with
  | nop => exact answersApart_next (complete_flagBlind (accept_flagBlind h))
  | clr => exact answersApart_next (complete_flagBlind (clearPass_flagBlind (accept_flagBlind h)))
  | dec => exact answersApart_next (runWhole_flagBlind (decPass_flagBlind false) h)
  | decsz => exact answersApart_next (runWhole_flagBlind (decPass_flagBlind true) h)
  | enc => exact answersApart_next (runWhole_flagBlind (encPass_flagBlind _ false) h)
  | encsz => exact answersApart_next (runWhole_flagBlind (encPass_flagBlind _ true) h)
  | xorf => exact answersApart_next (runStage_running_flagBlind xorfStage_flagBlind h)
  | xori => exact answersApart_next (runStage_running_flagBlind xoriStage_flagBlind h)
  | bmi => exact answersApart_next (runStage_running_flagBlind bmiStage_flagBlind h)
  | bmf => exact answersApart_next (runStage_flagBlind (bmfStage_flagBlind false) h)
  | ldblk => exact answersApart_next (runStage_running_flagBlind (fun _ _ ht => (ldblkStage_flagBlind _ ht).2) h)
  | stblk => exact answersApart_next (runStage_flagBlind (stblkStage_flagBlind false) h)
  | token t => exact execToken_flagsApart t h
  | literal v => exact execLiteral_flagsApart v h

/-- Settles O52, by two runs side by side: every operation leads states that differ in the flags alone to such states. -/
theorem flagsAreOutputsOnly : Obligations.FlagsAreOutputsOnly := by
  intro i s t f ht
  obtain ⟨u, hu, f', rfl⟩ := exec_flagsApart i ⟨f, rfl⟩ t ht
  exact ⟨_, hu, rfl⟩

end Sys2Proof.Proofs

/-! PROOFS. The counters stay far from their width (spec 10_state.md R34; 42_sparse_bitmap.md R110; 43_block_driver.md
R130 to R140). -/

namespace Sys2Proof.Proofs

open Sys2Proof Sys2Proof.Machine Sys2Proof.Safety

/-! ### Reading a block -/

/-- From `s` to `t` one block was read and counted: at least one byte, none beyond the end of the source, and `n` bytes
unless the source ended. -/
structure BlockRead (n : Nat) (s t : State) : Prop where
  srcLen : t.srcLen = s.srcLen
  dstPos : t.dstPos = s.dstPos
  blkCnt : t.blkCnt = s.blkCnt + 1#32
  reads : s.srcPos.toNat < t.srcPos.toNat
  upper : t.srcPos.toNat ≤ s.srcLen.toNat
  full : s.srcPos.toNat + n ≤ t.srcPos.toNat ∨ t.srcPos.toNat = s.srcLen.toNat

/-- LDBLK reads 32 bytes, or under ZEROPAD all there are (R130). -/
theorem loadBytes_blockRead {s : State} {n : Nat} (h1 : 1 ≤ n) (h32 : n ≤ 32) (hn : n ≤ remaining s)
    (hfull : n = 32 ∨ n = remaining s) : BlockRead 32 s (countBlock (loadBytes n s)) := by
  have hpos : (countBlock (loadBytes n s)).srcPos.toNat = s.srcPos.toNat + n := by
    rw [countBlock_srcPos, loadBytes_eq hn h32, srcPos_toNat_add hn]
  have hrem : remaining s = s.srcLen.toNat - s.srcPos.toNat := rfl
  refine ⟨?_, ?_, ?_, by omega, by omega, by omega⟩
  · rw [countBlock_srcLen, loadBytes_eq hn h32]
  · rw [countBlock_dstPos, loadBytes_eq hn h32]
  · rw [countBlock_blkCnt, loadBytes_eq hn h32]

theorem ldblkStage_loaded {p : TailPolicy} {s : State} (h : (ldblkStage p s).1 = true) :
    BlockRead 32 s (ldblkStage p s).2 := by
  rcases ldblkStage_cases p s with ⟨h32, e⟩ | ⟨h1, hlt, -, e⟩ | ⟨-, -, -, e⟩ | ⟨-, e⟩ <;> rw [e] at h ⊢
  · exact loadBytes_blockRead (by omega) le_rfl h32 (.inl rfl)
  · obtain ⟨hlen, hdst, hcnt, hreads, hupper, hfull⟩ :=
      loadBytes_blockRead (s := setTail s) h1 hlt.le le_rfl (.inr rfl)
    exact ⟨hlen, hdst, hcnt, hreads, hupper, hfull⟩
  · cases h
  · cases h

theorem ldblkStage_not_loaded {p : TailPolicy} {s : State} (h : (ldblkStage p s).1 = false) :
    (ldblkStage p s).2 = setTail s ∨ (ldblkStage p s).2 = s := by
  rcases ldblkStage_cases p s with ⟨-, e⟩ | ⟨-, -, -, e⟩ | ⟨-, -, -, e⟩ | ⟨-, e⟩ <;> rw [e] at h ⊢
  · cases h
  · cases h
  · exact .inl rfl
  · exact .inr rfl

/-! ### BMI reads at least four bytes, or all there are -/

/-- Where BMI stands once it has passed `n` groups from offset `a` of a source of `len` bytes: it stopped where the
source ends, or it has read `n` bytes at least, each inside the source. -/
structure BmiAt (len a n : Nat) (c : Bool × State) : Prop where
  srcLen : c.2.srcLen.toNat = len
  stopped : c.1 = true → c.2.srcPos.toNat = len
  read : c.1 = false → a + n ≤ c.2.srcPos.toNat
  upper : c.2.srcPos.toNat ≤ len

theorem advanceSrc_toNat {s : State} (h : s.srcPos < s.srcLen) : (advanceSrc s).srcPos.toNat = s.srcPos.toNat + 1 := by
  have hlen := s.srcLen.isLt
  rw [BitVec.lt_def] at h
  exact toNat_add_ofNat (n := 1) (by omega)

section
variable {len a n : Nat}

theorem BmiAt.setByte_at {c : Bool × State} (h : BmiAt len a n c) (j : ByteIx) (v : Byte) :
    BmiAt len a n (c.1, setByte c.2 j v) := ⟨h.srcLen, h.stopped, h.read, h.upper⟩

theorem BmiAt.stop_at {c : Bool × State} (h : BmiAt len a n c) (he : c.2.srcLen ≤ c.2.srcPos) (m : Nat) :
    BmiAt len a m (true, setTrunc c.2) := by
  have hend : len ≤ c.2.srcPos.toNat := h.srcLen ▸ BitVec.le_def.mp he
  exact ⟨h.srcLen, fun _ => le_antisymm h.upper hend, nofun, h.upper⟩

theorem BmiAt.advance_at {c : Bool × State} (h : BmiAt len a n c) (hc : c.1 = false) (he : c.2.srcPos < c.2.srcLen) :
    BmiAt len a (n + 1) (false, advanceSrc c.2) := by
  have hpos := advanceSrc_toNat he
  have hread := h.read hc
  have hend : c.2.srcPos.toNat < len := h.srcLen ▸ BitVec.lt_def.mp he
  have hread' : a + (n + 1) ≤ (advanceSrc c.2).srcPos.toNat := by omega
  have hupper' : (advanceSrc c.2).srcPos.toNat ≤ len := by omega
  exact ⟨h.srcLen, nofun, fun _ => hread', hupper'⟩

theorem BmiAt.of_succ {c : Bool × State} (h : BmiAt len a (n + 1) c) : BmiAt len a n c :=
  ⟨h.srcLen, h.stopped, fun hc => Nat.le_of_succ_le (h.read hc), h.upper⟩

theorem bmiByte_at {c : Bool × State} (h : BmiAt len a n c) (g : GroupIx) (tok : Byte) (k : BitIx) :
    BmiAt len a n (bmiByte g tok c k) := by
  rcases bmiByte_cases g tok c k with ⟨-, e⟩ | ⟨-, -, he, e⟩ | ⟨hc, -, he, e⟩ <;> rw [e]
  · exact h.setByte_at _ _
  · exact (h.stop_at he n).setByte_at _ _
  · exact ((h.advance_at hc he).setByte_at _ _).of_succ

theorem bmiToken_at {c : Bool × State} (h : BmiAt len a n c) : BmiAt len a (n + 1) (bmiToken c).2 := by
  rcases bmiToken_cases c with ⟨hc, e⟩ | ⟨-, he, e⟩ | ⟨hc, he, e⟩ <;> rw [e]
  · exact ⟨h.srcLen, h.stopped, fun hgo => absurd (hc.symm.trans hgo) (by decide), h.upper⟩
  · exact h.stop_at he _
  · exact h.advance_at hc he

/-- A group reads its token, or stops. -/
theorem bmiGroup_at {c : Bool × State} (h : BmiAt len a n c) (g : GroupIx) : BmiAt len a (n + 1) (bmiGroup c g) := by
  simp only [bmiGroup]
  exact List.foldlRecOn (motive := BmiAt len a (n + 1)) groupOrder (bmiByte g (bmiToken c).1) (bmiToken_at h)
    fun _ hd k _ => bmiByte_at hd g _ k

theorem bmiGroups_at (gs : List GroupIx) {c : Bool × State} (h : BmiAt len a n c) :
    BmiAt len a (n + gs.length) (gs.foldl bmiGroup c) := by
  induction gs generalizing c n with
  | nil => exact h
  | cons g gs ih =>
    rw [List.length_cons, Nat.add_comm gs.length, ← Nat.add_assoc]
    exact ih (bmiGroup_at h g)

end

/-- The groups of BMI move neither the lengths nor BLKCNT nor DST_POS. -/
theorem bmiGroups_frame (gs : List GroupIx) (s : State) :
    (gs.foldl bmiGroup (false, s)).2.srcLen = s.srcLen ∧ (gs.foldl bmiGroup (false, s)).2.dstPos = s.dstPos ∧
    (gs.foldl bmiGroup (false, s)).2.blkCnt = s.blkCnt :=
  bmiGroups_induct (fun c => c.2.srcLen = s.srcLen ∧ c.2.dstPos = s.dstPos ∧ c.2.blkCnt = s.blkCnt)
    (fun _ _ _ h => h) (fun _ _ h => h) (fun _ _ h => h) (fun _ _ _ h => h) gs (false, s) ⟨rfl, rfl, rfl⟩

/-- With a byte left BMI counts a block and reads four bytes at least, or all there are (R110, R115). -/
theorem bmiStage_blockRead {s : State} (h : s.srcPos < s.srcLen) : BlockRead 4 s (bmiStage s) := by
  have hexh : exhausted s = false := by simpa [exhausted, BitVec.not_le] using h
  have hstage : bmiStage s = (groups.foldl bmiGroup (false, countBlock s)).2 := by simp [bmiStage, hexh]
  rw [BitVec.lt_def] at h
  have hat : BmiAt s.srcLen.toNat s.srcPos.toNat 4 (groups.foldl bmiGroup (false, countBlock s)) :=
    bmiGroups_at (n := 0) groups ⟨rfl, nofun, fun _ => le_rfl, h.le⟩
  obtain ⟨hlen, hdst, hcnt⟩ := bmiGroups_frame groups (countBlock s)
  obtain ⟨-, hstopped, hread, hupper⟩ := hat
  rw [hstage]
  cases hc : (groups.foldl bmiGroup (false, countBlock s)).1 with
  | true =>
    have hend := hstopped hc
    exact ⟨hlen, hdst, hcnt, by omega, hupper, .inr hend⟩
  | false =>
    have hfour := hread hc
    exact ⟨hlen, hdst, hcnt, by omega, hupper, .inl hfour⟩

/-- With no byte left BMI reads and counts nothing (R115). -/
theorem bmiStage_exhausted {s : State} (h : s.srcLen ≤ s.srcPos) :
    (bmiStage s).srcLen = s.srcLen ∧ (bmiStage s).blkCnt = s.blkCnt ∧ (bmiStage s).srcPos = s.srcPos := by
  have hstage : bmiStage s = (groups.foldl bmiGroup (false, s)).2 := by simp [bmiStage, exhausted, h]
  obtain ⟨hlen, -, hcnt⟩ := bmiGroups_frame groups s
  have hpos := bmiGroups_induct (fun c => c.2.srcLen ≤ c.2.srcPos ∧ c.2.srcPos = s.srcPos)
    (fun _ _ _ hc => hc) (fun _ _ hc => hc) (fun t hlt ht => absurd hlt (BitVec.not_lt.mpr ht.1))
    (fun t _ hlt ht => absurd hlt (BitVec.not_lt.mpr ht.1)) groups (false, s) ⟨h, rfl⟩
  rw [hstage]
  exact ⟨hlen, hcnt, hpos.2⟩

/-! ### SRC_POS and BLKCNT -/

/-- No block is counted without a byte read, and neither SRC_POS nor SRC_LEN is above MAX_LEN. -/
structure SourceBounded (s : State) : Prop where
  count : s.blkCnt.toNat ≤ s.srcPos.toNat
  cursor : s.srcPos.toNat ≤ 2 ^ 28
  length : s.srcLen.toNat ≤ 2 ^ 28

/-- The bounds are about three registers only. -/
theorem SourceBounded.congr {s t : State} (h : SourceBounded s) (hlen : t.srcLen = s.srcLen)
    (hcnt : t.blkCnt = s.blkCnt) (hpos : t.srcPos = s.srcPos) : SourceBounded t :=
  ⟨hcnt ▸ hpos ▸ h.count, hpos ▸ h.cursor, hlen ▸ h.length⟩

theorem SourceBounded.blockRead {n : Nat} {s t : State} (h : SourceBounded s) (hr : BlockRead n s t) :
    SourceBounded t := by
  obtain ⟨hcnt, hcur, hlen⟩ := h
  obtain ⟨hlen', -, hcnt', hreads, hupper, -⟩ := hr
  have hone : t.blkCnt.toNat = s.blkCnt.toNat + 1 := hcnt' ▸ toNat_add_ofNat (n := 1) (by omega)
  exact ⟨by omega, by omega, hlen' ▸ hlen⟩

theorem SourceBounded.emitAll_bounded {s : State} (h : SourceBounded s) (vs : List Byte) (sz : Bool) :
    SourceBounded (progressState (emitAll vs sz s)) := by
  obtain ⟨m, p, b, e⟩ := emitAll_frame vs sz s
  rw [e]
  exact h.congr rfl rfl rfl

theorem SourceBounded.bmiStage_bounded {s : State} (h : SourceBounded s) : SourceBounded (bmiStage s) := by
  by_cases he : s.srcPos < s.srcLen
  · exact h.blockRead (bmiStage_blockRead he)
  · obtain ⟨hlen, hcnt, hpos⟩ := bmiStage_exhausted (BitVec.not_lt.mp he)
    exact h.congr hlen hcnt hpos

theorem SourceBounded.ldblkStage_bounded {s : State} (h : SourceBounded s) (p : TailPolicy) :
    SourceBounded (ldblkStage p s).2 := by
  cases hl : (ldblkStage p s).1 with
  | true => exact h.blockRead (ldblkStage_loaded hl)
  | false =>
    rcases ldblkStage_not_loaded hl with e | e <;> rw [e]
    · exact h.congr rfl rfl rfl
    · exact h

theorem SourceBounded.decPass_bounded {s : State} (h : SourceBounded s) (sz : Bool) :
    SourceBounded (progressState (decPass sz s)) :=
  decLoop_induct SourceBounded sz (fun _ _ ht =>
    (ht.bmiStage_bounded.congr (xorfStage_srcLen _) (xorfStage_blkCnt _) (xorfStage_srcPos _)).emitAll_bounded _ sz) _ s h

theorem SourceBounded.encPass_bounded {s : State} (h : SourceBounded s) (p : TailPolicy) (sz : Bool) :
    SourceBounded (progressState (encPass p sz s)) :=
  encPass_induct SourceBounded p sz (fun _ ht => ht.congr rfl rfl rfl)
    (encLoop_induct SourceBounded p sz (fun _ _ ht => ht.ldblkStage_bounded p) fun _ _ ht =>
      ((ht.ldblkStage_bounded p).congr (xoriStage_srcLen _) (xoriStage_blkCnt _) (xoriStage_srcPos _)).emitAll_bounded
        _ sz) s h

/-- The pseudocode of every command keeps the cursor and the count of the source in bounds. -/
theorem SourceBounded.body_bounded {s : State} (h : SourceBounded s) (i : Instr) :
    SourceBounded (progressState (body i s)) := by
  cases i with
  | dec => exact h.decPass_bounded false
  | decsz => exact h.decPass_bounded true
  | enc => exact h.encPass_bounded _ false
  | encsz => exact h.encPass_bounded _ true
  | xorf => exact h.congr (xorfStage_srcLen s) (xorfStage_blkCnt s) (xorfStage_srcPos s)
  | xori => exact h.congr (xoriStage_srcLen s) (xoriStage_blkCnt s) (xoriStage_srcPos s)
  | bmi => exact h.bmiStage_bounded
  | bmf => exact h.emitAll_bounded _ false
  | ldblk => exact h.ldblkStage_bounded _
  | stblk => exact h.emitAll_bounded _ false
  | nop | clr | token t | literal v => exact h

/-! ### DST_POS -/

/-- The cursor moves by one for a byte, or wraps. -/
theorem toNat_advance_le (p : Word) : (p + 1#32).toNat ≤ p.toNat + 1 := by
  rw [BitVec.toNat_add]
  exact Nat.mod_le _ _

/-- Emitting moves DST_POS on by no more than the number of bytes (R82). -/
theorem emitAll_dstPos_le (vs : List Byte) (sz : Bool) (s : State) :
    (progressState (emitAll vs sz s)).dstPos.toNat ≤ s.dstPos.toNat + vs.length := by
  induction vs generalizing s with
  | nil => exact le_rfl
  | cons v vs ih =>
    have hone := toNat_advance_le s.dstPos
    rw [emitAll_cons, List.length_cons]
    rcases emit_cases v sz s with ⟨-, e⟩ | ⟨-, -, e⟩ | ⟨-, -, e⟩ <;> rw [e]
    · have hrest := ih (advanceDst s)
      simp only [advanceDst_dstPos, andThen_running] at hrest ⊢
      omega
    · simp only [andThen_aborted, progressState_aborted]
      omega
    · have hrest := ih (advanceDst (memWrite s s.dstPos.toNat v))
      simp only [advanceDst_dstPos, memWrite_dstPos, andThen_running] at hrest ⊢
      omega

/-- Emitting with the bounds check leaves DST_POS where it is, or at DST_CAP at most (R82). -/
theorem emitAll_dstPos_le_cap (vs : List Byte) (s : State) :
    (progressState (emitAll vs false s)).dstPos.toNat ≤ max s.dstPos.toNat s.dstCap.toNat := by
  refine (emitAll_induct (fun t => t.dstCap = s.dstCap ∧ t.dstPos.toNat ≤ max s.dstPos.toNat s.dstCap.toNat) false
    (fun _ hsz => absurd hsz Bool.false_ne_true) ?_ (fun _ _ _ ht => ht) vs s ⟨rfl, Nat.le_max_left _ _⟩).2
  rintro t v - hroom ⟨hcap, -⟩
  have hone := toNat_advance_le t.dstPos
  rw [BitVec.lt_def, hcap] at hroom
  refine ⟨hcap, ?_⟩
  simp only [advanceDst_dstPos, memWrite_dstPos]
  omega

/-- A group record is 9 bytes at most: its token, and no more literals than bytes (R68). -/
theorem recordOf_length_le (b : Block) (g : GroupIx) : (recordOf b g).bytes.length ≤ 9 := by
  have hle : (groupOrder.filter (isLiteral b g)).length ≤ 8 := List.length_filter_le _ _
  simpa [GroupRecord.bytes, recordOf, literalsOf] using Nat.succ_le_succ hle

/-- A compressed block is 36 bytes at most (R69). -/
theorem compressedBytes_length_le (b : Block) : (compressedBytes b).length ≤ 36 := by
  have h0 := recordOf_length_le b 0
  have h1 := recordOf_length_le b 1
  have h2 := recordOf_length_le b 2
  have h3 := recordOf_length_le b 3
  simp only [compressedBytes, compressedBlockBytes, groups, List.map_cons, List.map_nil, List.flatten_cons,
    List.flatten_nil, List.length_append, List.length_nil]
  omega

/-- The output of a whole-buffer command so far: 8 bytes at most for each byte read, and 32 more at most once the source
is exhausted, for a last block that fewer than four bytes were left for (R140). -/
structure OutputBounded (s : State) : Prop where
  cursor : s.srcPos.toNat ≤ s.srcLen.toNat
  output : s.dstPos.toNat ≤ 8 * s.srcPos.toNat ∨
    (s.srcPos.toNat = s.srcLen.toNat ∧ s.dstPos.toNat ≤ 8 * s.srcLen.toNat + 32)

theorem OutputBounded.congr {s t : State} (h : OutputBounded s) (hlen : t.srcLen = s.srcLen)
    (hsrc : t.srcPos = s.srcPos) (hdst : t.dstPos = s.dstPos) : OutputBounded t := by
  refine ⟨?_, ?_⟩ <;> rw [hlen, hsrc]
  · exact h.cursor
  · exact hdst ▸ h.output

/-- A block is read and at most 8 bytes are emitted for each byte of a full one, 36 for a last one: DEC's blocks have 4
bytes at least, ENC's have 32 (R140). -/
theorem OutputBounded.block {n : Nat} {s t u : State} (h : OutputBounded s) (hr : BlockRead n s t)
    (hlen : u.srcLen = t.srcLen) (hsrc : u.srcPos = t.srcPos) (hdst : u.dstPos = t.dstPos) {vs : List Byte}
    (hvs : vs.length ≤ 8 * n) (h36 : vs.length ≤ 36) (sz : Bool) :
    OutputBounded (progressState (emitAll vs sz u)) := by
  have hemit := emitAll_dstPos_le vs sz u
  obtain ⟨m, p, b, e⟩ := emitAll_frame vs sz u
  obtain ⟨hlen', hdst', -, hreads, hupper, hfull⟩ := hr
  obtain ⟨hcursor, houtput⟩ := h
  rw [e] at hemit ⊢
  rw [hdst, hdst'] at hemit
  refine ⟨?_, ?_⟩ <;> simp only [hlen, hlen', hsrc] at hemit ⊢ <;> omega

theorem OutputBounded.decPass_bounded {s : State} (h : OutputBounded s) (sz : Bool) :
    OutputBounded (progressState (decPass sz s)) :=
  decLoop_induct OutputBounded sz (fun _ hlt ht =>
    ht.block (bmiStage_blockRead hlt) (xorfStage_srcLen _) (xorfStage_srcPos _) (xorfStage_dstPos _)
      (by rw [Vector.length_toList]) (by rw [Vector.length_toList]; decide) sz) _ s h

theorem OutputBounded.encPass_bounded {s : State} (h : OutputBounded s) (p : TailPolicy) (sz : Bool) :
    OutputBounded (progressState (encPass p sz s)) := by
  refine encPass_induct OutputBounded p sz (fun _ ht => ht.congr rfl rfl rfl)
    (encLoop_induct OutputBounded p sz ?_ ?_) s h
  · intro t hl ht
    rcases ldblkStage_not_loaded hl with e | e <;> rw [e]
    · exact ht.congr rfl rfl rfl
    · exact ht
  · intro t hl ht
    have h36 := compressedBytes_length_le (xoriStage (ldblkStage p t).2).blk
    exact ht.block (ldblkStage_loaded hl) (xoriStage_srcLen _) (xoriStage_srcPos _) (xoriStage_dstPos _)
      (by omega) h36 sz

theorem OutputBounded.dstPos_le {s : State} (h : OutputBounded s) (hlen : s.srcLen.toNat ≤ 2 ^ 28) :
    s.dstPos.toNat ≤ 2 ^ 31 + 32 := by
  obtain ⟨hcursor, houtput⟩ := h
  omega

/-! ### Commands and steps -/

theorem ldblkStage_dstPos (p : TailPolicy) (s : State) : (ldblkStage p s).2.dstPos = s.dstPos := by
  cases hl : (ldblkStage p s).1 with
  | true => exact (ldblkStage_loaded hl).dstPos
  | false =>
    rcases ldblkStage_not_loaded hl with e | e <;> rw [e]
    rfl

theorem bmiStage_dstPos (s : State) : (bmiStage s).dstPos = s.dstPos := by
  obtain ⟨b, p, n, t, e⟩ := bmiStage_frame s
  rw [e]

/-- The pseudocode of a command leaves DST_POS where it is, at DST_CAP at most, or, in a whole-buffer command, where its
own output ends. -/
theorem body_dstPos_le (i : Instr) {s : State} (hsrc : SourceBounded s) (hout : i ∈ wholeBuffer → OutputBounded s)
    (hcap : s.dstCap.toNat ≤ 2 ^ 28) (hpos : s.dstPos.toNat ≤ 2 ^ 31 + 32) :
    (progressState (body i s)).dstPos.toNat ≤ 2 ^ 31 + 32 := by
  have hlen := (hsrc.body_bounded i).length
  have hemit : ∀ vs, (progressState (emitAll vs false s)).dstPos.toNat ≤ 2 ^ 31 + 32 := by
    intro vs
    have hle := emitAll_dstPos_le_cap vs s
    omega
  cases i with
  | dec => exact ((hout (by decide)).decPass_bounded false).dstPos_le hlen
  | decsz => exact ((hout (by decide)).decPass_bounded true).dstPos_le hlen
  | enc => exact ((hout (by decide)).encPass_bounded _ false).dstPos_le hlen
  | encsz => exact ((hout (by decide)).encPass_bounded _ true).dstPos_le hlen
  | xorf => rwa [body, progressState_running, xorfStage_dstPos]
  | xori => rwa [body, progressState_running, xoriStage_dstPos]
  | bmi =>
    rw [body, progressState_running, bmiStage_dstPos]
    exact hpos
  | bmf => exact hemit _
  | ldblk => rwa [body, progressState_running, ldblkStage_dstPos]
  | stblk => exact hemit _
  | nop | clr | token t | literal v => exact hpos

/-- A whole-buffer command starts with nothing read and nothing emitted (R136). -/
theorem outputBounded_started {i : Instr} (hi : i ∈ wholeBuffer) (s : State) : OutputBounded (started i s) := by
  rw [started, if_pos (.inr hi)]
  exact ⟨Nat.zero_le _, .inl (Nat.zero_le _)⟩

theorem started_countersBounded (i : Instr) {s : State} (h : countersBounded s) : countersBounded (started i s) := by
  rcases started_cases i s with ⟨-, e⟩ | ⟨-, e⟩ <;> rw [e]
  · exact ⟨Nat.zero_le _, Nat.zero_le _, Nat.zero_le _⟩
  · exact h

theorem started_lengths (i : Instr) (s : State) :
    (started i s).srcLen = s.srcLen ∧ (started i s).dstCap = s.dstCap := by
  rcases started_cases i s with ⟨-, e⟩ | ⟨-, e⟩ <;> rw [e] <;> exact ⟨rfl, rfl⟩

theorem commandEnd_countersBounded {i : Instr} {s t : State} (hend : CommandEnd i s t) (h : countersBounded s) :
    countersBounded t := by
  cases hend with
  | refused _ _ => exact h
  | bare _ => exact started_countersBounded i h
  | ran hlegal =>
    obtain ⟨hcnt, hcur, hpos⟩ := started_countersBounded i h
    obtain ⟨hlen, hcap⟩ := (lengthsIllegal_eq_false_iff s).mp hlegal
    obtain ⟨elen, ecap⟩ := started_lengths i s
    have hsrc : SourceBounded (started i s) := ⟨hcnt, hcur, elen ▸ BitVec.le_def.mp hlen⟩
    obtain ⟨hcnt', hcur', -⟩ := hsrc.body_bounded i
    exact ⟨hcnt', hcur', body_dstPos_le i hsrc (outputBounded_started · s) (ecap ▸ BitVec.le_def.mp hcap) hpos⟩

/-- Settles O57, by what a step of an idle engine can answer. -/
theorem stepKeepsTheCountersBounded : Obligations.StepKeepsTheCountersBounded := by
  intro s t hrest h hstep
  refine ⟨step_atRest hrest hstep, ?_⟩
  cases idleStep_of_step hrest.1 hstep with
  | nothing _ => exact h
  | reset rest _ => exact ⟨Nat.zero_le _, Nat.zero_le _, Nat.zero_le _⟩
  | command rest w i _ _ hdec hexec =>
    exact commandEnd_countersBounded (commandEnd_of_exec (decodeCommand_isCommand hdec) hexec) h
  | illegal rest => exact h
  | access rest b l c m e _ => exact h

end Sys2Proof.Proofs

/-! PROOFS. The host port, reset, and the step that runs what was decoded (spec 10_state.md R12, R21, R29, R33, R34;
30_encoding.md R71; 44_system.md R152 to R154; 70_reset_and_hazards.md R190). -/

namespace Sys2Proof.Proofs

open Sys2Proof Sys2Proof.Machine Sys2Proof.Safety

/-! ### The step -/

/-- Settles O4, from what a write to CTRL does. -/
theorem stepRunsTheDecodedCommand : Obligations.StepRunsTheDecodedCommand := by
  intro s w rest i hb hs hdec
  rw [step_action hb hs, hostAct_command, issue_ok hdec]

/-- Settles O5, from the engine's turn inside a block. -/
theorem stepRunsTheDecodedStreamByte : Obligations.StepRunsTheDecodedStreamByte := by
  intro s hb hlt
  have hexh : exhausted s = false := by simpa [exhausted, BitVec.not_le] using hlt
  rw [step, if_pos hb, streamTurn, hexh, if_neg Bool.false_ne_true, fetchByte]

/-! ### STATUS -/

theorem flagBit_getLsbD (b : Bool) {k : Nat} (hk : k < 32) (n : Nat) :
    (flagBit b k).getLsbD n = (decide (n = k) && b) := by
  cases b with
  | false => simp [flagBit]
  | true =>
    simp only [flagBit, if_true, BitVec.getLsbD_shiftLeft, BitVec.getLsbD_one, Bool.and_true]
    by_cases h : n = k
    · simp [h, hk]
    · simp [h]
      omega

/-- STATUS bit by bit (R21). -/
theorem statusWord_getLsbD (s : State) (n : Nat) :
    (statusWord s).getLsbD n =
      (decide (n = 0) && s.busy || decide (n = 1) && s.done || decide (n = 2) && s.trunc || decide (n = 3) && s.tail
        || decide (n = 4) && s.bounds || decide (n = 5) && s.cmderr || decide (n = 6) && s.cfgerr) := by
  simp [statusWord, flagBit_getLsbD]

/-- Settles O10, bit by bit; a write to number 1 is one of those the registers ignore. -/
theorem statusHoldsSevenFlagsAndIgnoresWrites : Obligations.StatusHoldsSevenFlagsAndIgnoresWrites := by
  intro s
  have hbit := statusWord_getLsbD s
  refine ⟨?_, ?_, ?_, ?_, ?_, ?_, ?_, fun n hn => ?_, fun v rest hb hs => ?_⟩
  iterate 7
    · rw [hbit]
      simp
  · rw [hbit]
    simp [show n ≠ 0 by omega, show n ≠ 1 by omega, show n ≠ 2 by omega, show n ≠ 3 by omega, show n ≠ 4 by omega,
      show n ≠ 5 by omega, show n ≠ 6 by omega]
  · rw [step_action hb hs, hostAct_writeReg (by decide), writeRegister_ignored (.inl le_rfl)]

/-! ### Register access -/

theorem readRegister_word (i : WordIx) (s : State) : readRegister (8 + i.val) s = wordOf s.blk i := by
  unfold readRegister
  split
  any_goals (exfalso; omega)
  rw [wordReg_word]

theorem readRegister_reserved {n : Nat} (h : n = 7 ∨ 16 ≤ n) (s : State) : readRegister n s = 0#32 := by
  unfold readRegister
  split
  any_goals (exfalso; omega)
  rw [wordReg_none (by omega)]

/-- Settles O11, register by register. -/
theorem hostReadReturnsTheRegister : Obligations.HostReadReturnsTheRegister := by
  intro s n rest hb hs
  refine ⟨readRegister n s, ?_, ?_, ?_, ?_, ?_, ?_, ?_, ?_, fun h => readRegister_reserved (.inl h) s, fun i h => ?_,
    fun h => readRegister_reserved (.inr h) s⟩
  · rw [step_action hb hs]
    rfl
  iterate 7
    · rintro rfl
      rfl
  · rw [h, readRegister_word]

/-- Settles O12, register by register; the bytes of a word are where `setWord_lane` puts them. -/
theorem hostWriteStoresTheRegister : Obligations.HostWriteStoresTheRegister := by
  intro s n v rest hb hs
  have hstep : n ≠ 0 → step s = .next (writeRegister n v { s with script := rest }) := fun hn => by
    rw [step_action hb hs, hostAct_writeReg hn]
  refine ⟨?_, ?_, ?_, fun i hi => ?_, fun hn => ?_⟩
  · rintro rfl
    exact step_action hb hs
  · rintro rfl
    rw [hstep (by decide), writeRegister_srcLen]
  · rintro rfl
    rw [hstep (by decide), writeRegister_dstCap]
  · subst hi
    have hbyte : ∀ k, (setWord s.blk i v)[laneIx i k] = wordByte v k := fun k => by rw [setWord_lane, if_pos rfl]
    refine ⟨setWord s.blk i v, ?_, hbyte 0, hbyte 1, hbyte 2, hbyte 3, fun i' b' hne => ?_⟩
    · rw [hstep (by omega), writeRegister_word]
    · rw [setWord_lane, if_neg hne]
  · rw [hstep (by omega), writeRegister_ignored (by omega)]

/-! ### Reset -/

theorem statusWord_hardReset (s : State) : statusWord (hardReset s) = 0#32 := by
  have hreset : statusWord State.reset = 0#32 := by decide
  exact hreset

/-- Settles O8: the state a reset leaves, field by field. -/
theorem hardResetZeroesRegistersAndKeepsMemories : Obligations.HardResetZeroesRegistersAndKeepsMemories := by
  intro s rest hb hs
  refine ⟨hardReset { s with script := rest }, step_action hb hs, fun j => ?_, rfl, rfl, rfl, rfl, rfl,
    statusWord_hardReset _, rfl, rfl, ⟨rfl, rfl⟩, rfl, rfl⟩
  exact Vector.getElem_replicate _

theorem wordOf_reset (i : WordIx) : wordOf State.reset.blk i = 0#32 := by
  have hzero : ∀ j : ByteIx, State.reset.blk[j] = 0#8 := fun j => Vector.getElem_replicate _
  simp only [wordOf, hzero]
  decide

/-- Settles O9: the named registers, the words, and the reserved numbers. -/
theorem everyRegisterReadsZeroAfterReset : Obligations.EveryRegisterReadsZeroAfterReset := by
  intro n
  unfold readRegister
  split
  any_goals rfl
  split
  · exact wordOf_reset _
  · rfl

/-- Settles O58, with the memories of reset canonical as `reset_memories_wf` says. -/
theorem resetMeetsTheInvariants : Obligations.ResetMeetsTheInvariants := by
  obtain ⟨hsrc, hdst⟩ := reset_memories_wf
  exact ⟨⟨rfl, rfl⟩, ⟨hsrc, hdst, nofun⟩, le_rfl, Nat.zero_le _, Nat.zero_le _⟩

/-! ### Stream bytes -/

/-- The block in which the bytes of group `g` among `ks` are 0x00. -/
def zeroedBlock (g : GroupIx) (ks : List BitIx) (b : Block) : Block :=
  ks.foldl (fun b k => b.set (blkIx g k) 0#8) b

theorem zeroedBlock_getElem (g : GroupIx) (ks : List BitIx) (b : Block) (j : ByteIx) :
    (zeroedBlock g ks b)[j] = if ∃ k ∈ ks, j = blkIx g k then 0#8 else b[j] := by
  induction ks generalizing b with
  | nil => simp [zeroedBlock]
  | cons k ks ih =>
    rw [zeroedBlock, List.foldl_cons, ← zeroedBlock, ih]
    have hset : (b.set (blkIx g k) 0#8)[j] = if j = blkIx g k then 0#8 else b[j] := by
      simp only [Fin.getElem_fin, Vector.getElem_set, Fin.ext_iff, eq_comm]
    simp only [hset, List.mem_cons, exists_eq_or_imp]
    by_cases hrest : ∃ k' ∈ ks, j = blkIx g k'
    · rw [if_pos hrest, if_pos (.inr hrest)]
    · simp only [hrest, if_false, or_false]

/-- Seeking the next literal zeroes the bytes before it, and makes due what R71 says; past the last byte of the last
group the block is complete (30_encoding.md R71). -/
theorem seekLiteral_eq (g : GroupIx) (tok : Byte) (ks : List BitIx) (s : State) :
    seekLiteral g tok ks s = { s with
      blk := zeroedBlock g (skipped tok ks) s.blk
      stream := nextPlace g tok ks
      busy := if endsBlock g tok ks then false else s.busy
      done := if endsBlock g tok ks then true else s.done } := by
  induction ks generalizing s with
  | nil =>
    by_cases h : g = 3
    · simp [seekLiteral, endGroup, h, skipped, zeroedBlock, nextPlace, endsBlock, complete]
    · simp [seekLiteral, endGroup, h, skipped, zeroedBlock, nextPlace, endsBlock]
  | cons k ks ih =>
    cases hk : tokenBit tok k with
    | true => simp [seekLiteral, hk, skipped, zeroedBlock, nextPlace, endsBlock]
    | false =>
      have hplace : nextPlace g tok (k :: ks) = nextPlace g tok ks := by simp [nextPlace, hk]
      have hends : endsBlock g tok (k :: ks) = endsBlock g tok ks := by simp [endsBlock, hk]
      have hskip : skipped tok (k :: ks) = k :: skipped tok ks := by simp [skipped, hk]
      rw [seekLiteral, hk, if_neg Bool.false_ne_true, ih, hplace, hends, hskip]
      rfl

/-- Settles O30, by `seekLiteral_eq` from the first byte of the group on. -/
theorem tokenBeginsItsGroup : Obligations.TokenBeginsItsGroup := by
  intro s g t hs
  refine ⟨zeroedBlock g (skipped t groupOrder) s.blk, ?_, zeroedBlock_getElem g _ s.blk⟩
  have hexec : exec (.token t) s = .next (seekLiteral g t groupOrder (advanceSrc (beginBlock g s))) := by
    simp [exec, execToken, hs]
  rw [hexec, seekLiteral_eq]
  by_cases h : g = 0
  · simp [beginBlock, h, advanceSrc, countBlock]
  · simp [beginBlock, h, advanceSrc]

end Sys2Proof.Proofs

/-! PROOFS. No instruction depends on the destination memory or on the source memory beyond SRC_LEN: two runs that
differ in these alone stay so (spec 20_memory.md R41, R43; 40_cursor_word.md R80 to R83). -/

namespace Sys2Proof.Proofs

open Sys2Proof Sys2Proof.Machine Sys2Proof.Safety

/-! ### States that differ in the memories alone -/

/-- The state with the source memory `m` and the destination memory `d`. -/
def withMemories (m d : Memory) (s : State) : State := { s with src := m, dst := d }

/-- States that are the same but for a source memory that reads the same below SRC_LEN, and a destination memory that
`D` relates to the first one's. -/
inductive MemoriesApart (D : Memory → Memory → Prop) (s : State) : State → Prop
  | intro (m d : Memory) (input : ∀ a, a < s.srcLen.toNat → byteAt .source m a = memRead s a) (output : D s.dst d) :
      MemoriesApart D s (withMemories m d s)

/-- The same store on both sides keeps the memories related. -/
def KeptByStores (D : Memory → Memory → Prop) : Prop :=
  ∀ ⦃m d⦄ (a : Nat) (v : Byte), D m d → D (storeByte m a v) (storeByte d a v)

/-- An operation that neither reads nor writes a memory, and does not write SRC_LEN, which bounds what may be read. -/
def MemoryBlind (f : State → State) : Prop :=
  ∀ m d s, f (withMemories m d s) = withMemories m d (f s) ∧ (f s).srcLen = s.srcLen

/-- Two pieces of a command have come equally far, in states that `R` relates. -/
inductive ProgressRelated (R : State → State → Prop) : Progress → Progress → Prop
  | running {s u : State} : R s u → ProgressRelated R (.running s) (.running u)
  | aborted {s u : State} : R s u → ProgressRelated R (.aborted s) (.aborted u)

/-- If `o` is a next state, then so is `o'`, and `R` relates the two. -/
def AnswerRelated (R : State → State → Prop) (o o' : Host.Outcome State Fault Refusal) : Prop :=
  ∀ t, o = .next t → ∃ u, o' = .next u ∧ R t u

theorem answerRelated_next {R : State → State → Prop} {t u : State} (h : R t u) :
    AnswerRelated R (.next t) (.next u) := by
  rintro _ ⟨⟩
  exact ⟨u, rfl, h⟩

theorem answerRelated_refused {R : State → State → Prop} (r : Refusal) (o : Host.Outcome State Fault Refusal) :
    AnswerRelated R (.refused r) o := nofun

theorem progressState_related {R : State → State → Prop} {p q : Progress} (h : ProgressRelated R p q) :
    R (progressState p) (progressState q) := by
  cases h with
  | running h => exact h
  | aborted h => exact h

theorem andThen_related {R : State → State → Prop} {p q : Progress} {f : State → Progress}
    (h : ProgressRelated R p q) (hf : ∀ ⦃s u⦄, R s u → ProgressRelated R (f s) (f u)) :
    ProgressRelated R (andThen p f) (andThen q f) := by
  cases h with
  | running h => exact hf h
  | aborted h => exact .aborted h

/-! ### What the two states share -/

section
variable {D : Memory → Memory → Prop} {s u : State} (h : MemoriesApart D s u)
include h

theorem MemoriesApart.blk_eq : u.blk = s.blk := by cases h; rfl
theorem MemoriesApart.srcLen_eq : u.srcLen = s.srcLen := by cases h; rfl
theorem MemoriesApart.stream_eq : u.stream = s.stream := by cases h; rfl
theorem MemoriesApart.exhausted_eq : exhausted u = exhausted s := by cases h; rfl
theorem MemoriesApart.destFull_eq : destFull u = destFull s := by cases h; rfl
theorem MemoriesApart.remaining_eq : remaining u = remaining s := by cases h; rfl
theorem MemoriesApart.lengthPartial_eq : lengthPartial u = lengthPartial s := by cases h; rfl
theorem MemoriesApart.lengthsIllegal_eq : lengthsIllegal u = lengthsIllegal s := by cases h; rfl

/-- A byte read before the end of the source is the same on both sides (R41). -/
theorem MemoriesApart.readSrc_eq (he : ¬ exhausted s = true) : (readSrc u).1 = (readSrc s).1 := by
  have hlt : s.srcPos.toNat < s.srcLen.toNat := by simpa [exhausted, BitVec.le_def] using he
  cases h with
  | intro m d input output => exact input _ hlt

/-- The bytes from SRC_POS to the end of the source are the same on both sides (R41). -/
theorem MemoriesApart.inputLeft_eq : inputLeft u = inputLeft s := by
  cases h with
  | intro m d input output =>
    refine List.map_congr_left fun n hn => input _ ?_
    rw [List.mem_range] at hn
    have hleft : n < s.srcLen.toNat - s.srcPos.toNat := hn
    exact Nat.add_lt_of_lt_sub' hleft

end

/-! ### Operations that touch no memory -/

theorem memoryBlind_src {f : State → State} (hf : MemoryBlind f) (s : State) : (f s).src = s.src := by
  have hsame : f s = withMemories s.src s.dst (f s) := (hf s.src s.dst s).1
  rw [hsame]
  rfl

theorem memoryBlind_dst {f : State → State} (hf : MemoryBlind f) (s : State) : (f s).dst = s.dst := by
  have hsame : f s = withMemories s.src s.dst (f s) := (hf s.src s.dst s).1
  rw [hsame]
  rfl

/-- An operation that touches no memory leads states that differ in the memories alone to such states. -/
theorem MemoriesApart.map {D : Memory → Memory → Prop} {s u : State} (h : MemoriesApart D s u) {f : State → State}
    (hf : MemoryBlind f) : MemoriesApart D (f s) (f u) := by
  cases h with
  | intro m d input output =>
    obtain ⟨hmap, hlen⟩ := hf m d s
    rw [hmap]
    refine .intro m d (fun a ha => ?_) ((memoryBlind_dst hf s).symm ▸ output)
    rw [memRead, memoryBlind_src hf]
    exact input a (hlen ▸ ha)

theorem accept_memoryBlind : MemoryBlind accept := fun _ _ _ => ⟨rfl, rfl⟩
theorem complete_memoryBlind : MemoryBlind complete := fun _ _ _ => ⟨rfl, rfl⟩
theorem clearPass_memoryBlind : MemoryBlind clearPass := fun _ _ _ => ⟨rfl, rfl⟩
theorem refuseConfig_memoryBlind : MemoryBlind refuseConfig := fun _ _ _ => ⟨rfl, rfl⟩
theorem setTrunc_memoryBlind : MemoryBlind setTrunc := fun _ _ _ => ⟨rfl, rfl⟩
theorem setTail_memoryBlind : MemoryBlind setTail := fun _ _ _ => ⟨rfl, rfl⟩
theorem countBlock_memoryBlind : MemoryBlind countBlock := fun _ _ _ => ⟨rfl, rfl⟩
theorem advanceSrc_memoryBlind : MemoryBlind advanceSrc := fun _ _ _ => ⟨rfl, rfl⟩
theorem advanceDst_memoryBlind : MemoryBlind advanceDst := fun _ _ _ => ⟨rfl, rfl⟩
theorem xorfStage_memoryBlind : MemoryBlind xorfStage := fun _ _ s => ⟨rfl, xorfStage_srcLen s⟩
theorem xoriStage_memoryBlind : MemoryBlind xoriStage := fun _ _ s => ⟨rfl, xoriStage_srcLen s⟩
theorem setByte_memoryBlind (j : ByteIx) (v : Byte) : MemoryBlind (setByte · j v) := fun _ _ _ => ⟨rfl, rfl⟩
theorem setBounds_memoryBlind : MemoryBlind fun s => { s with bounds := true } := fun _ _ _ => ⟨rfl, rfl⟩
theorem setPlace_memoryBlind (q : StreamPos) : MemoryBlind fun s => { s with stream := q } :=
  fun _ _ _ => ⟨rfl, rfl⟩
theorem setLoaded_memoryBlind (b : Block) (n : Word) :
    MemoryBlind fun s => { s with blk := b, srcPos := s.srcPos + n } := fun _ _ _ => ⟨rfl, rfl⟩

theorem memoryBlind_comp {f g : State → State} (hf : MemoryBlind f) (hg : MemoryBlind g) :
    MemoryBlind fun s => f (g s) := by
  intro m d s
  obtain ⟨hgm, hgl⟩ := hg m d s
  obtain ⟨hfm, hfl⟩ := hf m d (g s)
  exact ⟨(congrArg f hgm).trans hfm, hfl.trans hgl⟩

theorem endGroup_memoryBlind (g : GroupIx) : MemoryBlind (endGroup g) := by
  unfold endGroup
  split_ifs
  · exact memoryBlind_comp complete_memoryBlind (setPlace_memoryBlind _)
  · exact setPlace_memoryBlind _

theorem seekLiteral_memoryBlind (g : GroupIx) (tok : Byte) (ks : List BitIx) : MemoryBlind (seekLiteral g tok ks) := by
  induction ks with
  | nil => exact endGroup_memoryBlind g
  | cons k ks ih =>
    intro m d s
    unfold seekLiteral
    split_ifs
    · exact setPlace_memoryBlind _ m d s
    · exact memoryBlind_comp ih (setByte_memoryBlind _ _) m d s

theorem beginBlock_memoryBlind (g : GroupIx) : MemoryBlind (beginBlock g) := by
  unfold beginBlock
  split_ifs
  · exact countBlock_memoryBlind
  · exact fun _ _ _ => ⟨rfl, rfl⟩

/-! ### BMI and LDBLK read below SRC_LEN alone -/

section
variable {D : Memory → Memory → Prop}

/-- BMI's temporary `stop` is the same on both sides, and the states differ in the memories alone. -/
def ReadersApart (D : Memory → Memory → Prop) (c d : Bool × State) : Prop := d.1 = c.1 ∧ MemoriesApart D c.2 d.2

theorem bmiToken_memoriesApart {c d : Bool × State} (h : ReadersApart D c d) :
    (bmiToken d).1 = (bmiToken c).1 ∧ ReadersApart D (bmiToken c).2 (bmiToken d).2 := by
  obtain ⟨hstop, hst⟩ := h
  unfold bmiToken
  rw [hstop, hst.exhausted_eq]
  split_ifs with _ he
  · exact ⟨rfl, hstop, hst⟩
  · exact ⟨rfl, rfl, hst.map setTrunc_memoryBlind⟩
  · exact ⟨hst.readSrc_eq he, rfl, hst.map advanceSrc_memoryBlind⟩

theorem bmiByte_memoriesApart (g : GroupIx) (tok : Byte) (k : BitIx) {c d : Bool × State} (h : ReadersApart D c d) :
    ReadersApart D (bmiByte g tok c k) (bmiByte g tok d k) := by
  obtain ⟨hstop, hst⟩ := h
  unfold bmiByte
  rw [hstop, hst.exhausted_eq]
  split_ifs with _ he
  · exact ⟨rfl, (hst.map setTrunc_memoryBlind).map (setByte_memoryBlind _ _)⟩
  · rw [hst.readSrc_eq he]
    exact ⟨rfl, (hst.map advanceSrc_memoryBlind).map (setByte_memoryBlind _ _)⟩
  · exact ⟨rfl, hst.map (setByte_memoryBlind _ _)⟩

theorem bmiGroup_memoriesApart (g : GroupIx) {c d : Bool × State} (h : ReadersApart D c d) :
    ReadersApart D (bmiGroup c g) (bmiGroup d g) := by
  obtain ⟨htok, hc⟩ := bmiToken_memoriesApart h
  simp only [bmiGroup, htok]
  exact List.foldl_rel (r := ReadersApart D) hc fun k _ _ _ => bmiByte_memoriesApart g _ k

theorem bmiStage_memoriesApart {s u : State} (h : MemoriesApart D s u) : MemoriesApart D (bmiStage s) (bmiStage u) := by
  have hstart : ReadersApart D (false, if exhausted s then s else countBlock s)
      (false, if exhausted u then u else countBlock u) := by
    rw [h.exhausted_eq]
    split_ifs
    · exact ⟨rfl, h⟩
    · exact ⟨rfl, h.map countBlock_memoryBlind⟩
  exact (List.foldl_rel hstart fun g _ _ _ => bmiGroup_memoriesApart g).2

/-- LDBLK loads no more bytes than are left, so it loads the same ones on both sides (R130). -/
theorem loadBytes_memoriesApart {n : Nat} {s u : State} (hn : n ≤ remaining s) (h32 : n ≤ 32)
    (h : MemoriesApart D s u) : MemoriesApart D (loadBytes n s) (loadBytes n u) := by
  rw [loadBytes_eq hn h32, loadBytes_eq (h.remaining_eq ▸ hn) h32, h.inputLeft_eq]
  exact h.map (setLoaded_memoryBlind _ _)

theorem ldblkStage_memoriesApart (p : TailPolicy) {s u : State} (h : MemoriesApart D s u) :
    (ldblkStage p u).1 = (ldblkStage p s).1 ∧ MemoriesApart D (ldblkStage p s).2 (ldblkStage p u).2 := by
  have htail := h.map setTail_memoryBlind
  unfold ldblkStage
  rw [h.remaining_eq]
  split_ifs with h32 h1
  · exact ⟨rfl, (loadBytes_memoriesApart h32 le_rfl h).map countBlock_memoryBlind⟩
  · cases p with
    | zeropad =>
      have hleft : remaining s ≤ remaining (setTail s) := le_rfl
      exact ⟨rfl, (loadBytes_memoriesApart hleft (by omega) htail).map countBlock_memoryBlind⟩
    | drop => exact ⟨rfl, htail⟩
    | reject => exact ⟨rfl, htail⟩
  · exact ⟨rfl, h⟩

/-! ### From the acceptance of a command to its end -/

/-- A piece of a command that leads states that differ in the memories alone to such states, equally far. -/
def ApartPiece (D : Memory → Memory → Prop) (f : State → Progress) : Prop :=
  ∀ ⦃s u⦄, MemoriesApart D s u → ProgressRelated (MemoriesApart D) (f s) (f u)

theorem runStage_memoriesApart {f : State → Progress} (hf : ApartPiece D f) {s u : State} (h : MemoriesApart D s u) :
    MemoriesApart D (runStage f s) (runStage f u) := by
  have haccept := h.map accept_memoryBlind
  rw [runStage, runStage, h.lengthsIllegal_eq]
  split_ifs
  · exact (haccept.map refuseConfig_memoryBlind).map complete_memoryBlind
  · exact (progressState_related (hf haccept)).map complete_memoryBlind

theorem runWhole_memoriesApart {f : State → Progress} (hf : ApartPiece D f) {s u : State} (h : MemoriesApart D s u) :
    MemoriesApart D (runWhole f s) (runWhole f u) := by
  have haccept := h.map accept_memoryBlind
  rw [runWhole, runWhole, h.lengthsIllegal_eq]
  split_ifs
  · exact (haccept.map refuseConfig_memoryBlind).map complete_memoryBlind
  · exact (progressState_related (hf (haccept.map clearPass_memoryBlind))).map complete_memoryBlind

/-! ### Stream bytes -/

theorem execToken_memoriesApart (b : Byte) {s u : State} (h : MemoriesApart D s u) :
    AnswerRelated (MemoriesApart D) (execToken b s) (execToken b u) := by
  unfold execToken
  rw [h.stream_eq]
  split
  · next g _ =>
    have hread := (h.map (beginBlock_memoryBlind g)).map advanceSrc_memoryBlind
    exact answerRelated_next (hread.map (seekLiteral_memoryBlind g b groupOrder))
  · exact answerRelated_refused _ _

theorem execLiteral_memoriesApart (b : Byte) {s u : State} (h : MemoriesApart D s u) :
    AnswerRelated (MemoriesApart D) (execLiteral b s) (execLiteral b u) := by
  unfold execLiteral
  rw [h.stream_eq]
  split
  · exact answerRelated_refused _ _
  · next g k tok _ =>
    have hread := (h.map advanceSrc_memoryBlind).map (setByte_memoryBlind (blkIx g k) b)
    exact answerRelated_next (hread.map (seekLiteral_memoryBlind g tok (groupAfter k)))

/-! ### Output stores the same bytes at the same offsets -/

variable (hD : KeptByStores D)
include hD

theorem memWrite_memoriesApart (v : Byte) {s u : State} (h : MemoriesApart D s u) :
    MemoriesApart D (memWrite s s.dstPos.toNat v) (memWrite u u.dstPos.toNat v) := by
  cases h with
  | intro m d input output => exact .intro m _ input (hD s.dstPos.toNat v output)

theorem emit_memoriesApart (v : Byte) (sz : Bool) : ApartPiece D (emit v sz) := by
  intro s u h
  unfold emit
  rw [h.destFull_eq]
  split_ifs
  · exact .running (h.map advanceDst_memoryBlind)
  · exact .aborted (h.map setBounds_memoryBlind)
  · exact .running ((memWrite_memoriesApart hD v h).map advanceDst_memoryBlind)

theorem emitAll_memoriesApart (vs : List Byte) (sz : Bool) : ApartPiece D (emitAll vs sz) := by
  induction vs with
  | nil => exact fun _ _ h => .running h
  | cons v vs ih => exact fun _ _ h => andThen_related (emit_memoriesApart hD v sz h) ih

theorem bmfStage_memoriesApart (sz : Bool) : ApartPiece D (bmfStage sz) := by
  intro s u h
  rw [bmfStage, bmfStage, h.blk_eq]
  exact emitAll_memoriesApart hD _ sz h

theorem stblkStage_memoriesApart (sz : Bool) : ApartPiece D (stblkStage sz) := by
  intro s u h
  rw [stblkStage, stblkStage, h.blk_eq]
  exact emitAll_memoriesApart hD _ sz h

theorem decLoop_memoriesApart (sz : Bool) (n : Nat) : ApartPiece D (decLoop sz n) := by
  induction n with
  | zero => exact fun _ _ h => .running h
  | succ n ih =>
    intro s u h
    have hblock := (bmiStage_memoriesApart h).map xorfStage_memoryBlind
    unfold decLoop
    rw [h.exhausted_eq]
    split_ifs
    · exact .running h
    · exact andThen_related (stblkStage_memoriesApart hD sz hblock) ih

theorem encLoop_memoriesApart (p : TailPolicy) (sz : Bool) (n : Nat) : ApartPiece D (encLoop p sz n) := by
  induction n with
  | zero => exact fun _ _ h => .running h
  | succ n ih =>
    intro s u h
    obtain ⟨hloaded, hload⟩ := ldblkStage_memoriesApart p h
    unfold encLoop
    rw [hloaded]
    split_ifs
    · exact andThen_related (bmfStage_memoriesApart hD sz (hload.map xoriStage_memoryBlind)) ih
    · exact .running hload

theorem decPass_memoriesApart (sz : Bool) : ApartPiece D (decPass sz) := by
  intro s u h
  rw [decPass, decPass, h.srcLen_eq]
  exact decLoop_memoriesApart hD sz _ h

theorem encPass_memoriesApart (p : TailPolicy) (sz : Bool) : ApartPiece D (encPass p sz) := by
  intro s u h
  rw [encPass, encPass, h.lengthPartial_eq, h.srcLen_eq]
  split_ifs
  · exact .running (h.map setTail_memoryBlind)
  · exact encLoop_memoriesApart hD p sz _ h

/-! ### Instructions -/

/-- No instruction's result depends on what a memory holds, but for the source bytes below SRC_LEN; only the memories
themselves do. -/
theorem exec_memoriesApart (i : Instr) {s u : State} (h : MemoriesApart D s u) :
    AnswerRelated (MemoriesApart D) (exec i s) (exec i u) := by
  have whole : ∀ {f}, ApartPiece D f →
      AnswerRelated (MemoriesApart D) (.next (runWhole f s)) (.next (runWhole f u)) := fun hf =>
    answerRelated_next (runWhole_memoriesApart hf h)
  have stage : ∀ {f}, ApartPiece D f →
      AnswerRelated (MemoriesApart D) (.next (runStage f s)) (.next (runStage f u)) := fun hf =>
    answerRelated_next (runStage_memoriesApart hf h)
  have haccept := h.map accept_memoryBlind
  cases i with
  | nop => exact answerRelated_next (haccept.map complete_memoryBlind)
  | clr => exact answerRelated_next ((haccept.map clearPass_memoryBlind).map complete_memoryBlind)
  | dec => exact whole (decPass_memoriesApart hD false)
  | decsz => exact whole (decPass_memoriesApart hD true)
  | enc => exact whole (encPass_memoriesApart hD _ false)
  | encsz => exact whole (encPass_memoriesApart hD _ true)
  | xorf => exact stage fun _ _ ht => .running (ht.map xorfStage_memoryBlind)
  | xori => exact stage fun _ _ ht => .running (ht.map xoriStage_memoryBlind)
  | bmi => exact stage fun _ _ ht => .running (bmiStage_memoriesApart ht)
  | ldblk => exact stage fun _ _ ht => .running (ldblkStage_memoriesApart _ ht).2
  | bmf => exact stage (bmfStage_memoriesApart hD false)
  | stblk => exact stage (stblkStage_memoriesApart hD false)
  | token b => exact execToken_memoriesApart b h
  | literal b => exact execLiteral_memoriesApart b h

end

/-- Settles O50: with equal destinations the two runs end apart in the source memory alone, and no instruction writes
that one. -/
theorem sourceBeyondItsLengthIsNeverRead : Obligations.SourceBeyondItsLengthIsNeverRead := by
  intro i s t m ht hagree
  have hstores : KeptByStores (· = ·) := fun _ _ a v h => congrArg (storeByte · a v) h
  have hstart : MemoriesApart (· = ·) s { s with src := m } := .intro m s.dst hagree rfl
  obtain ⟨u, hu, hend⟩ := exec_memoriesApart hstores i hstart t ht
  cases hend with
  | intro m' d input output =>
    obtain ⟨hsrc, -⟩ := engineNeverWritesItsInputs i _ _ hu
    have hm : m' = m := hsrc
    rw [hu, withMemories, hm, ← output]

/-- Settles O51: the two runs end apart in the memories alone, and no instruction writes the source. -/
theorem destinationIsNeverRead : Obligations.DestinationIsNeverRead := by
  intro i s t m ht
  have hstores : KeptByStores fun _ _ => True := fun _ _ _ _ _ => trivial
  have hstart : MemoriesApart (fun _ _ => True) s { s with dst := m } := .intro s.src m (fun _ _ => rfl) trivial
  obtain ⟨u, hu, hend⟩ := exec_memoriesApart hstores i hstart t ht
  cases hend with
  | intro m' d input output =>
    obtain ⟨hsrc, -⟩ := engineNeverWritesItsInputs i _ _ hu
    obtain ⟨hsrc', -⟩ := engineNeverWritesItsInputs i _ _ ht
    have hm : m' = t.src := hsrc.trans hsrc'.symm
    exact ⟨d, by rw [hu, withMemories, hm]⟩

end Sys2Proof.Proofs

/-! PROOFS. The host's access to the memories, the Word Codec, and what instructions write of the destination space
(spec 20_memory.md R40, R42, R44; 30_encoding.md R73; 40_cursor_word.md R82, R84 to R89). -/

namespace Sys2Proof.Proofs

open Sys2Proof Sys2Proof.Machine Sys2Proof.Safety

/-! ### The host's access to the memories -/

theorem hostAct_storeSource {a : Nat} {bs : List Byte} (h : a + bs.length ≤ Config.offsetSpace) (s : State) :
    hostAct (.storeSource a bs) s = .next { s with src := storeBytes s.src a bs } := by
  simp [hostAct, HostAction.wf, h]

theorem hostAct_storeSource_fault {a : Nat} {bs : List Byte} (h : Config.offsetSpace < a + bs.length) (s : State) :
    hostAct (.storeSource a bs) s = .fault (.sourceOffset (a + bs.length)) := by
  simp [hostAct, HostAction.wf, Nat.not_le.mpr h]

theorem hostAct_readDest {n : Nat} (h : n ≤ Config.offsetSpace) (s : State) :
    hostAct (.readDest n) s = .next { s with seen := .dest (destBytes n s) :: s.seen } := by
  simp [hostAct, HostAction.wf, h]

theorem hostAct_readDest_fault {n : Nat} (h : Config.offsetSpace < n) (s : State) :
    hostAct (.readDest n) s = .fault (.destinationOffset n) := by
  simp [hostAct, HostAction.wf, Nat.not_le.mpr h]

theorem destBytes_length (n : Nat) (s : State) : (destBytes n s).length = n := by simp [destBytes]

theorem destBytes_getD {n x : Nat} (h : x < n) (s : State) : (destBytes n s).getD x 0#8 = destByte s x := by
  simp [destBytes, List.getD, h]

/-- Settles O13: the stored bytes are where `byteAt_storeBytes` reads them, the bytes read are `destBytes`. -/
theorem hostReachesBothMemoriesByOffset : Obligations.HostReachesBothMemoriesByOffset := by
  refine ⟨fun s a bs rest hb hs => ?_, fun s n rest hb hs => ?_⟩ <;> rw [step_action hb hs]
  · exact ⟨fun hfit => ⟨_, hostAct_storeSource hfit _, byteAt_storeBytes .source s.src a bs⟩,
      fun hover => hostAct_storeSource_fault hover _⟩
  · exact ⟨fun hfit => ⟨_, hostAct_readDest hfit _, destBytes_length n _, fun _ hx => destBytes_getD hx _⟩,
      fun hover => hostAct_readDest_fault hover _⟩

/-! ### The Word Codec -/

theorem peekBlock_lane (s : State) (i : WordIx) (b : Fin 4) :
    peekBlock s (4 * i.val + b.val) = some s.blk[laneIx i b] :=
  dif_pos (laneIx i b).isLt

/-- A word peeked at a multiple of 4 is a word of the view (R87). -/
theorem peekWord_peekBlock (s : State) (i : WordIx) : peekWord (peekBlock s) (4 * i.val) = some (wordOf s.blk i) := by
  have h0 : peekBlock s (4 * i.val) = some s.blk[laneIx i 0] := peekBlock_lane s i 0
  have h1 : peekBlock s (4 * i.val + 1) = some s.blk[laneIx i 1] := peekBlock_lane s i 1
  have h2 : peekBlock s (4 * i.val + 2) = some s.blk[laneIx i 2] := peekBlock_lane s i 2
  have h3 : peekBlock s (4 * i.val + 2 + 1) = some s.blk[laneIx i 3] := peekBlock_lane s i 3
  simp only [peekWord, peekHalf, h0, h1, h2, h3]
  rfl

/-- Two bytes read where there are two (R85). -/
theorem readHalf_eq {s : State} (h : s.srcPos.toNat + 2 ≤ s.srcLen.toNat) :
    readHalf s = some (half (memRead s s.srcPos.toNat) (memRead s (s.srcPos.toNat + 1)),
      { s with srcPos := s.srcPos + 2#32 }) := by
  have hlen := s.srcLen.isLt
  have hone : (s.srcPos + 1#32).toNat = s.srcPos.toNat + 1 := toNat_add_ofNat (n := 1) (by omega)
  rw [readHalf, if_pos h]
  simp only [readSrc, advanceSrc, memRead, hone, BitVec.add_assoc]
  rfl

/-- Four bytes read where there are four, and SRC_POS moved on by 4 (R88). -/
theorem readWord_eq {s : State} (h : s.srcPos.toNat + 4 ≤ s.srcLen.toNat) :
    readWord s = some (wordOfBytes (memRead s s.srcPos.toNat) (memRead s (s.srcPos.toNat + 1))
      (memRead s (s.srcPos.toNat + 2)) (memRead s (s.srcPos.toNat + 3)), { s with srcPos := s.srcPos + 4#32 }) := by
  have hlen := s.srcLen.isLt
  have htwo : (s.srcPos + 2#32).toNat = s.srcPos.toNat + 2 := toNat_add_ofNat (n := 2) (by omega)
  have hlow := readHalf_eq (s := { s with srcPos := s.srcPos + 2#32 }) (by simp only [htwo]; omega)
  rw [readWord, if_pos h, readHalf_eq (by omega)]
  simp only [hlow, htwo, BitVec.add_assoc]
  rfl

/-- Eight bits of sixteen bits of a word are eight bits of the word. -/
theorem extractByte_extractHalf (v : Word) (n k : Nat) (hk : k ≤ 8) :
    (v.extractLsb' n 16).extractLsb' k 8 = v.extractLsb' (n + k) 8 := by
  apply BitVec.eq_of_getLsbD_eq
  intro j hj
  simp [hj, show k + j < 16 by omega, Nat.add_assoc]

/-- Emitting two lists of bytes one after the other is emitting their concatenation. -/
theorem emitAll_append (vs ws : List Byte) (sz : Bool) (s : State) :
    emitAll (vs ++ ws) sz s = andThen (emitAll vs sz s) (emitAll ws sz) := by
  induction vs generalizing s with
  | nil => rfl
  | cons v vs ih =>
    rw [List.cons_append, emitAll_cons, emitAll_cons]
    cases emit v sz s with
    | running t => exact ih t
    | aborted t => rfl

theorem emitAll_singleton (v : Byte) (sz : Bool) : emitAll [v] sz = emit v sz := by
  funext s
  rw [emitAll_cons]
  cases emit v sz s <;> rfl

theorem writeHalf_eq_emitAll (v : Half) (sz : Bool) : writeHalf v sz = emitAll [highByte v, lowByte v] sz := by
  funext s
  rw [writeHalf, emitAll_cons, emitAll_singleton]

/-- A word is written as its four bytes, the most significant first (R89). -/
theorem writeWord_eq_emitAll (v : Word) (sz : Bool) (s : State) :
    writeWord v sz s =
      emitAll [v.extractLsb' 24 8, v.extractLsb' 16 8, v.extractLsb' 8 8, v.extractLsb' 0 8] sz s := by
  have h0 : highByte (highHalf v) = v.extractLsb' 24 8 := extractByte_extractHalf v 16 8 le_rfl
  have h1 : lowByte (highHalf v) = v.extractLsb' 16 8 := extractByte_extractHalf v 16 0 (by decide)
  have h2 : highByte (lowHalf v) = v.extractLsb' 8 8 := extractByte_extractHalf v 0 8 le_rfl
  have h3 : lowByte (lowHalf v) = v.extractLsb' 0 8 := extractByte_extractHalf v 0 0 (by decide)
  rw [writeWord, writeHalf_eq_emitAll, writeHalf_eq_emitAll, ← emitAll_append, h0, h1, h2, h3]
  rfl

/-- Settles O55: a write of a word with room is one of four bytes with room. -/
theorem wordCodecIsBigEndian : Obligations.WordCodecIsBigEndian := by
  intro s
  refine ⟨peekWord_peekBlock s, readWord_eq, fun hfew => if_neg (Nat.not_le.mpr hfew), fun v hroom => ?_⟩
  rw [writeWord_eq_emitAll]
  exact ⟨_, emitAll_room false _ s (.inr hroom), byteAt_storeBytes .destination s.dst s.dstPos.toNat _⟩

/-! ### What instructions write of the destination -/

/-- The bytes of the destination at and beyond DST_CAP are in `t` as in `s`. -/
def KeptBeyondCap (s t : State) : Prop :=
  t.dstCap = s.dstCap ∧ ∀ a, s.dstCap.toNat ≤ a → destByte t a = destByte s a

theorem keptBeyondCap_keptByParts (s : State) : KeptByParts (KeptBeyondCap s) where
  blk _ _ h := h
  src _ h := h
  dst _ h := h
  put := by
    rintro t v hroom ⟨hcap, hkept⟩
    rw [hcap, BitVec.lt_def] at hroom
    refine ⟨hcap, fun a ha => ?_⟩
    have hne : t.dstPos.toNat ≠ a := by omega
    rw [destByte, memWrite_dst, byteAt_storeByte, if_neg hne]
    exact hkept a ha
  count _ h := h
  trunc _ h := h
  tail _ h := h
  bounds _ h := h
  place _ _ h := h
  life _ _ _ h := h

theorem execToken_dst {b : Byte} {s t : State} (h : execToken b s = .next t) : t.dst = s.dst := by
  unfold execToken at h
  split at h
  · next g _ =>
    cases h
    have hread := memoryBlind_comp advanceSrc_memoryBlind (beginBlock_memoryBlind g)
    exact memoryBlind_dst (memoryBlind_comp (seekLiteral_memoryBlind g b groupOrder) hread) s
  · cases h

theorem execLiteral_dst {b : Byte} {s t : State} (h : execLiteral b s = .next t) : t.dst = s.dst := by
  unfold execLiteral at h
  split at h
  · cases h
  · next g k tok _ =>
    cases h
    have hread := memoryBlind_comp (setByte_memoryBlind (blkIx g k) b) advanceSrc_memoryBlind
    exact memoryBlind_dst (memoryBlind_comp (seekLiteral_memoryBlind g tok (groupAfter k)) hread) s

theorem emitAll_sizeOnly_dst (vs : List Byte) (s : State) : (progressState (emitAll vs true s)).dst = s.dst := by
  rw [emitAll_sizeOnly, progressState_running]

theorem bmiStage_dst (s : State) : (bmiStage s).dst = s.dst := by
  obtain ⟨b, p, n, t, e⟩ := bmiStage_frame s
  rw [e]

theorem loadBytes_dst (n : Nat) (s : State) : (loadBytes n s).dst = s.dst := by
  obtain ⟨b, p, e⟩ := loadBytes_frame n s
  rw [e]

theorem ldblkStage_dst (p : TailPolicy) (s : State) : (ldblkStage p s).2.dst = s.dst := by
  rcases ldblkStage_cases p s with ⟨-, e⟩ | ⟨-, -, -, e⟩ | ⟨-, -, -, e⟩ | ⟨-, e⟩ <;> rw [e]
  · exact loadBytes_dst 32 s
  · exact loadBytes_dst _ (setTail s)
  · rfl

theorem decPass_sizeOnly_dst (s : State) : (progressState (decPass true s)).dst = s.dst := by
  refine decLoop_induct (fun t => t.dst = s.dst) true (fun t _ ht => ?_) _ s rfl
  rw [stblkStage, emitAll_sizeOnly_dst, xorfStage_dst, bmiStage_dst, ht]

theorem encPass_sizeOnly_dst (p : TailPolicy) (s : State) : (progressState (encPass p true s)).dst = s.dst := by
  refine encPass_induct (fun t => t.dst = s.dst) p true (fun _ ht => ht)
    (encLoop_induct _ p true (fun t _ ht => (ldblkStage_dst p t).trans ht) fun t _ ht => ?_) s rfl
  rw [bmfStage, emitAll_sizeOnly_dst, xoriStage_dst, ldblkStage_dst, ht]

/-- The pseudocode of BMF, STBLK, DEC and ENC alone stores to the destination (R40). -/
theorem body_dst {i : Instr} (hi : i ∉ materialising) (s : State) : (progressState (body i s)).dst = s.dst := by
  cases i with
  | bmf | stblk | dec | enc => simp [materialising] at hi
  | decsz => exact decPass_sizeOnly_dst s
  | encsz => exact encPass_sizeOnly_dst _ s
  | xorf => exact xorfStage_dst s
  | xori => exact xoriStage_dst s
  | bmi => rw [body, progressState_running, bmiStage_dst]
  | ldblk => exact ldblkStage_dst _ s
  | nop | clr | token b | literal b => rfl

theorem started_dst (i : Instr) (s : State) : (started i s).dst = s.dst := by
  rcases started_cases i s with ⟨-, e⟩ | ⟨-, e⟩ <;> rw [e] <;> rfl

theorem commandEnd_dst {i : Instr} (hi : i ∉ materialising) {s t : State} (hend : CommandEnd i s t) :
    t.dst = s.dst := by
  cases hend with
  | refused _ _ => rfl
  | ran _ => exact (body_dst hi _).trans (started_dst i s)
  | bare _ => exact started_dst i s

theorem exec_dst {i : Instr} (hi : i ∉ materialising) {s t : State} (h : exec i s = .next t) : t.dst = s.dst := by
  cases i with
  | token b => exact execToken_dst h
  | literal b => exact execLiteral_dst h
  | _ => exact commandEnd_dst hi (commandEnd_of_exec rfl h)

/-- Settles O49: a byte is stored at DST_POS only below DST_CAP, and only where output is not size-only. -/
theorem nothingIsWrittenBeyondTheCapacity : Obligations.NothingIsWrittenBeyondTheCapacity := by
  intro i s t h
  have hstart : KeptBeyondCap s s := ⟨rfl, fun _ _ => rfl⟩
  obtain ⟨-, hkept⟩ := (keptBeyondCap_keptByParts s).exec_kept (fun _ hu => hu) (fun _ hu => hu) h hstart
  exact ⟨hkept, fun hi => exec_dst hi h⟩

end Sys2Proof.Proofs

/-! PROOFS. Command words and stream bytes: the decoder against the encoder and the table, the refusal of any other
word, and the effect of a literal (spec 30_encoding.md R61 to R64, R67, R71). -/

namespace Sys2Proof.Proofs

open Sys2Proof Sys2Proof.Machine Sys2Proof.Safety

/-! ### The fields of a command word -/

/-- A word with no reserved bit set is its five low bits (R61). -/
theorem eq_setWidth_of_reservedField {w : Word} (h : reservedField w = 0#27) : ∃ x : BitVec 5, w = x.setWidth 32 := by
  refine ⟨w.setWidth 5, BitVec.eq_of_getLsbD_eq fun n hn => ?_⟩
  rw [BitVec.getLsbD_setWidth, BitVec.getLsbD_setWidth]
  by_cases hlow : n < 5
  · simp [hn, hlow]
  · have hbit : (reservedField w).getLsbD (n - 5) = false := by rw [h, BitVec.getLsbD_zero]
    rw [reservedField, BitVec.getLsbD_extractLsb', Nat.add_sub_cancel' (Nat.not_lt.mp hlow)] at hbit
    simpa [hlow, show n - 5 < 27 by omega] using hbit

/-- The 32 values of the two fields below the reserved one, against the encoder (R62, R63). -/
theorem encode_of_decodeCommand_setWidth :
    ∀ x : BitVec 5, ∀ i ∈ (decodeCommand (x.setWidth 32)).toOption, encode i = .command (x.setWidth 32) := by decide

/-! ### The decoder and the encoder -/

/-- A word decodes to the command it is the encoding of, and to no other (R63). -/
theorem decodeCommand_eq_ok_iff (w : Word) (i : Instr) : decodeCommand w = .ok i ↔ encode i = .command w := by
  constructor
  · intro h
    by_cases hres : reservedField w = 0#27
    · obtain ⟨x, rfl⟩ := eq_setWidth_of_reservedField hres
      exact encode_of_decodeCommand_setWidth x i (by rw [h]; rfl)
    · rw [decodeCommand, if_pos hres] at h
      cases h
  · intro h
    cases i with
    | token t => cases h
    | literal v => cases h
    | _ => cases h; rfl

/-- A stream byte decodes to the element that is well formed at its place and is encoded in it (R67, R71). -/
theorem decodeElement_eq_iff {pos : StreamPos} (hpos : pos.wf = true) (b : Byte) (i : Instr) :
    decodeElement pos b = i ↔ i.wf pos = true ∧ encode i = .element b := by
  cases pos with
  | tokenDue g => cases i <;> simp [decodeElement, Instr.wf, encode, eq_comm]
  | literalDue g k tok =>
    have hbit : tokenBit tok k = true := hpos
    cases i <;> simp [decodeElement, Instr.wf, encode, hbit, eq_comm]

/-- A command is well formed at every place (R61). -/
theorem wf_of_encode_command {i : Instr} {w : Word} (h : encode i = .command w) (pos : StreamPos) :
    i.wf pos = true := by
  cases i with
  | token t => cases h
  | literal v => cases h
  | _ => rfl

/-- Settles O1, for a command word and for a stream byte. -/
theorem decodeAndEncodeAgree : Obligations.DecodeAndEncodeAgree := by
  intro pos hpos c i
  cases c with
  | command w =>
    rw [decode, decodeCommand_eq_ok_iff]
    exact ⟨fun h => ⟨wf_of_encode_command h pos, h⟩, And.right⟩
  | element b =>
    rw [decode, Except.ok.injEq]
    exact decodeElement_eq_iff hpos b i

/-! ### The table -/

/-- The table pairs every command with its encoding (R62). -/
theorem mem_commandTable_iff (w : Word) (i : Instr) : (w, i) ∈ commandTable ↔ encode i = .command w := by
  cases i with
  | token t | literal v => simp [commandTable, encode]
  | _ =>
    simp only [commandTable, encode, List.mem_cons, List.not_mem_nil, Prod.mk.injEq, Code.command.injEq, reduceCtorEq,
      and_false, and_true, false_or, or_false]
    exact eq_comm

/-- Settles O2, through the encoder. -/
theorem twelveWordsAreTheLegalCommands : Obligations.TwelveWordsAreTheLegalCommands := fun w i =>
  (decodeCommand_eq_ok_iff w i).trans (mem_commandTable_iff w i).symm

/-- Settles O3, by evaluating the decoder on each word. -/
theorem sampleWordsDecodeAsTheTableSays : Obligations.SampleWordsDecodeAsTheTableSays := by
  unfold Obligations.SampleWordsDecodeAsTheTableSays
  decide

/-- Settles O6: a word off the table does not decode, so issuing it is the refusal. -/
theorem illegalWordSetsOnlyCmderr : Obligations.IllegalWordSetsOnlyCmderr := by
  intro s w rest hb hs hoff
  rw [step_action hb hs, hostAct_command]
  rcases issue_cases w { s with script := rest } with ⟨i, hdec, -⟩ | ⟨e, -, hissue⟩
  · exact absurd rfl (hoff (w, i) ((mem_commandTable_iff w i).mpr ((decodeCommand_eq_ok_iff w i).mp hdec)))
  · rw [hissue]
    rfl

/-! ### The bytes of the stream, by their place -/

theorem exec_token {s : State} {g : GroupIx} (h : s.stream = .tokenDue g) (t : Byte) :
    exec (.token t) s = .next (seekLiteral g t groupOrder (advanceSrc (beginBlock g s))) := by
  simp [exec, execToken, h]

theorem exec_literal {s : State} {g : GroupIx} {k : BitIx} {tok : Byte} (h : s.stream = .literalDue g k tok)
    (v : Byte) :
    exec (.literal v) s = .next (seekLiteral g tok (groupAfter k) (setByte (advanceSrc s) (blkIx g k) v)) := by
  simp [exec, execLiteral, h]

/-- Settles O32, by the place. -/
theorem streamByteOutOfPlaceIsRefused : Obligations.StreamByteOutOfPlaceIsRefused := by
  refine fun s => ⟨fun g v h => ?_, fun g k tok t h => ?_⟩
  · simp [exec, execLiteral, h]
  · simp [exec, execToken, h]

theorem blkIx_inj {g g' : GroupIx} {k k' : BitIx} : blkIx g k = blkIx g' k' ↔ g = g' ∧ k = k' := by
  simp only [blkIx, Fin.ext_iff]
  omega

/-- A byte of a group is none of those that come after it. -/
theorem not_mem_groupAfter : ∀ k : BitIx, k ∉ groupAfter k := by decide

/-- Settles O31, by `seekLiteral_eq` from the byte after the literal on, none of which is the literal's own. -/
theorem literalFillsItsByte : Obligations.LiteralFillsItsByte := by
  intro s g k tok v hs
  refine ⟨zeroedBlock g (skipped tok (groupAfter k)) (s.blk.set (blkIx g k) v), ?_, fun j => ?_⟩
  · rw [exec_literal hs, seekLiteral_eq]
    rfl
  · rw [zeroedBlock_getElem]
    by_cases hj : j = blkIx g k
    · have hnot : ¬ ∃ k' ∈ skipped tok (groupAfter k), j = blkIx g k' := by
        rintro ⟨k', hk', e⟩
        obtain ⟨-, rfl⟩ := blkIx_inj.mp (hj.symm.trans e)
        exact not_mem_groupAfter k ((List.takeWhile_subset _) hk')
      rw [if_neg hnot, if_pos hj, hj, Fin.getElem_fin, Vector.getElem_set_self]
    · have hset : (s.blk.set (blkIx g k) v)[j] = s.blk[j] :=
        Vector.getElem_set_ne _ _ fun e => hj (Fin.ext e.symm)
      rw [if_neg hj, hset]

end Sys2Proof.Proofs

/-! PROOFS. The length of a compressed block, and the group records of a block (spec 30_encoding.md R66 to R69, R72;
42_sparse_bitmap.md R111, R112). -/

namespace Sys2Proof.Proofs

open Sys2Proof Sys2Proof.Machine Sys2Proof.Safety

/-! ### Well-formed group records -/

theorem popcount_le (t : Byte) : popcount t ≤ 8 := List.length_filter_le _ _

theorem wf_iff (r : GroupRecord) : r.wf = true ↔ r.literals.length = popcount r.token := by simp [GroupRecord.wf]

theorem canonical_iff (r : GroupRecord) : r.canonical = true ↔ r.wf = true ∧ ∀ v ∈ r.literals, v ≠ 0#8 := by
  simp [GroupRecord.canonical]

theorem compressedBlockWf_iff (rs : List GroupRecord) :
    compressedBlockWf rs = true ↔ rs.length = 4 ∧ ∀ r ∈ rs, r.wf = true := by
  simp [compressedBlockWf]

theorem canonicalBlock_iff (rs : List GroupRecord) :
    canonicalBlock rs = true ↔ rs.length = 4 ∧ ∀ r ∈ rs, r.canonical = true := by
  simp [canonicalBlock]

theorem compressedBlockWf_of_canonicalBlock {rs : List GroupRecord} (h : canonicalBlock rs = true) :
    compressedBlockWf rs = true := by
  obtain ⟨hlen, hcan⟩ := (canonicalBlock_iff rs).mp h
  exact (compressedBlockWf_iff rs).mpr ⟨hlen, fun r hr => ((canonical_iff r).mp (hcan r hr)).1⟩

theorem compressedBlockBytes_cons (r : GroupRecord) (rs : List GroupRecord) :
    compressedBlockBytes (r :: rs) = r.bytes ++ compressedBlockBytes rs := rfl

/-- Well-formed group records take a byte each, and one for each 1 bit of their tokens (R67, R68). -/
theorem compressedBlockBytes_length {rs : List GroupRecord} (h : ∀ r ∈ rs, r.wf = true) :
    (compressedBlockBytes rs).length = rs.length + (rs.map fun r => popcount r.token).sum := by
  induction rs with
  | nil => rfl
  | cons r rs ih =>
    have hr : r.bytes.length = popcount r.token + 1 :=
      congrArg (· + 1) ((wf_iff r).mp (h r List.mem_cons_self))
    rw [compressedBlockBytes_cons, List.length_append, hr, ih fun q hq => h q (List.mem_cons_of_mem r hq),
      List.length_cons, List.map_cons, List.sum_cons]
    omega

/-- The 1 bits of some tokens are eight each at most. -/
theorem sum_popcount_le (rs : List GroupRecord) : (rs.map fun r => popcount r.token).sum ≤ 8 * rs.length := by
  induction rs with
  | nil => exact le_rfl
  | cons r rs ih =>
    have hr := popcount_le r.token
    rw [List.map_cons, List.sum_cons, List.length_cons]
    omega

/-! ### Tokens -/

theorem mem_groupOrder : ∀ k : BitIx, k ∈ groupOrder := by decide

/-- Setting one token bit (20_memory.md R46). -/
theorem tokenBit_or_bit (t : Byte) (j k : BitIx) :
    tokenBit (t ||| (1#8 <<< (7 - j.val))) k = (tokenBit t k || decide (j = k)) := by
  have hbit : (1#8 <<< (7 - j.val)).getLsbD (7 - k.val) = decide (j = k) := by
    revert j k
    decide
  rw [tokenBit, BitVec.getLsbD_or, hbit, tokenBit]

/-- Setting the token bits of those among `ks` for which `p` holds. -/
theorem tokenBit_foldl (p : BitIx → Bool) (ks : List BitIx) (t : Byte) (k : BitIx) :
    tokenBit (ks.foldl (fun t j => if p j then t ||| (1#8 <<< (7 - j.val)) else t) t) k =
      (tokenBit t k || (decide (k ∈ ks) && p k)) := by
  induction ks generalizing t with
  | nil => simp
  | cons j ks ih =>
    rw [List.foldl_cons, ih]
    cases hj : p j with
    | false =>
      by_cases e : k = j
      · simp [e, hj]
      · simp [e]
    | true =>
      rw [if_pos rfl, tokenBit_or_bit]
      by_cases e : k = j
      · simp [e, hj]
      · simp [e, Ne.symm e]

/-- A token bit of a block's group flags a byte that is not 0x00 (R112). -/
theorem tokenBit_tokenOf (b : Block) (g : GroupIx) (k : BitIx) : tokenBit (tokenOf b g) k = isLiteral b g k := by
  have hzero : tokenBit 0#8 k = false := BitVec.getLsbD_zero
  rw [tokenOf, tokenBit_foldl, hzero, decide_eq_true (mem_groupOrder k), Bool.false_or, Bool.true_and]

/-- Two tokens with the same eight bits are the same. -/
theorem token_ext {t u : Byte} (h : ∀ k, tokenBit t k = tokenBit u k) : t = u := by
  refine BitVec.eq_of_getLsbD_eq fun n hn => ?_
  have hk := h ⟨7 - n, by omega⟩
  rwa [tokenBit, tokenBit, Nat.sub_sub_self (Nat.le_of_lt_succ hn)] at hk

/-! ### The group records of a block -/

/-- The logical bytes of group `g` of a block (10_state.md R11). -/
def groupBytes (b : Block) (g : GroupIx) : List Byte := groupOrder.map fun k => b[blkIx g k]

/-- The bytes of a block are those of its groups, in order (10_state.md R11). -/
theorem flatten_groupBytes (b : Block) : (groups.map (groupBytes b)).flatten = b.toList := by
  have horder : (groups.map fun g => groupOrder.map (blkIx g)).flatten = blockOrder := by decide
  have hbytes : (groups.map (groupBytes b)).flatten = blockOrder.map fun j => b[j] := by
    rw [← horder, List.map_flatten, List.map_map]
    rfl
  rw [hbytes]
  refine List.ext_getElem (by simp [blockOrder]) fun n _ _ => ?_
  simp [blockOrder]

/-- The literals of a group are its bytes that are not 0x00 (R111). -/
theorem literalsOf_eq (b : Block) (g : GroupIx) : literalsOf b g = (groupBytes b g).filter (· ≠ 0#8) := by
  rw [literalsOf, groupBytes, List.filter_map]
  congr 2
  funext k
  rw [Bool.eq_iff_iff]
  simp [isLiteral]

/-- As many literals as the token of the group has 1 bits, none of them 0x00 (R68, R72). -/
theorem recordOf_canonical (b : Block) (g : GroupIx) : (recordOf b g).canonical = true := by
  refine (canonical_iff _).mpr ⟨(wf_iff _).mpr ?_, fun v hv => ?_⟩
  · have hbits : tokenBit (tokenOf b g) = isLiteral b g := funext (tokenBit_tokenOf b g)
    rw [recordOf, literalsOf, List.length_map, popcount, hbits]
  · rw [recordOf, literalsOf_eq] at hv
    simpa using List.of_mem_filter hv

theorem canonicalBlock_recordOf (b : Block) : canonicalBlock (groups.map (recordOf b)) = true := by
  refine (canonicalBlock_iff _).mpr ⟨rfl, fun r hr => ?_⟩
  obtain ⟨g, -, rfl⟩ := List.mem_map.mp hr
  exact recordOf_canonical b g

/-- The records of a block take a byte each, and one for each byte of the block that is not 0x00 (R69). -/
theorem compressedBytes_length (b : Block) :
    (compressedBytes b).length = 4 + (b.toList.filter (· ≠ 0#8)).length := by
  have hwf := ((compressedBlockWf_iff _).mp (compressedBlockWf_of_canonicalBlock (canonicalBlock_recordOf b))).2
  have hcount : ∀ g, popcount (recordOf b g).token = ((groupBytes b g).filter (· ≠ 0#8)).length := fun g => by
    rw [← (wf_iff _).mp ((canonical_iff _).mp (recordOf_canonical b g)).1, recordOf, literalsOf_eq]
  rw [compressedBytes, compressedBlockBytes_length hwf, ← flatten_groupBytes, List.filter_flatten, List.length_flatten,
    List.map_map, List.map_map, List.map_map]
  simp only [Function.comp_def, hcount, List.length_map]
  rfl

/-- Settles O23, for any well-formed records, then for the encoder's. -/
theorem compressedBlockIsFourToThirtySixBytes : Obligations.CompressedBlockIsFourToThirtySixBytes := by
  refine ⟨fun rs h => ?_, fun b => ⟨canonicalBlock_recordOf b, compressedBytes_length b⟩⟩
  obtain ⟨h4, hwf⟩ := (compressedBlockWf_iff rs).mp h
  have hlen := compressedBlockBytes_length hwf
  have hle := sum_popcount_le rs
  rw [h4] at hlen hle
  exact ⟨hlen, by omega, by omega⟩

end Sys2Proof.Proofs

/-! PROOFS. What BMI does is to decode one compressed block of the input (spec 30_encoding.md R66, R71;
42_sparse_bitmap.md R110, R115). -/

namespace Sys2Proof.Proofs

open Sys2Proof Sys2Proof.Machine Sys2Proof.Safety

/-! ### Filling the block -/

/-- The block with the bytes `vs` stored at the indices `js`. -/
def filled (js : List ByteIx) (vs : List Byte) (b : Block) : Block :=
  (js.zip vs).foldl (fun b p => b.set p.1 p.2) b

theorem filled_nil (b : Block) : filled [] [] b = b := rfl

theorem filled_cons (j : ByteIx) (js : List ByteIx) (v : Byte) (vs : List Byte) (b : Block) :
    filled (j :: js) (v :: vs) b = filled js vs (b.set j v) := rfl

theorem filled_append {js : List ByteIx} {vs : List Byte} (h : js.length = vs.length) (js' : List ByteIx)
    (vs' : List Byte) (b : Block) : filled (js ++ js') (vs ++ vs') b = filled js' vs' (filled js vs b) := by
  rw [filled, List.zip_append h, List.foldl_append]
  rfl

theorem filled_getElem_of_notMem {js : List ByteIx} {j : ByteIx} (h : j ∉ js) (vs : List Byte) (b : Block) :
    (filled js vs b)[j] = b[j] := by
  induction js generalizing vs b with
  | nil => rfl
  | cons i js ih =>
    obtain ⟨hne, hrest⟩ := List.ne_and_not_mem_of_not_mem_cons h
    cases vs with
    | nil => rfl
    | cons v vs =>
      rw [filled_cons, ih hrest]
      exact Vector.getElem_set_ne _ _ fun e => hne (Fin.ext e.symm)

/-- At distinct indices each byte stands where it was stored. -/
theorem filled_getElem {js : List ByteIx} (hjs : js.Nodup) {vs : List Byte} (b : Block) {n : Nat} (hj : n < js.length)
    (hv : n < vs.length) : (filled js vs b)[js[n]] = vs[n] := by
  induction js generalizing vs b n with
  | nil => cases hj
  | cons j js ih =>
    obtain ⟨hnot, hjs⟩ := List.nodup_cons.mp hjs
    cases vs with
    | nil => cases hv
    | cons v vs =>
      cases n with
      | zero =>
        rw [filled_cons]
        exact (filled_getElem_of_notMem hnot vs _).trans (Vector.getElem_set_self _)
      | succ n => exact ih hjs (b.set j v) (Nat.lt_of_succ_lt_succ hj) (Nat.lt_of_succ_lt_succ hv)

/-- A block with all its bytes stored is the block of those bytes, whatever it held (R118). -/
theorem filled_blockOrder {vs : List Byte} (h : vs.length = 32) (b : Block) :
    filled blockOrder vs b = blockOfList vs := by
  refine Vector.ext fun n hn => ?_
  have hget := filled_getElem (List.nodup_finRange 32) b (n := n) (by simpa using hn) (by omega : n < vs.length)
  simp only [List.getElem_finRange, Fin.getElem_fin] at hget
  have hlt : n < vs.length := by omega
  simpa [blockOrder, blockOfList, List.getD, hlt] using hget

/-! ### The indices of groups -/

/-- The indices of the bytes `ks` of a group. -/
def groupIxs (g : GroupIx) (ks : List BitIx) : List ByteIx := ks.map (blkIx g)

/-- The indices of the bytes of the groups `gs`. -/
def groupsIxs (gs : List GroupIx) : List ByteIx := (gs.map fun g => groupIxs g groupOrder).flatten

theorem groupsIxs_cons (g : GroupIx) (gs : List GroupIx) :
    groupsIxs (g :: gs) = groupIxs g groupOrder ++ groupsIxs gs := rfl

theorem groupsIxs_groups : groupsIxs groups = blockOrder := by decide

/-- Zero-filling bytes of a group (R115). -/
theorem zeroBytes_eq (g : GroupIx) (ks : List BitIx) (s : State) :
    zeroBytes g ks s = { s with blk := filled (groupIxs g ks) (List.replicate ks.length 0#8) s.blk } := by
  induction ks generalizing s with
  | nil => rfl
  | cons k ks ih => exact ih (setByte s (blkIx g k) 0#8)

/-- Zero-filling the groups `gs` (R115). -/
def zeroGroups (gs : List GroupIx) (s : State) : State := gs.foldl (fun s g => zeroBytes g groupOrder s) s

theorem zeroGroups_cons (g : GroupIx) (gs : List GroupIx) (s : State) :
    zeroGroups (g :: gs) s = zeroGroups gs (zeroBytes g groupOrder s) := rfl

theorem zeroGroups_eq (gs : List GroupIx) (s : State) :
    zeroGroups gs s = { s with blk := filled (groupsIxs gs) (List.replicate (8 * gs.length) 0#8) s.blk } := by
  induction gs generalizing s with
  | nil => rfl
  | cons g gs ih =>
    rw [zeroGroups_cons, ih, zeroBytes_eq, List.length_cons, Nat.mul_succ, Nat.add_comm, List.replicate_add,
      groupsIxs_cons, filled_append rfl]
    rfl

/-! ### The source, as the input left -/

theorem exhausted_eq_false {s : State} (h : s.srcPos < s.srcLen) : exhausted s = false := by
  simpa [exhausted, BitVec.not_le] using h

/-- The input left is settled by the source memory, SRC_LEN and SRC_POS. -/
theorem inputLeft_congr {s t : State} (hsrc : t.src = s.src) (hlen : t.srcLen = s.srcLen) (hpos : t.srcPos = s.srcPos) :
    inputLeft t = inputLeft s := by
  simp only [inputLeft, remaining, memRead, hsrc, hlen, hpos]

theorem inputLeft_eq_nil_iff (s : State) : inputLeft s = [] ↔ s.srcLen ≤ s.srcPos := by
  rw [← List.length_eq_zero_iff, inputLeft_length, remaining_eq_zero_iff]

/-- The first byte left is the one at SRC_POS, and the others are left once the cursor has moved past it (R81). -/
theorem inputLeft_eq_cons {s : State} (h : s.srcPos < s.srcLen) :
    inputLeft s = memRead s s.srcPos.toNat :: inputLeft (advanceSrc s) := by
  have hone : 1 ≤ remaining s := by
    rw [Nat.one_le_iff_ne_zero, Ne, remaining_eq_zero_iff]
    exact BitVec.not_le.mpr h
  have hlen : 0 < (inputLeft s).length := (inputLeft_length s).symm ▸ hone
  have hfirst : (inputLeft s)[0] = memRead s s.srcPos.toNat := by simp [inputLeft]
  rw [inputLeft_drop (t := advanceSrc s) hone rfl rfl rfl, ← hfirst]
  exact (List.getElem_cons_drop hlen).symm

/-! ### What the stream format takes from its input -/

theorem groupOfInput_zero {tok : Byte} {k : BitIx} (hk : tokenBit tok k = false) (ks : List BitIx) (input : List Byte) :
    groupOfInput tok (k :: ks) input = (0#8 :: (groupOfInput tok ks input).1, (groupOfInput tok ks input).2) := by
  simp [groupOfInput, hk]

theorem groupOfInput_literal {tok : Byte} {k : BitIx} (hk : tokenBit tok k = true) (ks : List BitIx) (v : Byte)
    (input : List Byte) :
    groupOfInput tok (k :: ks) (v :: input) = (v :: (groupOfInput tok ks input).1, (groupOfInput tok ks input).2) := by
  simp [groupOfInput, hk]

theorem groupOfInput_end {tok : Byte} {k : BitIx} (hk : tokenBit tok k = true) (ks : List BitIx) :
    groupOfInput tok (k :: ks) [] = (List.replicate (ks.length + 1) 0#8, [], true) := by
  simp [groupOfInput, hk]

theorem groupOfInput_length (tok : Byte) (ks : List BitIx) (input : List Byte) :
    (groupOfInput tok ks input).1.length = ks.length := by
  induction ks generalizing input with
  | nil => rfl
  | cons k ks ih =>
    cases hk : tokenBit tok k with
    | false => simp [groupOfInput_zero hk, ih]
    | true =>
      cases input with
      | nil => simp [groupOfInput_end hk]
      | cons v input => simp [groupOfInput_literal hk, ih]

/-- What is left after a group is an end of the input. -/
theorem groupOfInput_suffix (tok : Byte) (ks : List BitIx) (input : List Byte) :
    (groupOfInput tok ks input).2.1 <:+ input := by
  induction ks generalizing input with
  | nil => exact List.suffix_rfl
  | cons k ks ih =>
    cases hk : tokenBit tok k with
    | false =>
      rw [groupOfInput_zero hk]
      exact ih input
    | true =>
      cases input with
      | nil =>
        exact (groupOfInput_end hk ks).symm ▸ List.suffix_rfl
      | cons v input =>
        rw [groupOfInput_literal hk]
        exact (ih input).trans (List.suffix_cons v input)

/-- Where the input ends inside a group, none is left (R115). -/
theorem groupOfInput_truncated {tok : Byte} {ks : List BitIx} {input : List Byte}
    (h : (groupOfInput tok ks input).2.2 = true) : (groupOfInput tok ks input).2.1 = [] := by
  induction ks generalizing input with
  | nil => cases h
  | cons k ks ih =>
    cases hk : tokenBit tok k with
    | false =>
      rw [groupOfInput_zero hk] at h ⊢
      exact ih h
    | true =>
      cases input with
      | nil => rw [groupOfInput_end hk]
      | cons v input =>
        rw [groupOfInput_literal hk] at h ⊢
        exact ih h

theorem groupsOfInput_nil (n : Nat) :
    groupsOfInput (n + 1) [] = (List.replicate (8 * (n + 1)) 0#8, [], true) := rfl

theorem groupsOfInput_truncated {tok : Byte} {input : List Byte} (n : Nat)
    (h : (groupOfInput tok groupOrder input).2.2 = true) :
    groupsOfInput (n + 1) (tok :: input) =
      ((groupOfInput tok groupOrder input).1 ++ List.replicate (8 * n) 0#8, [], true) := by
  simp [groupsOfInput, h]

theorem groupsOfInput_complete {tok : Byte} {input : List Byte} (n : Nat)
    (h : (groupOfInput tok groupOrder input).2.2 = false) :
    groupsOfInput (n + 1) (tok :: input) =
      ((groupOfInput tok groupOrder input).1 ++ (groupsOfInput n (groupOfInput tok groupOrder input).2.1).1,
        (groupsOfInput n (groupOfInput tok groupOrder input).2.1).2) := by
  simp [groupsOfInput, h]

theorem groupsOfInput_length (n : Nat) (input : List Byte) : (groupsOfInput n input).1.length = 8 * n := by
  induction n generalizing input with
  | zero => rfl
  | succ n ih =>
    cases input with
    | nil => rw [groupsOfInput_nil, List.length_replicate]
    | cons tok input =>
      have hgroup : (groupOfInput tok groupOrder input).1.length = 8 := groupOfInput_length tok groupOrder input
      cases h : (groupOfInput tok groupOrder input).2.2 with
      | true =>
        rw [groupsOfInput_truncated n h, List.length_append, hgroup, List.length_replicate, Nat.mul_succ, Nat.add_comm]
      | false => rw [groupsOfInput_complete n h, List.length_append, hgroup, ih, Nat.mul_succ, Nat.add_comm]

/-- What is left after some groups is an end of the input. -/
theorem groupsOfInput_suffix (n : Nat) (input : List Byte) : (groupsOfInput n input).2.1 <:+ input := by
  induction n generalizing input with
  | zero => exact List.suffix_rfl
  | succ n ih =>
    cases input with
    | nil => exact List.suffix_rfl
    | cons tok input =>
      cases h : (groupOfInput tok groupOrder input).2.2 with
      | true =>
        rw [groupsOfInput_truncated n h]
        exact List.nil_suffix
      | false =>
        rw [groupsOfInput_complete n h]
        exact (ih _).trans ((groupOfInput_suffix tok groupOrder input).trans (List.suffix_cons tok input))

/-- Groups that are decoded from some input use its first byte at least. -/
theorem groupsOfInput_uses (n : Nat) (tok : Byte) (input : List Byte) :
    (groupsOfInput (n + 1) (tok :: input)).2.1.length ≤ input.length := by
  cases h : (groupOfInput tok groupOrder input).2.2 with
  | true =>
    rw [groupsOfInput_truncated n h]
    exact Nat.zero_le _
  | false =>
    rw [groupsOfInput_complete n h]
    exact ((groupsOfInput_suffix n _).trans (groupOfInput_suffix tok groupOrder input)).length_le

theorem blockOfInput_length (input : List Byte) : (blockOfInput input).1.length = 32 := groupsOfInput_length 4 input

theorem blockOfInput_suffix (input : List Byte) : (blockOfInput input).2.1 <:+ input := by
  rw [blockOfInput]
  exact groupsOfInput_suffix 4 input

/-- A block decoded from some input uses its first byte at least. -/
theorem blockOfInput_uses (v : Byte) (input : List Byte) : (blockOfInput (v :: input)).2.1.length ≤ input.length := by
  rw [blockOfInput]
  exact groupsOfInput_uses 3 v input

/-! ### The state after bytes of a block are decoded -/

/-- Where BMI stands, and in which state, once the bytes at the indices `js` of the block are decoded with the result
`r`: the bytes, the input left, and whether the input ended. -/
def afterInput (s : State) (js : List ByteIx) (r : List Byte × List Byte × Bool) : Bool × State :=
  (r.2.2, { s with
    blk := filled js r.1 s.blk
    srcPos := s.srcPos + BitVec.ofNat 32 ((inputLeft s).length - r.2.1.length)
    trunc := s.trunc || r.2.2 })

theorem afterInput_nil (s : State) : afterInput s [] ([], inputLeft s, false) = (false, s) := by
  simp [afterInput, filled_nil]

theorem inputLeft_afterInput {s : State} {r : List Byte × List Byte × Bool} (hr : r.2.1 <:+ inputLeft s)
    (js : List ByteIx) : inputLeft (afterInput s js r).2 = r.2.1 := by
  obtain ⟨used, hused⟩ := hr
  have hlen : (inputLeft s).length - r.2.1.length = used.length := by
    rw [← hused, List.length_append, Nat.add_sub_cancel]
  have hn : used.length ≤ remaining s := by
    rw [← inputLeft_length, ← hused, List.length_append]
    exact Nat.le_add_right _ _
  have hdrop := inputLeft_drop (t := (afterInput s js r).2) hn rfl rfl (by simp only [afterInput, hlen])
  rw [hdrop, ← hused, List.drop_left]

/-- Decoding goes on, from the input left, in the state it has reached. -/
theorem afterInput_append {s : State} {js : List ByteIx} {r q : List Byte × List Byte × Bool}
    (hr : r.2.1 <:+ inputLeft s) (hjs : js.length = r.1.length) (hgo : r.2.2 = false) (hq : q.2.1 <:+ r.2.1)
    (js' : List ByteIx) :
    afterInput (afterInput s js r).2 js' q = afterInput s (js ++ js') (r.1 ++ q.1, q.2) := by
  have hleft := inputLeft_afterInput hr js
  have hle := hr.length_le
  have hle' := hq.length_le
  have hmoved : (inputLeft s).length - q.2.1.length =
      (inputLeft s).length - r.2.1.length + (r.2.1.length - q.2.1.length) := by omega
  rw [afterInput, hleft]
  simp only [afterInput, filled_append hjs, hmoved, BitVec.ofNat_add, BitVec.add_assoc, hgo, Bool.or_false]

/-! ### The groups of BMI -/

/-- Once input has stopped, the bytes of a group become 0x00 (R115). -/
theorem foldl_bmiByte_stopped (g : GroupIx) (tok : Byte) (ks : List BitIx) (s : State) :
    ks.foldl (bmiByte g tok) (true, s) = (true, zeroBytes g ks s) := by
  induction ks generalizing s with
  | nil => rfl
  | cons k ks ih => exact ih (setByte s (blkIx g k) 0#8)

theorem foldl_bmiGroup_stopped (gs : List GroupIx) (s : State) :
    gs.foldl bmiGroup (true, s) = (true, zeroGroups gs s) := by
  induction gs generalizing s with
  | nil => rfl
  | cons g gs ih =>
    have hgroup : bmiGroup (true, s) g = (true, zeroBytes g groupOrder s) := foldl_bmiByte_stopped g 0#8 groupOrder s
    rw [List.foldl_cons, hgroup, ih, zeroGroups_cons]

theorem bmiByte_zero (g : GroupIx) {tok : Byte} {k : BitIx} (hk : tokenBit tok k = false) (s : State) :
    bmiByte g tok (false, s) k = (false, setByte s (blkIx g k) 0#8) := by simp [bmiByte, hk]

theorem bmiByte_exhausted (g : GroupIx) {tok : Byte} {k : BitIx} (hk : tokenBit tok k = true) {s : State}
    (h : s.srcLen ≤ s.srcPos) : bmiByte g tok (false, s) k = (true, setByte (setTrunc s) (blkIx g k) 0#8) := by
  simp [bmiByte, hk, exhausted, h, stopTruncated]

theorem bmiByte_literal (g : GroupIx) {tok : Byte} {k : BitIx} (hk : tokenBit tok k = true) {s : State}
    (h : s.srcPos < s.srcLen) :
    bmiByte g tok (false, s) k = (false, setByte (advanceSrc s) (blkIx g k) (memRead s s.srcPos.toNat)) := by
  simp [bmiByte, hk, exhausted_eq_false h, readSrc]

/-- The bytes of a group, whose token has been read, are those the stream format gives (R71, R110). -/
theorem foldl_bmiByte_eq (g : GroupIx) (tok : Byte) (ks : List BitIx) (s : State) :
    ks.foldl (bmiByte g tok) (false, s) = afterInput s (groupIxs g ks) (groupOfInput tok ks (inputLeft s)) := by
  induction ks generalizing s with
  | nil => exact (afterInput_nil s).symm
  | cons k ks ih =>
    rw [List.foldl_cons]
    cases hk : tokenBit tok k with
    | false =>
      have hzero : (false, setByte s (blkIx g k) 0#8) = afterInput s [blkIx g k] ([0#8], inputLeft s, false) := by
        simp [afterInput, filled, setByte]
      have hinput : inputLeft (setByte s (blkIx g k) 0#8) = inputLeft s := rfl
      have hgroup : groupOfInput tok (k :: ks) (inputLeft s) =
          ([0#8] ++ (groupOfInput tok ks (inputLeft s)).1, (groupOfInput tok ks (inputLeft s)).2) :=
        groupOfInput_zero hk ks _
      rw [bmiByte_zero g hk, ih, hinput, hgroup]
      exact (congrArg (fun c => afterInput c.2 _ _) hzero).trans
        (afterInput_append List.suffix_rfl rfl rfl (groupOfInput_suffix tok ks _) _)
    | true =>
      by_cases h : s.srcPos < s.srcLen
      · have hinput := inputLeft_eq_cons h
        have hliteral : (false, setByte (advanceSrc s) (blkIx g k) (memRead s s.srcPos.toNat)) =
            afterInput s [blkIx g k] ([memRead s s.srcPos.toNat], inputLeft (advanceSrc s), false) := by
          simp [afterInput, filled, setByte, advanceSrc, hinput]
        have hleft : inputLeft (setByte (advanceSrc s) (blkIx g k) (memRead s s.srcPos.toNat)) =
            inputLeft (advanceSrc s) := rfl
        have hgroup : groupOfInput tok (k :: ks) (inputLeft s) =
            ([memRead s s.srcPos.toNat] ++ (groupOfInput tok ks (inputLeft (advanceSrc s))).1,
              (groupOfInput tok ks (inputLeft (advanceSrc s))).2) :=
          hinput ▸ groupOfInput_literal hk ks _ _
        rw [bmiByte_literal g hk h, ih, hleft, hgroup]
        exact (congrArg (fun c => afterInput c.2 _ _) hliteral).trans
          (afterInput_append (hinput ▸ List.suffix_cons _ _) rfl rfl (groupOfInput_suffix tok ks _) _)
      · have hend := BitVec.not_lt.mp h
        have hinput := (inputLeft_eq_nil_iff s).mpr hend
        rw [bmiByte_exhausted g hk hend, foldl_bmiByte_stopped, zeroBytes_eq, hinput, groupOfInput_end hk]
        simp [afterInput, hinput, List.replicate_succ, filled_cons, groupIxs, setTrunc, setByte]

/-- A group whose token is there is that token, then its bytes (R110). -/
theorem bmiGroup_token (g : GroupIx) {s : State} (h : s.srcPos < s.srcLen) :
    bmiGroup (false, s) g = groupOrder.foldl (bmiByte g (memRead s s.srcPos.toNat)) (false, advanceSrc s) := by
  have htoken : bmiToken (false, s) = (memRead s s.srcPos.toNat, false, advanceSrc s) := by
    simp [bmiToken, exhausted_eq_false h, readSrc]
  rw [bmiGroup, htoken]

/-- Where the source is exhausted, the groups still due become 0x00 (R115). -/
theorem foldl_bmiGroup_exhausted (gs : List GroupIx) {s : State} (hgs : gs ≠ []) (h : s.srcLen ≤ s.srcPos) :
    gs.foldl bmiGroup (false, s) = (true, zeroGroups gs (setTrunc s)) := by
  cases gs with
  | nil => exact absurd rfl hgs
  | cons g gs =>
    have htoken : bmiToken (false, s) = (0#8, true, setTrunc s) := by simp [bmiToken, exhausted, h, stopTruncated]
    rw [List.foldl_cons, bmiGroup, htoken, foldl_bmiByte_stopped, foldl_bmiGroup_stopped, zeroGroups_cons]

/-- The token of a group moves past one byte of the input and stores nothing. -/
theorem afterInput_advanceSrc {s : State} (h : s.srcPos < s.srcLen) (js : List ByteIx)
    {r : List Byte × List Byte × Bool} (hr : r.2.1 <:+ inputLeft (advanceSrc s)) :
    afterInput (advanceSrc s) js r = afterInput s js r := by
  have hinput := inputLeft_eq_cons h
  have htoken : (false, advanceSrc s) = afterInput s [] ([], inputLeft (advanceSrc s), false) := by
    simp [afterInput, filled, advanceSrc, hinput]
  exact (congrArg (fun c => afterInput c.2 js r) htoken).trans
    (afterInput_append (hinput ▸ List.suffix_cons _ _) rfl rfl hr js)

/-- What the stream format gives for the group whose token is at SRC_POS (R71). -/
def groupAtCursor (s : State) : List Byte × List Byte × Bool :=
  groupOfInput (memRead s s.srcPos.toNat) groupOrder (inputLeft (advanceSrc s))

theorem groupAtCursor_length (s : State) (g : GroupIx) : (groupIxs g groupOrder).length = (groupAtCursor s).1.length :=
  (groupOfInput_length _ groupOrder _).symm

theorem groupAtCursor_suffix {s : State} (h : s.srcPos < s.srcLen) : (groupAtCursor s).2.1 <:+ inputLeft s := by
  rw [inputLeft_eq_cons h]
  exact (groupOfInput_suffix _ groupOrder _).trans (List.suffix_cons _ _)

/-- A group whose token is there is what the stream format gives for it (R71, R110). -/
theorem bmiGroup_eq (g : GroupIx) {s : State} (h : s.srcPos < s.srcLen) :
    bmiGroup (false, s) g = afterInput s (groupIxs g groupOrder) (groupAtCursor s) := by
  rw [bmiGroup_token g h, foldl_bmiByte_eq]
  exact afterInput_advanceSrc h _ (groupOfInput_suffix _ groupOrder _)

/-- The groups of BMI are those the stream format gives (R66, R71, R110, R115). -/
theorem foldl_bmiGroup_eq (gs : List GroupIx) (s : State) :
    gs.foldl bmiGroup (false, s) = afterInput s (groupsIxs gs) (groupsOfInput gs.length (inputLeft s)) := by
  induction gs generalizing s with
  | nil => exact (afterInput_nil s).symm
  | cons g gs ih =>
    by_cases h : s.srcPos < s.srcLen
    · have hsuffix := groupAtCursor_suffix h
      have hlen := groupAtCursor_length s g
      rw [List.foldl_cons, bmiGroup_eq g h, List.length_cons, groupsIxs_cons]
      cases hstop : (groupAtCursor s).2.2 with
      | true =>
        have hnone : (groupAtCursor s).2.1 = [] := groupOfInput_truncated hstop
        have hinput : groupsOfInput (gs.length + 1) (inputLeft s) =
            ((groupAtCursor s).1 ++ List.replicate (8 * gs.length) 0#8, [], true) := by
          rw [inputLeft_eq_cons h, groupsOfInput_truncated _ hstop, groupAtCursor]
        rw [hinput, afterInput, hstop, foldl_bmiGroup_stopped, zeroGroups_eq, hnone]
        simp [afterInput, filled_append hlen]
      | false =>
        have hgo : afterInput s (groupIxs g groupOrder) (groupAtCursor s) =
            (false, (afterInput s (groupIxs g groupOrder) (groupAtCursor s)).2) := Prod.ext hstop rfl
        have hinput : groupsOfInput (gs.length + 1) (inputLeft s) =
            ((groupAtCursor s).1 ++ (groupsOfInput gs.length (groupAtCursor s).2.1).1,
              (groupsOfInput gs.length (groupAtCursor s).2.1).2) := by
          rw [inputLeft_eq_cons h, groupsOfInput_complete _ hstop, groupAtCursor]
        rw [hinput, hgo, ih, inputLeft_afterInput hsuffix]
        exact afterInput_append hsuffix hlen hstop (groupsOfInput_suffix _ _) _
    · have hend := BitVec.not_lt.mp h
      have hinput := (inputLeft_eq_nil_iff s).mpr hend
      rw [foldl_bmiGroup_exhausted _ (List.cons_ne_nil g gs) hend, zeroGroups_eq, hinput, List.length_cons,
        groupsOfInput_nil]
      simp [afterInput, hinput, setTrunc]

/-- BMI decodes one compressed block of the input, and counts it if there was input (R110, R115). -/
theorem bmiStage_eq (s : State) :
    bmiStage s = { s with
      blk := blockOfList (blockOfInput (inputLeft s)).1
      srcPos := s.srcPos + BitVec.ofNat 32 ((inputLeft s).length - (blockOfInput (inputLeft s)).2.1.length)
      blkCnt := s.blkCnt + (if s.srcPos < s.srcLen then 1#32 else 0#32)
      trunc := s.trunc || (blockOfInput (inputLeft s)).2.2 } := by
  have hblock : ∀ b, filled (groupsIxs groups) (blockOfInput (inputLeft s)).1 b =
      blockOfList (blockOfInput (inputLeft s)).1 := by
    rw [groupsIxs_groups]
    exact filled_blockOrder (blockOfInput_length (inputLeft s))
  have hstage : bmiStage s = (afterInput (if exhausted s then s else countBlock s) (groupsIxs groups)
      (blockOfInput (inputLeft (if exhausted s then s else countBlock s)))).2 :=
    congrArg Prod.snd (foldl_bmiGroup_eq groups _)
  by_cases h : s.srcPos < s.srcLen
  · have hexh := exhausted_eq_false h
    have hinput : inputLeft (countBlock s) = inputLeft s := rfl
    rw [hexh, if_neg Bool.false_ne_true, hinput] at hstage
    simp only [hstage, afterInput, hinput, countBlock_blk, hblock, if_pos h]
    rfl
  · have hexh := (exhausted_iff s).mpr (BitVec.not_lt.mp h)
    rw [hexh, if_pos rfl] at hstage
    simp only [hstage, afterInput, hblock, if_neg h, BitVec.add_zero]

/-- The input left after BMI is what the block leaves of it (R114). -/
theorem inputLeft_bmiStage (s : State) : inputLeft (bmiStage s) = (blockOfInput (inputLeft s)).2.1 := by
  have hleft := inputLeft_afterInput (blockOfInput_suffix (inputLeft s)) []
  have hstage := bmiStage_eq s
  generalize blockOfInput (inputLeft s) = r at hleft hstage ⊢
  rw [← hleft, hstage]
  exact inputLeft_congr rfl rfl rfl

end Sys2Proof.Proofs

/-! PROOFS. Running the bytes of the compressed stream one by one is BMI (spec 30_encoding.md R66, R69, R71;
42_sparse_bitmap.md R110, R115). -/

namespace Sys2Proof.Proofs

open Sys2Proof Sys2Proof.Machine Sys2Proof.Safety

/-! ### What BMI does from a place in the block on -/

/-- The state with the engine idle at the beginning of a block, as the end of BMI leaves it (10_state.md R22). -/
def finished (s : State) : State := complete { s with stream := .tokenDue 0 }

theorem finished_of_tokenDue_zero {s : State} (h : s.stream = .tokenDue 0) : finished s = complete s := by
  rw [finished, ← h]

/-- BMI pays no regard to BUSY and DONE (10_state.md R35). -/
theorem bmiStage_complete (s : State) : bmiStage (complete s) = complete (bmiStage s) := by
  have hinput : inputLeft (complete s) = inputLeft s := rfl
  rw [bmiStage_eq, bmiStage_eq, hinput]
  rfl

/-- The part of BMI that is still to be done at a place in the stream (R71, R110). -/
def restOfBlock (pos : StreamPos) (s : State) : State :=
  match pos with
  | .tokenDue g => ((groups.drop g.val).foldl bmiGroup (false, if exhausted s then s else beginBlock g s)).2
  | .literalDue g k tok =>
    ((groups.drop (g.val + 1)).foldl bmiGroup ((groupOrder.drop k.val).foldl (bmiByte g tok) (false, s))).2

theorem restOfBlock_tokenDue_zero (s : State) : restOfBlock (.tokenDue 0) s = bmiStage s := rfl

/-- The bytes a block may still take from a place on: a token and eight literals for a group (R69). -/
def bytesDue : StreamPos → Nat
  | .tokenDue g => 9 * (4 - g.val)
  | .literalDue g k _ => 9 * (3 - g.val) + (8 - k.val)

theorem bytesDue_pos (pos : StreamPos) : 0 < bytesDue pos := by
  cases pos <;> simp only [bytesDue] <;> omega

/-- From `t` on the block ends in `r`: it has ended, or the engine is inside it with `m` bytes due at most. -/
inductive EndsIn (m : Nat) (r : State) : State → Prop
  | here : EndsIn m r r
  | later {t : State} : t.busy = true → t.stream.wf = true → bytesDue t.stream ≤ m →
      restOfBlock t.stream (finished t) = r → EndsIn m r t

theorem EndsIn.mono {m n : Nat} {r t : State} (h : EndsIn m r t) (hmn : m ≤ n) : EndsIn n r t := by
  cases h with
  | here => exact .here
  | later hb hwf hdue hrest => exact .later hb hwf (hdue.trans hmn) hrest

/-! ### The bytes of a group -/

/-- An end of the list of the bytes of a group begins with the byte it is numbered by. -/
theorem groupOrder_drop {k : BitIx} {ks : List BitIx} (h : k :: ks <:+ groupOrder) :
    groupOrder.drop k.val = k :: ks := by
  have htails : ∀ l ∈ groupOrder.tails, ∀ j ∈ l.head?, groupOrder.drop j.val = l := by decide
  exact htails _ ((List.mem_tails _ _).mpr h) k rfl

theorem groupOrder_drop_eq_cons : ∀ k : BitIx, groupOrder.drop k.val = k :: groupAfter k := by decide

theorem groupAfter_suffix (k : BitIx) : groupAfter k <:+ groupOrder := List.drop_suffix _ _

theorem groupAfter_length (k : BitIx) : (groupAfter k).length = 7 - k.val := by
  rw [groupAfter, List.length_drop, Nat.sub_add_eq, Nat.sub_right_comm]
  rfl

theorem groups_drop_eq_cons : ∀ g : GroupIx, groups.drop g.val = g :: groups.drop (g.val + 1) := by decide

/-- Past the last byte of a group the next token is due, or the block has ended (R71). -/
theorem endGroup_endsIn (g : GroupIx) {s : State} (hb : s.busy = true) :
    EndsIn (9 * (3 - g.val)) ((groups.drop (g.val + 1)).foldl bmiGroup (false, finished s)).2 (endGroup g s) := by
  by_cases hg : g = 3
  · subst hg
    exact .here
  · have hnext : (g + 1).val = g.val + 1 ∧ g + 1 ≠ 0 := by
      revert g
      decide
    rw [endGroup, if_neg hg]
    refine .later hb rfl ?_ ?_
    · simp only [bytesDue, hnext.1]
      omega
    · simp only [restOfBlock, beginBlock, hnext.2, hnext.1, if_false, ite_self]
      rfl

/-- Seeking the next literal is what BMI does for the bytes whose token bit is 0 (R71). -/
theorem seekLiteral_endsIn (g : GroupIx) (tok : Byte) {ks : List BitIx} (hks : ks <:+ groupOrder) {s : State}
    (hb : s.busy = true) :
    EndsIn (9 * (3 - g.val) + ks.length)
      ((groups.drop (g.val + 1)).foldl bmiGroup (ks.foldl (bmiByte g tok) (false, finished s))).2
      (seekLiteral g tok ks s) := by
  induction ks generalizing s with
  | nil => exact endGroup_endsIn g hb
  | cons k ks ih =>
    cases hk : tokenBit tok k with
    | true =>
      have hdrop := groupOrder_drop hks
      have hlen : 8 - k.val = ks.length + 1 := by simpa [groupOrder] using congrArg List.length hdrop
      rw [seekLiteral, if_pos hk]
      refine .later hb hk ?_ ?_
      · simp only [bytesDue, hlen, List.length_cons, le_refl]
      · simp only [restOfBlock, hdrop]
        rfl
    | false =>
      rw [seekLiteral, hk, if_neg Bool.false_ne_true, List.foldl_cons, bmiByte_zero g hk]
      exact (ih ((List.suffix_cons k ks).trans hks) (s := setByte s (blkIx g k) 0#8) hb).mono (by simp)

/-! ### A step inside a block -/

/-- The token of group 0 counts the block (10_state.md R17). -/
theorem beginBlock_eq (g : GroupIx) (s : State) :
    beginBlock g s = { s with blkCnt := s.blkCnt + (if g = 0 then 1#32 else 0#32) } := by
  by_cases hg : g = 0 <;> simp [beginBlock, hg, countBlock]

theorem finished_zeroGroups (gs : List GroupIx) (s : State) :
    finished (zeroGroups gs s) = zeroGroups gs (finished s) := by
  rw [zeroGroups_eq, zeroGroups_eq]
  rfl

theorem finished_zeroBytes (g : GroupIx) (ks : List BitIx) (s : State) :
    finished (zeroBytes g ks s) = zeroBytes g ks (finished s) := by
  rw [zeroBytes_eq, zeroBytes_eq]
  rfl

/-- Where the source is exhausted, the end of the block is what BMI makes of it (R115). -/
theorem truncateBlock_eq {s : State} (hwf : s.stream.wf = true) (h : s.srcLen ≤ s.srcPos) :
    truncateBlock s = restOfBlock s.stream (finished s) := by
  have hexh : exhausted (finished s) = true := (exhausted_iff s).mpr h
  rw [truncateBlock]
  cases hs : s.stream with
  | tokenDue g =>
    have hgs : groups.drop g.val ≠ [] := groups_drop_eq_cons g ▸ List.cons_ne_nil _ _
    simp only [restOfBlock, hexh, if_true, foldl_bmiGroup_exhausted _ hgs (s := finished s) h]
    exact finished_zeroGroups _ (setTrunc s)
  | literalDue g k tok =>
    have hk : tokenBit tok k = true := by rwa [hs] at hwf
    simp only [restOfBlock, zeroRest, groupOrder_drop_eq_cons k, List.foldl_cons,
      bmiByte_exhausted g hk (s := finished s) h, foldl_bmiByte_stopped, foldl_bmiGroup_stopped]
    exact (finished_zeroGroups _ _).trans (congrArg (zeroGroups _) (finished_zeroBytes g (k :: groupAfter k) _))

/-- Inside a block one step takes one byte of those due, or meets the end of the source, as BMI does (R71, R115). -/
theorem step_endsIn {s : State} (hb : s.busy = true) (hwf : s.stream.wf = true) :
    ∃ t, step s = .next t ∧ EndsIn (bytesDue s.stream - 1) (restOfBlock s.stream (finished s)) t := by
  rw [step, if_pos hb, streamTurn]
  by_cases h : s.srcPos < s.srcLen
  · have hexh := exhausted_eq_false h
    have hexh' : exhausted (finished s) = false := hexh
    rw [hexh, if_neg Bool.false_ne_true, fetchByte]
    cases hs : s.stream with
    | tokenDue g =>
      rw [decodeElement, exec_token hs]
      refine ⟨_, rfl, ?_⟩
      have hbegin := beginBlock_eq g
      have hgroup := bmiGroup_token g (s := beginBlock g (finished s)) (by rwa [hbegin])
      have hseek := seekLiteral_endsIn g (memRead s s.srcPos.toNat) List.suffix_rfl
        (s := advanceSrc (beginBlock g s)) (by rwa [hbegin])
      simp only [restOfBlock, hexh', groups_drop_eq_cons g, List.foldl_cons, Bool.false_eq_true, if_false, hgroup]
      simp only [hbegin] at hseek ⊢
      exact hseek.mono (by simp only [bytesDue, groupOrder, List.length_cons, List.length_nil]; omega)
    | literalDue g k tok =>
      have hk : tokenBit tok k = true := by rwa [hs] at hwf
      rw [decodeElement, exec_literal hs]
      refine ⟨_, rfl, ?_⟩
      have hseek := seekLiteral_endsIn g tok (groupAfter_suffix k)
        (s := setByte (advanceSrc s) (blkIx g k) (memRead s s.srcPos.toNat)) hb
      simp only [restOfBlock, groupOrder_drop_eq_cons k, List.foldl_cons, bmiByte_literal g hk (s := finished s) h]
      exact hseek.mono (by rw [groupAfter_length, bytesDue]; omega)
  · have hend := BitVec.not_lt.mp h
    rw [(exhausted_iff s).mpr hend, if_pos rfl, truncateBlock_eq hwf hend]
    exact ⟨_, rfl, .here⟩

/-! ### The run of a block -/

theorem run_succ_of_step {s t : State} (h : step s = .next t) (n : Nat) :
    Host.Core.run Sys2Proof.core (n + 1) s = Host.Core.run Sys2Proof.core n t := by
  have hcore : Sys2Proof.core.step s = .next t := h
  simp only [Host.Core.run, hcore]

/-- From any place in a block the steps left, at most one for each byte due, end where the rest of BMI does. -/
theorem run_restOfBlock (m : Nat) {s : State} (hb : s.busy = true) (hwf : s.stream.wf = true)
    (hm : bytesDue s.stream ≤ m) :
    ∃ n ≤ m, Host.Core.run Sys2Proof.core n s = .next (restOfBlock s.stream (finished s)) := by
  induction m generalizing s with
  | zero => exact absurd (bytesDue_pos s.stream) (Nat.not_lt.mpr hm)
  | succ m ih =>
    obtain ⟨t, hstep, hend⟩ := step_endsIn hb hwf
    cases hend with
    | here => exact ⟨1, by omega, run_succ_of_step hstep 0⟩
    | later hb' hwf' hdue hrest =>
      obtain ⟨n, hn, hruns⟩ := ih hb' hwf' (by omega)
      exact ⟨n + 1, by omega, by rw [run_succ_of_step hstep, hruns, hrest]⟩

/-- Settles O33: from the beginning of a block 36 bytes are due, and the rest of BMI is BMI. -/
theorem streamBytesRunToTheEndAreBmi : Obligations.StreamBytesRunToTheEndAreBmi := by
  intro s hlegal hs
  have hlegal' : lengthsIllegal s = false := (lengthsIllegal_eq_false_iff s).mpr hlegal
  have hbmi : exec .bmi s = .next (complete (bmiStage (accept s))) := by
    rw [exec, execBmi, runStage, hlegal', if_neg Bool.false_ne_true, progressState_running]
  obtain ⟨n, hn, hrun⟩ := run_restOfBlock 36 (s := accept s) rfl (hs ▸ rfl) (hs ▸ le_rfl)
  have hsame : restOfBlock (accept s).stream (finished (accept s)) = complete (bmiStage (accept s)) := by
    have hplace : (accept s).stream = .tokenDue 0 := hs
    rw [hplace, restOfBlock_tokenDue_zero, finished_of_tokenDue_zero hplace, bmiStage_complete]
  exact ⟨n, _, hn, hrun, hsame ▸ hbmi⟩

end Sys2Proof.Proofs

/-! PROOFS. What the decode pass leaves when its output fits (spec 43_block_driver.md R131 to R133, R136, R137). -/

namespace Sys2Proof.Proofs

open Sys2Proof Sys2Proof.Machine Sys2Proof.Safety

/-! ### The bytes of blocks -/

theorem bytesOfBlocks_cons (b : Block) (bs : List Block) : bytesOfBlocks (b :: bs) = b.toList ++ bytesOfBlocks bs := rfl

theorem bytesOfBlocks_length (bs : List Block) : (bytesOfBlocks bs).length = 32 * bs.length := by
  induction bs with
  | nil => rfl
  | cons b bs ih => rw [bytesOfBlocks_cons, List.length_append, ih, Vector.length_toList, List.length_cons]; omega

/-! ### The blocks of the input -/

theorem decodedBlocks_nil (n : Nat) : decodedBlocks n [] = ([], false) := by cases n <;> rfl

theorem decodedBlocks_succ (n : Nat) {input : List Byte} (h : input ≠ []) :
    decodedBlocks (n + 1) input =
      (xorForward (blockOfList (blockOfInput input).1) :: (decodedBlocks n (blockOfInput input).2.1).1,
        (blockOfInput input).2.2 || (decodedBlocks n (blockOfInput input).2.1).2) := by
  have hne : input.isEmpty = false := by simpa using h
  rw [decodedBlocks, hne, if_neg Bool.false_ne_true]

/-- A block decoded from some input leaves less of it. -/
theorem blockOfInput_left_lt {input : List Byte} (h : input ≠ []) :
    (blockOfInput input).2.1.length < input.length := by
  cases input with
  | nil => exact absurd rfl h
  | cons v input => exact Nat.lt_succ_of_le (blockOfInput_uses v input)

/-! ### The loop of DEC -/

/-- The state after the blocks `d.1` were decoded, transformed and stored with room, with nothing of the source left;
`d.2` says whether the source ended inside the last of them (R132). -/
def afterDecoding (sz : Bool) (d : List Block × Bool) (s : State) : State :=
  { s with
    blk := d.1.getLast?.getD s.blk
    srcPos := s.srcPos + BitVec.ofNat 32 (remaining s)
    dstPos := s.dstPos + BitVec.ofNat 32 (32 * d.1.length)
    blkCnt := s.blkCnt + BitVec.ofNat 32 d.1.length
    trunc := s.trunc || d.2
    dst := emitted sz s.dst s.dstPos.toNat (bytesOfBlocks d.1) }

/-- The state after one block was pulled, transformed to `b` and stored with room. -/
def blockStored (sz : Bool) (b : Block) (s : State) : State :=
  { bmiStage s with
    blk := b
    dstPos := s.dstPos + 32#32
    dst := emitted sz s.dst s.dstPos.toNat b.toList }

theorem bmiStage_dstCap (s : State) : (bmiStage s).dstCap = s.dstCap := by
  obtain ⟨b, p, n, t, e⟩ := bmiStage_frame s
  rw [e]

/-- DEC's transform and output of the block in BLK, with room for it (R132). -/
theorem stblk_xorf_room {sz : Bool} {t : State} (hroom : Room sz 32 t) :
    stblkStage sz (xorfStage t) = .running { t with
      blk := xorForward t.blk
      dst := emitted sz t.dst t.dstPos.toNat (xorForward t.blk).toList
      dstPos := t.dstPos + 32#32 } := by
  have hroom' : Room sz (xorForward t.blk).toList.length (xorfStage t) := by
    rwa [Vector.length_toList, Room, xorfStage_dstPos, xorfStage_dstCap]
  rw [stblkStage, xorfStage_blk, emitAll_room sz _ _ hroom', Vector.length_toList, xorfStage]

/-- One iteration of DEC's loop with room for the block (R132). -/
theorem stblk_xorf_bmi_room {sz : Bool} {s : State} (hroom : Room sz 32 s) :
    stblkStage sz (xorfStage (bmiStage s)) =
      .running (blockStored sz (xorForward (blockOfList (blockOfInput (inputLeft s)).1)) s) := by
  have hroom' : Room sz 32 (bmiStage s) := by rwa [Room, bmiStage_dstPos, bmiStage_dstCap]
  have hblk : (bmiStage s).blk = blockOfList (blockOfInput (inputLeft s)).1 := by rw [bmiStage_eq]
  rw [stblk_xorf_room hroom', hblk, bmiStage_dst, bmiStage_dstPos, blockStored]

theorem inputLeft_blockStored (sz : Bool) (b : Block) (s : State) :
    inputLeft (blockStored sz b s) = (blockOfInput (inputLeft s)).2.1 := by
  rw [← inputLeft_bmiStage, blockStored]
  generalize bmiStage s = t
  exact inputLeft_congr rfl rfl rfl

/-- Room for a block and `n` bytes more is room for the block, and for the others where it has been stored. -/
theorem room_blockStored {sz : Bool} {n : Nat} {s : State} (h : Room sz (32 + n) s) (b : Block) :
    Room sz 32 s ∧ Room sz n (blockStored sz b s) := by
  rcases h with h | h
  · exact ⟨.inl h, .inl h⟩
  · have hcap := s.dstCap.isLt
    have hpos : (blockStored sz b s).dstPos.toNat = s.dstPos.toNat + 32 :=
      toNat_add_ofNat (p := s.dstPos) (n := 32) (by omega)
    have hdcap : (blockStored sz b s).dstCap = s.dstCap := by simp only [blockStored, bmiStage_dstCap]
    exact ⟨.inr (by omega), .inr (by rw [hpos, hdcap]; omega)⟩

/-- Decoding a block and then the rest of the input is decoding the input (R132). -/
theorem afterDecoding_blockStored {sz : Bool} {s : State} (h : s.srcPos < s.srcLen) (hroom : Room sz 32 s) (b : Block)
    (d : List Block × Bool) :
    afterDecoding sz d (blockStored sz b s) =
      afterDecoding sz (b :: d.1, (blockOfInput (inputLeft s)).2.2 || d.2) s := by
  have hle := (blockOfInput_suffix (inputLeft s)).length_le
  have hrem : remaining (blockStored sz b s) = (blockOfInput (inputLeft s)).2.1.length := by
    rw [← inputLeft_length, inputLeft_blockStored]
  have hmoved : remaining s = (inputLeft s).length - (blockOfInput (inputLeft s)).2.1.length +
      (blockOfInput (inputLeft s)).2.1.length := by rw [Nat.sub_add_cancel hle, inputLeft_length]
  have hbytes : 32 * (d.1.length + 1) = 32 + 32 * d.1.length := by omega
  have hplace := emitted_dstPos_add hroom
  rw [afterDecoding, afterDecoding, hrem, hmoved, List.length_cons, hbytes, bytesOfBlocks_cons, emitted_append,
    Vector.length_toList, ← hplace, blockStored, bmiStage_eq]
  simp only [if_pos h, BitVec.ofNat_add, BitVec.add_assoc, Bool.or_assoc, List.getLast?_cons, Option.getD_some,
    Nat.add_comm d.1.length 1]

/-- The loop of DEC with room for its output and enough iterations (R132, R137). -/
theorem decLoop_room (sz : Bool) (n : Nat) (s : State) (hn : remaining s ≤ n)
    (hroom : Room sz (32 * (decodedBlocks n (inputLeft s)).1.length) s) :
    decLoop sz n s = .running (afterDecoding sz (decodedBlocks n (inputLeft s)) s) := by
  induction n generalizing s with
  | zero =>
    have h0 : remaining s = 0 := Nat.le_zero.mp hn
    simp [decLoop_zero, decodedBlocks, afterDecoding, bytesOfBlocks, emitted_nil, h0]
  | succ n ih =>
    by_cases h : s.srcPos < s.srcLen
    · have hne : inputLeft s ≠ [] := by
        rw [Ne, inputLeft_eq_nil_iff]
        exact BitVec.not_le.mpr h
      have hlt := blockOfInput_left_lt hne
      rw [inputLeft_length] at hlt
      rw [decodedBlocks_succ n hne, List.length_cons, Nat.mul_succ, Nat.add_comm] at hroom
      obtain ⟨hroom1, hroom2⟩ :=
        room_blockStored hroom (xorForward (blockOfList (blockOfInput (inputLeft s)).1))
      rw [decLoop_block sz n s h, stblk_xorf_bmi_room hroom1, andThen_running, decodedBlocks_succ n hne,
        ← afterDecoding_blockStored h hroom1]
      rw [← inputLeft_blockStored sz (xorForward (blockOfList (blockOfInput (inputLeft s)).1)) s] at hroom2 hlt ⊢
      exact ih _ (by rw [← inputLeft_length]; omega) hroom2
    · have hend := BitVec.not_lt.mp h
      rw [decLoop_exhausted sz _ s hend, (inputLeft_eq_nil_iff s).mpr hend, decodedBlocks_nil]
      simp [afterDecoding, bytesOfBlocks, emitted_nil, (remaining_eq_zero_iff s).mpr hend]

/-! ### The decode pass -/

/-- What DEC decodes is settled by the source memory and SRC_LEN, which the start of the command leaves alone (R136). -/
theorem decoded_start (s : State) : decoded (clearPass (accept s)) = decoded s := rfl

/-- What issuing DEC, or DECSZ with `sz`, does once its output fits (R132, R133, R136, R154). -/
theorem runWhole_decPass_room (sz : Bool) (s : State) (hlegal : lengthsLegal s)
    (hroom : sz = true ∨ 32 * (decoded s).1.length ≤ s.dstCap.toNat) :
    runWhole (decPass sz) s = { s with
      blk := (decoded s).1.getLast?.getD s.blk
      srcPos := s.srcLen
      dstPos := BitVec.ofNat 32 (32 * (decoded s).1.length)
      blkCnt := BitVec.ofNat 32 (decoded s).1.length
      trunc := (decoded s).2, tail := false, bounds := false, cmderr := false, cfgerr := false
      dst := emitted sz s.dst 0 (bytesOfBlocks (decoded s).1), busy := false, done := true } := by
  have hlegal' : lengthsIllegal s = false := (lengthsIllegal_eq_false_iff s).mpr hlegal
  have hstart : (clearPass (accept s)).srcPos = 0#32 := rfl
  have hdecoded : decodedBlocks (clearPass (accept s)).srcLen.toNat (inputLeft (clearPass (accept s))) = decoded s := by
    rw [inputLeft_start hstart, ← decoded, decoded_start]
  have hroom' : Room sz (32 * (decoded s).1.length) (clearPass (accept s)) := by simpa [Room] using hroom
  have hloop := decLoop_room sz (clearPass (accept s)).srcLen.toNat (clearPass (accept s))
    (remaining_start hstart).le (hdecoded ▸ hroom')
  rw [runWhole, hlegal', if_neg Bool.false_ne_true, decPass, hloop, hdecoded, progressState_running, afterDecoding,
    remaining_start hstart]
  simp [complete, clearPass, accept]

end Sys2Proof.Proofs

/-! PROOFS. A canonical compressed stream is the encoding of what it decodes to (spec 30_encoding.md R65 to R72;
41_xor_delta.md R102; 43_block_driver.md R138). -/

namespace Sys2Proof.Proofs

open Sys2Proof Sys2Proof.Machine Sys2Proof.Safety

/-! ### The XOR Delta Transform, word by word -/

theorem wordOf_xorForward_zero (b : Block) : wordOf (xorForward b) 0 = wordOf b 0 := by
  simp [xorForward, wordsUp, xorForwardStep, wordOf_setWord]

/-- Each word of the forward transform carries the one before it (R100). -/
theorem wordOf_xorForward_succ (b : Block) {i : WordIx} (hi : i ≠ 0) :
    wordOf (xorForward b) i = wordOf b i ^^^ wordOf (xorForward b) (i - 1) := by
  fin_cases i <;> simp [xorForward, wordsUp, xorForwardStep, wordOf_setWord] at hi ⊢

theorem wordOf_xorInverse (b : Block) (i : WordIx) :
    wordOf (xorInverse b) i = if i = 0 then wordOf b 0 else wordOf b i ^^^ wordOf b (i - 1) := by
  fin_cases i <;> simp [xorInverse, wordsDown, xorInverseStep, wordOf_setWord]

/-- The inverse transform undoes the forward one (R102). -/
theorem xorInverse_xorForward (b : Block) : xorInverse (xorForward b) = b := by
  refine block_ext_words fun i => ?_
  rw [wordOf_xorInverse]
  by_cases hi : i = 0
  · rw [if_pos hi, hi, wordOf_xorForward_zero]
  · rw [if_neg hi, wordOf_xorForward_succ b hi, BitVec.xor_assoc, BitVec.xor_self, BitVec.xor_zero]

/-! ### The logical bytes of group records -/

/-- With a literal for each byte whose token bit is 1, a group uses just its literals (R68, R71). -/
theorem groupOfInput_literals {tok : Byte} {ks : List BitIx} {lits : List Byte}
    (h : lits.length = (ks.filter (tokenBit tok)).length) (rest : List Byte) :
    groupOfInput tok ks (lits ++ rest) = ((groupOfInput tok ks lits).1, rest, false) := by
  induction ks generalizing lits with
  | nil =>
    obtain rfl : lits = [] := List.length_eq_zero_iff.mp h
    rfl
  | cons k ks ih =>
    cases hk : tokenBit tok k with
    | false =>
      rw [List.filter_cons_of_neg (by simp [hk])] at h
      rw [groupOfInput_zero hk, groupOfInput_zero hk, ih h]
    | true =>
      rw [List.filter_cons_of_pos hk] at h
      cases lits with
      | nil => cases h
      | cons v lits => rw [List.cons_append, groupOfInput_literal hk, groupOfInput_literal hk, ih (Nat.succ.inj h)]

/-- With no literal 0x00, the bytes of a group that are not 0x00 are its literals, where its token has a 1 bit (R72). -/
theorem groupOfInput_canonical {tok : Byte} {ks : List BitIx} {lits : List Byte}
    (h : lits.length = (ks.filter (tokenBit tok)).length) (hne : ∀ v ∈ lits, v ≠ 0#8) :
    (groupOfInput tok ks lits).1.filter (· ≠ 0#8) = lits ∧
    (groupOfInput tok ks lits).1.map (· != 0#8) = ks.map (tokenBit tok) := by
  induction ks generalizing lits with
  | nil =>
    obtain rfl : lits = [] := List.length_eq_zero_iff.mp h
    exact ⟨rfl, rfl⟩
  | cons k ks ih =>
    cases hk : tokenBit tok k with
    | false =>
      rw [List.filter_cons_of_neg (by simp [hk])] at h
      obtain ⟨hlits, hbits⟩ := ih h hne
      rw [groupOfInput_zero hk, List.map_cons, List.map_cons, hbits, hk]
      exact ⟨(List.filter_cons_of_neg (by decide)).trans hlits, rfl⟩
    | true =>
      rw [List.filter_cons_of_pos hk] at h
      cases lits with
      | nil => cases h
      | cons v lits =>
        obtain ⟨hv, hrest⟩ := List.forall_mem_cons.mp hne
        obtain ⟨hlits, hbits⟩ := ih (Nat.succ.inj h) hrest
        rw [groupOfInput_literal hk, List.map_cons, List.map_cons, hbits, hk,
          List.filter_cons_of_pos (by simpa using hv), hlits]
        exact ⟨rfl, congrArg (· :: _) (bne_iff_ne.mpr hv)⟩

/-- The eight bytes of a block that a group record stands for (R67, R71). -/
def logicalBytes (r : GroupRecord) : List Byte := (groupOfInput r.token groupOrder r.literals).1

theorem logicalBytes_length (r : GroupRecord) : (logicalBytes r).length = 8 := groupOfInput_length _ groupOrder _

/-- Well-formed group records decode to their logical bytes, and no byte after them is used (R66, R71). -/
theorem groupsOfInput_records {rs : List GroupRecord} (h : ∀ r ∈ rs, r.wf = true) (rest : List Byte) :
    groupsOfInput rs.length (compressedBlockBytes rs ++ rest) = ((rs.map logicalBytes).flatten, rest, false) := by
  induction rs with
  | nil => rfl
  | cons r rs ih =>
    obtain ⟨hr, hrs⟩ := List.forall_mem_cons.mp h
    have hgroup := groupOfInput_literals ((wf_iff r).mp hr) (compressedBlockBytes rs ++ rest)
    have hbytes : compressedBlockBytes (r :: rs) ++ rest =
        r.token :: (r.literals ++ (compressedBlockBytes rs ++ rest)) := by
      simp [compressedBlockBytes_cons, GroupRecord.bytes]
    rw [hbytes, List.length_cons, groupsOfInput_complete _ (by rw [hgroup]), hgroup, ih hrs]
    rfl

/-! ### Canonical compressed blocks -/

/-- The block that four group records stand for (R66). -/
def blockOfRecords (rs : List GroupRecord) : Block := blockOfList (rs.map logicalBytes).flatten

/-- A complete compressed block decodes to its block, and no byte after it is used (R114). -/
theorem blockOfInput_compressedBlock {rs : List GroupRecord} (h : compressedBlockWf rs = true) (rest : List Byte) :
    blockOfInput (compressedBlockBytes rs ++ rest) = ((rs.map logicalBytes).flatten, rest, false) := by
  obtain ⟨h4, hwf⟩ := (compressedBlockWf_iff rs).mp h
  rw [blockOfInput, ← h4]
  exact groupsOfInput_records hwf rest

theorem toList_blockOfList {vs : List Byte} (h : vs.length = 32) : (blockOfList vs).toList = vs := by
  refine List.ext_getElem (by rw [Vector.length_toList, h]) fun n _ hn => ?_
  simp [blockOfList, List.getD, hn]

theorem blockOfList_toList (b : Block) : blockOfList b.toList = b := by
  refine Vector.ext fun n hn => ?_
  simp [blockOfList, List.getD]

/-- The groups of the block are the logical bytes of the records (R66, R67). -/
theorem groupBytes_blockOfRecords {rs : List GroupRecord} (h4 : rs.length = 4) :
    groups.map (groupBytes (blockOfRecords rs)) = rs.map logicalBytes := by
  have hlens : (rs.map logicalBytes).map List.length = List.replicate 4 8 := by
    rw [List.map_map, ← h4]
    exact List.eq_replicate_iff.mpr ⟨by simp, by simp [logicalBytes_length]⟩
  refine List.eq_iff_flatten_eq.mpr ⟨?_, hlens.symm ▸ rfl⟩
  rw [flatten_groupBytes, blockOfRecords, toList_blockOfList]
  rw [List.length_flatten, hlens]
  rfl

/-- A canonical record is the one the encoder forms of its logical bytes (R72, R112). -/
theorem recordOf_eq {b : Block} {g : GroupIx} {r : GroupRecord} (hr : r.canonical = true)
    (h : groupBytes b g = logicalBytes r) : recordOf b g = r := by
  obtain ⟨hwf, hne⟩ := (canonical_iff r).mp hr
  obtain ⟨hlits, hbits⟩ := groupOfInput_canonical ((wf_iff r).mp hwf) hne
  have htoken : tokenOf b g = r.token := by
    refine token_ext fun k => ?_
    rw [← logicalBytes, ← h, groupBytes, List.map_map] at hbits
    rw [tokenBit_tokenOf]
    exact List.map_inj_left.mp hbits k (mem_groupOrder k)
  rw [recordOf, htoken, literalsOf_eq, h, logicalBytes, hlits]

/-- The block of canonical records is encoded in these records (R72). -/
theorem compressedBytes_blockOfRecords {rs : List GroupRecord} (h : canonicalBlock rs = true) :
    compressedBytes (blockOfRecords rs) = compressedBlockBytes rs := by
  obtain ⟨h4, hcan⟩ := (canonicalBlock_iff rs).mp h
  have hgroups := groupBytes_blockOfRecords h4
  have hrecords : groups.map (recordOf (blockOfRecords rs)) = rs := by
    refine List.ext_getElem (by rw [List.length_map, h4]; rfl) fun n hn hn' => ?_
    rw [List.getElem_map]
    refine recordOf_eq (hcan _ (List.getElem_mem hn')) ?_
    have hget := List.getElem_of_eq hgroups (i := n) (by simpa using hn)
    rwa [List.getElem_map, List.getElem_map] at hget
  rw [compressedBytes, hrecords]

/-! ### Canonical streams -/

/-- The bytes of a stream of compressed blocks (R65). -/
def streamBytes (xs : List (List GroupRecord)) : List Byte := (xs.map compressedBlockBytes).flatten

theorem streamBytes_cons (rs : List GroupRecord) (xs : List (List GroupRecord)) :
    streamBytes (rs :: xs) = compressedBlockBytes rs ++ streamBytes xs := rfl

/-- The blocks DEC makes of a stream of compressed blocks (R132). -/
def blocksOfStream (xs : List (List GroupRecord)) : List Block := xs.map fun rs => xorForward (blockOfRecords rs)

/-- A stream of complete compressed blocks decodes to their blocks (R132). -/
theorem decodedBlocks_streamBytes {xs : List (List GroupRecord)} (h : ∀ rs ∈ xs, compressedBlockWf rs = true) {n : Nat}
    (hn : xs.length ≤ n) : decodedBlocks n (streamBytes xs) = (blocksOfStream xs, false) := by
  induction xs generalizing n with
  | nil => exact decodedBlocks_nil n
  | cons rs xs ih =>
    obtain ⟨hrs, hxs⟩ := List.forall_mem_cons.mp h
    obtain ⟨m, rfl⟩ : ∃ m, n = m + 1 := ⟨n - 1, by rw [List.length_cons] at hn; omega⟩
    have hne : streamBytes (rs :: xs) ≠ [] := by
      have hlen := compressedBlockBytes_length ((compressedBlockWf_iff rs).mp hrs).2
      rw [((compressedBlockWf_iff rs).mp hrs).1] at hlen
      rw [streamBytes_cons, Ne, List.append_eq_nil_iff, ← List.length_eq_zero_iff]
      omega
    rw [decodedBlocks_succ m hne, streamBytes_cons, blockOfInput_compressedBlock hrs,
      ih hxs (Nat.le_of_succ_le_succ hn)]
    rfl

/-- A compressed block takes a byte at least. -/
theorem length_le_streamBytes {xs : List (List GroupRecord)} (h : ∀ rs ∈ xs, compressedBlockWf rs = true) :
    xs.length ≤ (streamBytes xs).length := by
  induction xs with
  | nil => exact le_rfl
  | cons rs xs ih =>
    obtain ⟨hrs, hxs⟩ := List.forall_mem_cons.mp h
    obtain ⟨h4, hwf⟩ := (compressedBlockWf_iff rs).mp hrs
    have hlen := compressedBlockBytes_length hwf
    have hrest := ih hxs
    rw [streamBytes_cons, List.length_append, List.length_cons]
    omega

/-- The stream of the blocks a canonical stream decodes to, transformed back, is that stream (R72, R102). -/
theorem streamOf_blocksOfStream {xs : List (List GroupRecord)} (h : ∀ rs ∈ xs, canonicalBlock rs = true) :
    streamOf ((blocksOfStream xs).map xorInverse) = streamBytes xs := by
  rw [streamOf, streamBytes, blocksOfStream, List.map_map, List.map_map]
  refine congrArg List.flatten (List.map_congr_left fun rs hrs => ?_)
  rw [Function.comp_apply, Function.comp_apply, xorInverse_xorForward, compressedBytes_blockOfRecords (h rs hrs)]

/-- Whole blocks are loaded as they are (R130, R134). -/
theorem rawBlocks_bytesOfBlocks (p : TailPolicy) {bs : List Block} {n : Nat} (hn : bs.length ≤ n) :
    rawBlocks p n (bytesOfBlocks bs) = bs := by
  induction bs generalizing n with
  | nil =>
    cases n with
    | zero => rfl
    | succ n => exact rawBlocks_none n (by decide) (.inl rfl)
  | cons b bs ih =>
    obtain ⟨m, rfl⟩ : ∃ m, n = m + 1 := ⟨n - 1, by rw [List.length_cons] at hn; omega⟩
    have h32 : b.toList.length = 32 := Vector.length_toList
    rw [bytesOfBlocks_cons, rawBlocks_whole p m (by rw [List.length_append]; omega), List.take_left' h32,
      List.drop_left' h32, blockOfList_toList, ih (Nat.le_of_succ_le_succ hn)]

/-! ### A source buffer, byte by byte -/

theorem wholeInput_length (s : State) : (wholeInput s).length = s.srcLen.toNat := by simp [wholeInput]

theorem wholeInput_getD {s : State} {a : Nat} (h : a < s.srcLen.toNat) :
    (wholeInput s).getD a 0#8 = memRead s a := by
  simp [wholeInput, List.getD, h]

/-- A source that reads as `vs` byte by byte holds `vs`. -/
theorem wholeInput_eq {s : State} {vs : List Byte} (hlen : s.srcLen.toNat = vs.length)
    (h : ∀ a, a < vs.length → memRead s a = vs.getD a 0#8) : wholeInput s = vs := by
  refine List.ext_getElem (by rw [wholeInput_length, hlen]) fun n _ hn => ?_
  have hget := h n hn
  rw [List.getD_eq_getElem _ _ hn] at hget
  simpa [wholeInput] using hget

theorem decoded_stream {s : State} {xs : List (List GroupRecord)} (h : ∀ rs ∈ xs, compressedBlockWf rs = true)
    (hinput : wholeInput s = streamBytes xs) : decoded s = (blocksOfStream xs, false) := by
  have hlen := length_le_streamBytes h
  rw [← hinput, wholeInput_length] at hlen
  rw [decoded, hinput, decodedBlocks_streamBytes h hlen]

/-- A source of whole blocks is encoded in these blocks, under every tail policy (R134). -/
theorem encodedBlocks_bytesOfBlocks (p : TailPolicy) {s : State} {bs : List Block}
    (hinput : wholeInput s = bytesOfBlocks bs) : encodedBlocks p s = bs.map xorInverse := by
  have hlen : s.srcLen.toNat = 32 * bs.length := by rw [← wholeInput_length, hinput, bytesOfBlocks_length]
  have hwhole : ¬ (s.srcLen.toNat % 32 ≠ 0 ∧ p = .reject) := by rw [hlen]; simp
  rw [encodedBlocks, if_neg hwhole, hinput, rawBlocks_bytesOfBlocks p (by omega)]

/-! ### The two passes -/

/-- DEC, with room, stores the blocks of a stream of complete compressed blocks (R132). -/
theorem exec_dec_stream {s : State} {xs : List (List GroupRecord)} (hlegal : lengthsLegal s)
    (hwf : ∀ rs ∈ xs, compressedBlockWf rs = true) (hinput : wholeInput s = streamBytes xs)
    (hroom : 32 * xs.length ≤ s.dstCap.toNat) :
    ∃ t, exec .dec s = .next t ∧ t.trunc = false ∧ t.bounds = false ∧ t.dstPos.toNat = 32 * xs.length ∧
      ∀ a, a < 32 * xs.length → destByte t a = (bytesOfBlocks (blocksOfStream xs)).getD a 0#8 := by
  have hcount : (blocksOfStream xs).length = xs.length := List.length_map _
  have hlen : (bytesOfBlocks (blocksOfStream xs)).length = 32 * xs.length := by rw [bytesOfBlocks_length, hcount]
  have hdecoded := decoded_stream hwf hinput
  have hdec := runWhole_decPass_room false s hlegal (.inr (by rw [hdecoded, hcount]; exact hroom))
  rw [hdecoded, hcount] at hdec
  refine ⟨_, congrArg Host.Outcome.next hdec, rfl, rfl, ?_, fun a ha => ?_⟩
  · have hcap := s.dstCap.isLt
    exact Nat.mod_eq_of_lt (by omega)
  · refine (byteAt_storeBytes .destination s.dst 0 _ a).trans (if_pos ⟨Nat.zero_le a, ?_⟩)
    rwa [Nat.zero_add, hlen]

/-- ENC, with room, stores the compressed blocks of a source of whole blocks (R134). -/
theorem exec_enc_blocks {s : State} {bs : List Block} (hlegal : lengthsLegal s)
    (hinput : wholeInput s = bytesOfBlocks bs) (hroom : (streamOf (bs.map xorInverse)).length ≤ s.dstCap.toNat) :
    ∃ t, exec .enc s = .next t ∧ t.dstPos = BitVec.ofNat 32 (streamOf (bs.map xorInverse)).length ∧ t.bounds = false ∧
      ∀ a, a < (streamOf (bs.map xorInverse)).length → destByte t a = (streamOf (bs.map xorInverse)).getD a 0#8 := by
  have hstream : encodedStream Config.tailPolicy s = streamOf (bs.map xorInverse) := by
    rw [encodedStream_eq, encodedBlocks_bytesOfBlocks _ hinput]
  have henc := runWhole_encPass_room Config.tailPolicy false s hlegal (.inr (hstream ▸ hroom))
  rw [hstream] at henc
  refine ⟨_, congrArg Host.Outcome.next henc, rfl, rfl, fun a ha => ?_⟩
  exact (byteAt_storeBytes .destination s.dst 0 _ a).trans (if_pos ⟨Nat.zero_le a, by rwa [Nat.zero_add]⟩)

/-- Settles O45: DEC stores the blocks of the stream, ENC loads them, and the encoder forms the stream's own records. -/
theorem encodeOfDecodeIsACanonicalStream : Obligations.EncodeOfDecodeIsACanonicalStream := by
  intro s xs hlegal hcan hinput hroom
  have hwf : ∀ rs ∈ xs, compressedBlockWf rs = true := fun rs hrs => compressedBlockWf_of_canonicalBlock (hcan rs hrs)
  obtain ⟨t, ht, htrunc, hbounds, hpos, hdest⟩ := exec_dec_stream hlegal hwf hinput hroom
  refine ⟨t, ht, htrunc, hbounds, hpos, fun u hulen hread hucap hulegal => ?_⟩
  have hlen : u.srcLen.toNat = (bytesOfBlocks (blocksOfStream xs)).length := by
    rw [hulen, hpos, bytesOfBlocks_length, blocksOfStream, List.length_map]
  have hloaded : wholeInput u = bytesOfBlocks (blocksOfStream xs) := by
    refine wholeInput_eq hlen fun a ha => ?_
    rw [← hlen, hulen] at ha
    rw [hread a ha, hdest a (hpos ▸ ha)]
  have hulegal' : lengthsLegal u := by
    refine ⟨?_, hulegal⟩
    rw [hulen, BitVec.le_def, hpos]
    exact hroom.trans (BitVec.le_def.mp hlegal.2)
  have hstream : streamOf ((blocksOfStream xs).map xorInverse) = wholeInput s :=
    (streamOf_blocksOfStream hcan).trans hinput.symm
  have henc := exec_enc_blocks hulegal' hloaded
  rw [hstream, wholeInput_length] at henc
  obtain ⟨v, hv, hvpos, hvbounds, hvdest⟩ := henc (BitVec.le_def.mp hucap)
  refine ⟨v, hv, ?_, hvbounds, fun a ha => (hvdest a ha).trans (wholeInput_getD ha)⟩
  rw [hvpos, BitVec.ofNat_toNat, BitVec.setWidth_eq]

end Sys2Proof.Proofs

/-! PROOFS. What one Emit does: with `sz`, at the capacity, and with room (spec 40_cursor_word.md R82). -/

namespace Sys2Proof.Proofs

open Sys2Proof Sys2Proof.Machine Sys2Proof.Safety

theorem emit_sizeOnly (v : Byte) (s : State) : emit v true s = .running (advanceDst s) := rfl

/-- At the capacity the byte is refused: BOUNDS is raised, and neither the memory nor the cursor moves. -/
theorem emit_full (v : Byte) {s : State} (hfull : s.dstCap ≤ s.dstPos) :
    emit v false s = .aborted { s with bounds := true } :=
  if_pos (decide_eq_true hfull)

/-- Settles O54: below the capacity there is room for a list of one byte, which `byteAt_storeBytes` reads back. -/
theorem emitChecksEveryByte : Obligations.EmitChecksEveryByte := by
  intro v s
  refine ⟨emit_sizeOnly v s, emit_full v, fun hbelow => ?_⟩
  have hroom : Room false [v].length s := .inr (BitVec.lt_def.mp hbelow)
  rw [← emitAll_singleton]
  exact ⟨_, emitAll_room false [v] s hroom, byteAt_storeBytes .destination s.dst s.dstPos.toNat [v]⟩

end Sys2Proof.Proofs

/-! PROOFS. Encoding whole blocks and decoding the stream gives the blocks back (spec 41_xor_delta.md R102;
42_sparse_bitmap.md R113; 43_block_driver.md R138). -/

namespace Sys2Proof.Proofs

open Sys2Proof Sys2Proof.Machine Sys2Proof.Safety

/-! ### The XOR Delta Transform, from the inverse back -/

theorem wordIx_succ_sub_one : ∀ i : Fin 7, (i.succ : WordIx) - 1 = i.castSucc := by decide

/-- The words of the forward transform are the only ones that each carry the one before (R100). -/
theorem wordOf_xorForward_unique {b : Block} {v : WordIx → Word} (hzero : v 0 = wordOf b 0)
    (hsucc : ∀ i, i ≠ 0 → v i = wordOf b i ^^^ v (i - 1)) (i : WordIx) : wordOf (xorForward b) i = v i := by
  induction i using Fin.induction with
  | zero => rw [wordOf_xorForward_zero, hzero]
  | succ i ih =>
    rw [wordOf_xorForward_succ b (i.succ_ne_zero), hsucc _ (i.succ_ne_zero), wordIx_succ_sub_one, ih]

/-- The forward transform undoes the inverse one (R102). -/
theorem xorForward_xorInverse (b : Block) : xorForward (xorInverse b) = b := by
  refine block_ext_words (wordOf_xorForward_unique ?_ fun i hi => ?_)
  · rw [wordOf_xorInverse, if_pos rfl]
  · rw [wordOf_xorInverse, if_neg hi, BitVec.xor_assoc, BitVec.xor_self, BitVec.xor_zero]

/-! ### The encoder's own records -/

/-- Bytes of a group, decoded under its own token from its own literals, are themselves (R71, R112). -/
theorem groupOfInput_own (b : Block) (g : GroupIx) (ks : List BitIx) :
    (groupOfInput (tokenOf b g) ks ((ks.filter (isLiteral b g)).map fun k => b[blkIx g k])).1 =
      ks.map fun k => b[blkIx g k] := by
  induction ks with
  | nil => rfl
  | cons k ks ih =>
    cases hk : isLiteral b g k with
    | false =>
      have hbyte : b[blkIx g k] = 0#8 := bne_eq_false_iff_eq.mp hk
      rw [List.filter_cons_of_neg (by simp [hk]), groupOfInput_zero ((tokenBit_tokenOf b g k).trans hk), ih,
        List.map_cons, hbyte]
    | true =>
      rw [List.filter_cons_of_pos hk, List.map_cons, groupOfInput_literal ((tokenBit_tokenOf b g k).trans hk), ih,
        List.map_cons]

theorem logicalBytes_recordOf (b : Block) (g : GroupIx) : logicalBytes (recordOf b g) = groupBytes b g :=
  groupOfInput_own b g groupOrder

/-- The encoder's records stand for the block they were formed of (R113). -/
theorem blockOfRecords_recordOf (b : Block) : blockOfRecords (groups.map (recordOf b)) = b := by
  have hbytes : (groups.map (recordOf b)).map logicalBytes = groups.map (groupBytes b) := by
    rw [List.map_map]
    exact List.map_congr_left fun g _ => logicalBytes_recordOf b g
  rw [blockOfRecords, hbytes, flatten_groupBytes, blockOfList_toList]

/-! ### The records ENC writes -/

/-- The group records of the compressed blocks ENC makes of raw blocks (R134). -/
def encodedRecords (bs : List Block) : List (List GroupRecord) := bs.map fun b => groups.map (recordOf (xorInverse b))

theorem encodedRecords_length (bs : List Block) : (encodedRecords bs).length = bs.length := List.length_map _

theorem encodedRecords_wf (bs : List Block) : ∀ rs ∈ encodedRecords bs, compressedBlockWf rs = true := by
  intro rs hrs
  obtain ⟨b, -, rfl⟩ := List.mem_map.mp hrs
  exact compressedBlockWf_of_canonicalBlock (canonicalBlock_recordOf (xorInverse b))

theorem streamBytes_encodedRecords (bs : List Block) :
    streamBytes (encodedRecords bs) = streamOf (bs.map xorInverse) := by
  rw [streamBytes, encodedRecords, streamOf, List.map_map, List.map_map]
  rfl

/-- The stream of the encoder decodes to the blocks it was made of (R102, R113). -/
theorem blocksOfStream_encodedRecords (bs : List Block) : blocksOfStream (encodedRecords bs) = bs := by
  rw [blocksOfStream, encodedRecords, List.map_map]
  refine (List.map_congr_left fun b _ => ?_).trans (List.map_id bs)
  rw [Function.comp_apply, blockOfRecords_recordOf, xorForward_xorInverse, id]

/-! ### The round trip -/

/-- A list of bytes whose length is a multiple of 32 is the bytes of some blocks. -/
theorem exists_bytesOfBlocks {n : Nat} {vs : List Byte} (h : vs.length = 32 * n) :
    ∃ bs, bytesOfBlocks bs = vs := by
  induction n generalizing vs with
  | zero => exact ⟨[], (List.length_eq_zero_iff.mp h).symm⟩
  | succ n ih =>
    obtain ⟨bs, hbs⟩ := ih (vs := vs.drop 32) (by rw [List.length_drop]; omega)
    have hfirst : (vs.take 32).length = 32 := List.length_take_of_le (by omega)
    refine ⟨blockOfList (vs.take 32) :: bs, ?_⟩
    rw [bytesOfBlocks_cons, toList_blockOfList hfirst, hbs, List.take_append_drop]

/-- DEC, with room, stores the raw blocks again when its source is the stream ENC makes of them (R132, R138). -/
theorem exec_dec_encodedBlocks {u : State} {bs : List Block} (hlegal : lengthsLegal u)
    (hinput : wholeInput u = streamOf (bs.map xorInverse)) (hroom : 32 * bs.length ≤ u.dstCap.toNat) :
    ∃ v, exec .dec u = .next v ∧ v.dstPos = BitVec.ofNat 32 (32 * bs.length) ∧
      v.trunc = false ∧ v.tail = false ∧ v.bounds = false ∧
      ∀ a, a < 32 * bs.length → destByte v a = (bytesOfBlocks bs).getD a 0#8 := by
  have hdecoded : decoded u = (bs, false) := by
    rw [decoded_stream (encodedRecords_wf bs) (hinput.trans (streamBytes_encodedRecords bs).symm),
      blocksOfStream_encodedRecords]
  have hdec := runWhole_decPass_room false u hlegal (.inr (by rwa [hdecoded]))
  rw [hdecoded] at hdec
  refine ⟨_, congrArg Host.Outcome.next hdec, rfl, rfl, rfl, rfl, fun a ha => ?_⟩
  refine (byteAt_storeBytes .destination u.dst 0 _ a).trans (if_pos ⟨Nat.zero_le a, ?_⟩)
  rwa [Nat.zero_add, bytesOfBlocks_length]

/-- Settles O44: ENC stores the stream of the input's blocks, and DEC decodes the encoder's own records to the blocks
they were formed of. -/
theorem decodeOfEncodeIsTheInput : Obligations.DecodeOfEncodeIsTheInput := by
  intro s hlegal hmul hroom
  obtain ⟨bs, hbs⟩ := exists_bytesOfBlocks (n := s.srcLen.toNat / 32) (vs := wholeInput s)
    (by rw [wholeInput_length]; omega)
  have hlen : s.srcLen.toNat = 32 * bs.length := by rw [← wholeInput_length, ← hbs, bytesOfBlocks_length]
  have hstream : encodedStream Config.tailPolicy s = streamOf (bs.map xorInverse) := by
    rw [encodedStream_eq, encodedBlocks_bytesOfBlocks _ hbs.symm]
  obtain ⟨m, henc, hdest⟩ := encEncodesTheWholeSource.2 s hlegal hroom
  rw [hstream] at henc hdest hroom
  refine ⟨_, henc, by simp [hmul], rfl, fun u hulen hread hucap hulegal => ?_⟩
  dsimp only at hulen hread
  have hpos : (BitVec.ofNat 32 (streamOf (bs.map xorInverse)).length).toNat = (streamOf (bs.map xorInverse)).length :=
    Nat.mod_eq_of_lt (hroom.trans_lt s.dstCap.isLt)
  have hloaded : wholeInput u = streamOf (bs.map xorInverse) := by
    refine wholeInput_eq (hulen ▸ hpos) fun a ha => ?_
    rw [hread a (by rwa [hpos])]
    exact (hdest a).trans (if_pos ⟨Nat.zero_le a, by rwa [Nat.zero_add]⟩)
  have hulegal' : lengthsLegal u := by
    refine ⟨?_, hulegal⟩
    rw [hulen, BitVec.le_def, hpos]
    exact hroom.trans (BitVec.le_def.mp hlegal.2)
  obtain ⟨v, hv, hvpos, htrunc, htail, hbounds, hvdest⟩ :=
    exec_dec_encodedBlocks hulegal' hloaded (hlen ▸ BitVec.le_def.mp hucap)
  rw [← hlen] at hvpos hvdest
  refine ⟨v, hv, ?_, htrunc, htail, hbounds, fun a ha => ?_⟩
  · rw [hvpos, BitVec.ofNat_toNat, BitVec.setWidth_eq]
  · rw [hvdest a ha, hbs, wholeInput_getD ha]

end Sys2Proof.Proofs

/-! PROOFS. XORF and XORI as commands: the net effect on words, mutual inverses, and the byte form (spec
41_xor_delta.md R100 to R103). -/

namespace Sys2Proof.Proofs

open Sys2Proof Sys2Proof.Machine Sys2Proof.Safety

/-! ### The two commands -/

/-- A stage command that only rewrites its state does so between acceptance and end (R154). -/
theorem runStage_running {s : State} (hlegal : lengthsLegal s) (f : State → State) :
    runStage (fun t => .running (f t)) s = complete (f (accept s)) := by
  rw [runStage, (lengthsIllegal_eq_false_iff s).mpr hlegal, if_neg Bool.false_ne_true, progressState_running]

theorem exec_xorf {s : State} (hlegal : lengthsLegal s) :
    exec .xorf s = .next { s with blk := xorForward s.blk, busy := false, done := true } := by
  refine (congrArg Host.Outcome.next (runStage_running hlegal xorfStage)).trans ?_
  rw [xorfStage, complete, accept]

theorem exec_xori {s : State} (hlegal : lengthsLegal s) :
    exec .xori s = .next { s with blk := xorInverse s.blk, busy := false, done := true } := by
  refine (congrArg Host.Outcome.next (runStage_running hlegal xoriStage)).trans ?_
  rw [xoriStage, complete, accept]

/-! ### The net effect on words -/

theorem prefixXor_zero (b : Block) : prefixXor b 0 = wordOf b 0 := by
  have hwords : (List.finRange 8).filter (· ≤ 0) = [0] := by decide
  rw [prefixXor, hwords, List.foldl_cons, List.foldl_nil, BitVec.zero_xor]

theorem prefixXor_succ (b : Block) {i : WordIx} (hi : i ≠ 0) :
    prefixXor b i = wordOf b i ^^^ prefixXor b (i - 1) := by
  have hwords : ∀ i : WordIx, i ≠ 0 →
      (List.finRange 8).filter (· ≤ i) = (List.finRange 8).filter (· ≤ i - 1) ++ [i] := by decide
  rw [prefixXor, hwords i hi, List.foldl_append, List.foldl_cons, List.foldl_nil, BitVec.xor_comm, prefixXor]

/-- Settles O18: the XORs of words 0 to `i` carry on from word to word as the words of XORF do, and no others do. -/
theorem xorfMakesEveryWordThePrefixXor : Obligations.XorfMakesEveryWordThePrefixXor :=
  ⟨rfl, fun s hlegal => ⟨_, exec_xorf hlegal,
    wordOf_xorForward_unique (prefixXor_zero s.blk) fun _ hi => prefixXor_succ s.blk hi⟩⟩

/-- Settles O19. -/
theorem xoriMakesEveryWordTheDifference : Obligations.XoriMakesEveryWordTheDifference := by
  refine ⟨rfl, fun s hlegal => ⟨_, exec_xori hlegal, ?_, fun i hi => ?_⟩⟩
  · rw [wordOf_xorInverse, if_pos rfl]
  · rw [wordOf_xorInverse, if_neg hi]

/-- Settles O20: neither command touches a length, so the second one is accepted too. -/
theorem xorfAndXoriAreMutualInverses : Obligations.XorfAndXoriAreMutualInverses := by
  refine fun s hlegal => ⟨⟨_, exec_xorf hlegal, ?_⟩, ⟨_, exec_xori hlegal, ?_⟩⟩
  · rw [exec_xori (by exact hlegal), xorInverse_xorForward]
  · rw [exec_xorf (by exact hlegal), xorForward_xorInverse]

/-! ### The byte form -/

/-- A step of XORF, with the word before as its accumulator, is a step of XORI: the chains differ in their order. -/
theorem xorForwardStep_prev (b : Block) (i : WordIx) :
    xorForwardStep (wordOf b (i - 1), b) i = (wordOf (xorInverseStep b i) i, xorInverseStep b i) := by
  rw [xorForwardStep, xorInverseStep, wordOf_setWord, if_pos rfl]

theorem foldl_xorForwardStep {i : WordIx} {is : List WordIx} (h : List.IsChain (fun i j => j - 1 = i) (i :: is))
    (b : Block) : (is.foldl xorForwardStep (wordOf b i, b)).2 = is.foldl xorInverseStep b := by
  induction is generalizing i b with
  | nil => rfl
  | cons j is ih =>
    obtain ⟨rfl, hrest⟩ := List.isChain_cons_cons.mp h
    rw [List.foldl_cons, xorForwardStep_prev, ih hrest, List.foldl_cons]

theorem setWord_wordOf (b : Block) (i : WordIx) : setWord b i (wordOf b i) = b := by
  refine block_ext_words fun i' => ?_
  rw [wordOf_setWord]
  split_ifs with h
  · rw [h]
  · rfl

/-- The forward transform is the chain of XORI's steps in increasing order (R100, R101). -/
theorem xorForward_eq_foldl (b : Block) : xorForward b = wordsUp.tail.foldl xorInverseStep b := by
  have hfirst : xorForwardStep (0#32, b) 0 = (wordOf b 0, b) := by
    rw [xorForwardStep, BitVec.xor_zero, setWord_wordOf]
  rw [xorForward, show wordsUp = 0 :: wordsUp.tail from rfl, List.foldl_cons, hfirst]
  exact foldl_xorForwardStep (by decide) b

theorem wordByte_xor (v w : Word) (n : Fin 4) : wordByte (v ^^^ w) n = wordByte v n ^^^ wordByte w n :=
  BitVec.extractLsb'_xor

/-- A step of XORI, byte by byte: exclusive OR acts on each bit position alone (R103). -/
theorem xorInverseStep_lane (b : Block) (i i' : WordIx) (m : Fin 4) :
    (xorInverseStep b i)[laneIx i' m] =
      if i' = i then b[laneIx i m] ^^^ b[laneIx (i - 1) m] else b[laneIx i' m] := by
  rw [xorInverseStep, setWord_lane, wordByte_xor, wordByte_wordOf, wordByte_wordOf]

/-- Four bytes before a byte stands the same byte of the word before. -/
theorem laneIx_pred : ∀ (i : WordIx), i ≠ 0 → ∀ n : Fin 4,
    (⟨(laneIx i n).val - 4, by omega⟩ : ByteIx) = laneIx (i - 1) n := by decide

theorem xorByteStep_laneIx {i : WordIx} (hi : i ≠ 0) (b : Block) (n : Fin 4) :
    xorByteStep b (laneIx i n) = b.set (laneIx i n) (b[laneIx i n] ^^^ b[laneIx (i - 1) n]) := by
  simp only [xorByteStep, laneIx_pred i hi n]

theorem xorByteStep_lane {i : WordIx} (hi : i ≠ 0) (b : Block) (n : Fin 4) (i' : WordIx) (m : Fin 4) :
    (xorByteStep b (laneIx i n))[laneIx i' m] =
      if i' = i ∧ m = n then b[laneIx i n] ^^^ b[laneIx (i - 1) n] else b[laneIx i' m] := by
  have hix : (laneIx i n).val = (laneIx i' m).val ↔ i' = i ∧ m = n := by
    rw [← Fin.ext_iff, laneIx_inj, eq_comm, eq_comm (a := n)]
  rw [xorByteStep_laneIx hi, Fin.getElem_fin _ (laneIx i' m), Vector.getElem_set]
  simp only [hix]
  rfl

/-- The byte steps of some bytes of a word, each once and in any order. -/
theorem foldl_xorByteStep_lane {i : WordIx} (hi : i ≠ 0) {ns : List (Fin 4)} (hns : ns.Nodup) (b : Block)
    (i' : WordIx) (m : Fin 4) : ((ns.map (laneIx i)).foldl xorByteStep b)[laneIx i' m] =
      if i' = i ∧ m ∈ ns then b[laneIx i m] ^^^ b[laneIx (i - 1) m] else b[laneIx i' m] := by
  have hpred : i - 1 ≠ i := by revert i; decide
  induction ns generalizing b with
  | nil => simp
  | cons n ns ih =>
    obtain ⟨hn, hns'⟩ := List.nodup_cons.mp hns
    rw [List.map_cons, List.foldl_cons, ih hns']
    simp only [xorByteStep_lane hi, List.mem_cons]
    by_cases hm : m = n
    · simp [hm, hn]
    · simp [hm]

theorem block_ext_lanes {b d : Block} (h : ∀ (i : WordIx) (n : Fin 4), b[laneIx i n] = d[laneIx i n]) : b = d :=
  block_ext_words fun i => by rw [wordOf, wordOf, h, h, h, h]

/-- The byte steps of the four bytes of a word, in any order, are a step of XORI (R103). -/
theorem foldl_xorByteStep_word {i : WordIx} (hi : i ≠ 0) {ns : List (Fin 4)} (hns : ns.Nodup) (hall : ∀ n, n ∈ ns)
    (b : Block) : (ns.map (laneIx i)).foldl xorByteStep b = xorInverseStep b i := by
  refine block_ext_lanes fun i' m => ?_
  rw [foldl_xorByteStep_lane hi hns, xorInverseStep_lane]
  simp only [hall m, and_true]

/-- The byte steps of word after word are the chain of XORI's steps. -/
theorem foldl_xorByteStep_words {ns : List (Fin 4)} (hns : ns.Nodup) (hall : ∀ n, n ∈ ns) {is : List WordIx}
    (his : ∀ i ∈ is, i ≠ 0) (b : Block) :
    ((is.map fun i => ns.map (laneIx i)).flatten).foldl xorByteStep b = is.foldl xorInverseStep b := by
  induction is generalizing b with
  | nil => rfl
  | cons i is ih =>
    obtain ⟨hi, hrest⟩ := List.forall_mem_cons.mp his
    rw [List.map_cons, List.flatten_cons, List.foldl_append, foldl_xorByteStep_word hi hns hall, ih hrest,
      List.foldl_cons]

theorem byteChainForward_eq (b : Block) : byteChainForward b = xorForward b := by
  have hbytes : (List.finRange 32).drop 4 = (wordsUp.tail.map fun i => [0, 1, 2, 3].map (laneIx i)).flatten := by decide
  rw [byteChainForward, hbytes, foldl_xorByteStep_words (by decide) (by decide) (by decide), xorForward_eq_foldl]

theorem byteChainInverse_eq (b : Block) : byteChainInverse b = xorInverse b := by
  have hbytes : ((List.finRange 32).drop 4).reverse = (wordsDown.map fun i => [3, 2, 1, 0].map (laneIx i)).flatten := by
    decide
  rw [byteChainInverse, hbytes, foldl_xorByteStep_words (by decide) (by decide) (by decide), xorInverse]

/-- Settles O21. -/
theorem xorTransformsAreFourByteChains : Obligations.XorTransformsAreFourByteChains := by
  intro s hlegal
  rw [byteChainForward_eq, byteChainInverse_eq]
  exact ⟨exec_xorf hlegal, exec_xori hlegal⟩

end Sys2Proof.Proofs

/-! PROOFS. BMI as a command: the block it pulls, the bytes it uses and no others, and no trace of the block held before
(spec 30_encoding.md R66 to R71; 42_sparse_bitmap.md R110, R114, R115, R118; 43_block_driver.md R130). -/

namespace Sys2Proof.Proofs

open Sys2Proof Sys2Proof.Machine Sys2Proof.Safety

/-! ### A complete block, or the end of the input -/

/-- A group inside which the input does not end uses a literal for each byte whose token bit is 1 (R68, R71). -/
theorem groupOfInput_used {tok : Byte} {ks : List BitIx} {input : List Byte}
    (h : (groupOfInput tok ks input).2.2 = false) :
    ∃ lits, lits.length = (ks.filter (tokenBit tok)).length ∧ input = lits ++ (groupOfInput tok ks input).2.1 := by
  induction ks generalizing input with
  | nil => exact ⟨[], rfl, rfl⟩
  | cons k ks ih =>
    cases hk : tokenBit tok k with
    | false =>
      rw [groupOfInput_zero hk] at h ⊢
      rw [List.filter_cons_of_neg (by simp [hk])]
      exact ih h
    | true =>
      rw [List.filter_cons_of_pos hk]
      cases input with
      | nil =>
        rw [groupOfInput_end hk] at h
        cases h
      | cons v input =>
        rw [groupOfInput_literal hk] at h ⊢
        obtain ⟨lits, hlen, hinput⟩ := ih h
        exact ⟨v :: lits, congrArg (· + 1) hlen, congrArg (v :: ·) hinput⟩

/-- Either the input begins with `n` well-formed group records, or it ends inside the groups and none of it is left
(R66, R115). -/
theorem groupsOfInput_cases (n : Nat) (input : List Byte) :
    (∃ rs rest, rs.length = n ∧ (∀ r ∈ rs, r.wf = true) ∧ input = compressedBlockBytes rs ++ rest) ∨
    ((groupsOfInput n input).2.1 = [] ∧ (groupsOfInput n input).2.2 = true) := by
  induction n generalizing input with
  | zero => exact .inl ⟨[], input, rfl, nofun, rfl⟩
  | succ n ih =>
    cases input with
    | nil => exact .inr ⟨rfl, rfl⟩
    | cons tok input =>
      cases h : (groupOfInput tok groupOrder input).2.2 with
      | true =>
        rw [groupsOfInput_truncated n h]
        exact .inr ⟨rfl, rfl⟩
      | false =>
        rw [groupsOfInput_complete n h]
        refine (ih (groupOfInput tok groupOrder input).2.1).imp ?_ id
        rintro ⟨rs, rest, hlen, hwf, hrest⟩
        obtain ⟨lits, hlits, hinput⟩ := groupOfInput_used h
        refine ⟨⟨tok, lits⟩ :: rs, rest, congrArg (· + 1) hlen, List.forall_mem_cons.mpr ⟨(wf_iff _).mpr hlits, hwf⟩, ?_⟩
        rw [compressedBlockBytes_cons, List.append_assoc, ← hrest, GroupRecord.bytes, List.cons_append, ← hinput]

/-- Either the input begins with a complete compressed block, or it ends inside the block and none of it is left
(R66, R115). -/
theorem blockOfInput_cases (input : List Byte) :
    (∃ rs rest, compressedBlockWf rs = true ∧ input = compressedBlockBytes rs ++ rest) ∨
    ((blockOfInput input).2.1 = [] ∧ (blockOfInput input).2.2 = true) := by
  refine (groupsOfInput_cases 4 input).imp ?_ id
  rintro ⟨rs, rest, hlen, hwf, hinput⟩
  exact ⟨rs, rest, (compressedBlockWf_iff rs).mpr ⟨hlen, hwf⟩, hinput⟩

/-- The bytes of the input that the block at its beginning takes (R114). -/
def usedInput (input : List Byte) : List Byte := input.take (input.length - (blockOfInput input).2.1.length)

theorem usedInput_length (input : List Byte) :
    (usedInput input).length = input.length - (blockOfInput input).2.1.length := by
  rw [usedInput, List.length_take]
  omega

/-- A complete block takes just its own bytes. -/
theorem usedInput_compressedBlock {rs : List GroupRecord} (h : compressedBlockWf rs = true) (rest : List Byte) :
    usedInput (compressedBlockBytes rs ++ rest) = compressedBlockBytes rs := by
  rw [usedInput, blockOfInput_compressedBlock h, List.length_append, Nat.add_sub_cancel, List.take_left]

/-- What a block decodes to, how much is left after it and whether the input ended inside it are settled by the bytes it
takes and the length of the input (R114). -/
theorem blockOfInput_congr {input input' : List Byte} (hlen : input'.length = input.length)
    (h : usedInput input <+: input') :
    (blockOfInput input').1 = (blockOfInput input).1 ∧
    (blockOfInput input').2.1.length = (blockOfInput input).2.1.length ∧
    (blockOfInput input').2.2 = (blockOfInput input).2.2 := by
  rcases blockOfInput_cases input with ⟨rs, rest, hwf, rfl⟩ | ⟨hleft, -⟩
  · rw [usedInput_compressedBlock hwf] at h
    obtain ⟨rest', rfl⟩ := h
    have hrest : rest'.length = rest.length := by simpa using hlen
    simp only [blockOfInput_compressedBlock hwf, hrest, and_self]
  · have hall : usedInput input = input := by rw [usedInput, hleft, List.length_nil, Nat.sub_zero, List.take_length]
    obtain rfl : input = input' := (hall ▸ h).eq_of_length hlen.symm
    exact ⟨rfl, rfl, rfl⟩

/-! ### Bytes of the source at SRC_POS -/

/-- What the source holds at SRC_POS, inside SRC_LEN, is the beginning of the input left. -/
theorem inputLeft_begins {s : State} {vs : List Byte} (hfit : vs.length ≤ remaining s)
    (h : sourceHolds s s.srcPos.toNat vs) : vs <+: inputLeft s := by
  have htake : (inputLeft s).take vs.length = vs := by
    refine List.ext_getElem (List.length_take_of_le (inputLeft_length s ▸ hfit)) fun n _ hn => ?_
    simpa [inputLeft] using h ⟨n, hn⟩
  exact htake ▸ List.take_prefix _ _

/-- A beginning of the input left stands in the source at SRC_POS. -/
theorem memRead_of_begins {s : State} {vs : List Byte} (h : vs <+: inputLeft s) {n : Nat} (hn : n < vs.length) :
    memRead s (s.srcPos.toNat + n) = vs[n] := by
  rw [h.getElem hn]
  simp [inputLeft]

/-! ### The command -/

/-- The state BMI ends in when it was not refused (R110, R115). -/
def bmiResult (s : State) : State :=
  { s with
    blk := blockOfList (blockOfInput (inputLeft s)).1
    srcPos := s.srcPos + BitVec.ofNat 32 ((inputLeft s).length - (blockOfInput (inputLeft s)).2.1.length)
    blkCnt := s.blkCnt + (if s.srcPos < s.srcLen then 1#32 else 0#32)
    trunc := s.trunc || (blockOfInput (inputLeft s)).2.2
    busy := false, done := true }

/-- What issuing BMI does, with legal lengths (R110, R154). -/
theorem exec_bmi {s : State} (hlegal : lengthsLegal s) : exec .bmi s = .next (bmiResult s) := by
  have hinput : inputLeft (accept s) = inputLeft s := rfl
  refine (congrArg Host.Outcome.next (runStage_running hlegal bmiStage)).trans ?_
  rw [bmiStage_eq, hinput, complete, accept, bmiResult]

/-- SRC_POS after BMI: past the bytes the block takes, without a wrap (R114). -/
theorem bmiResult_srcPos (s : State) :
    (bmiResult s).srcPos.toNat = s.srcPos.toNat + (usedInput (inputLeft s)).length := by
  rw [usedInput_length]
  refine srcPos_toNat_add ?_
  rw [← inputLeft_length]
  exact Nat.sub_le _ _

/-- BMI where a complete compressed block stands at SRC_POS: the block of its records, and no TRUNC (R113, R114). -/
theorem exec_bmi_compressedBlock {s : State} (hlegal : lengthsLegal s) {rs : List GroupRecord}
    (hwf : compressedBlockWf rs = true) (h : compressedBlockBytes rs <+: inputLeft s) :
    exec .bmi s = .next { s with
      blk := blockOfRecords rs
      srcPos := s.srcPos + BitVec.ofNat 32 (compressedBlockBytes rs).length
      blkCnt := s.blkCnt + 1#32
      busy := false, done := true } := by
  obtain ⟨hrecords, hrs⟩ := (compressedBlockWf_iff rs).mp hwf
  have hlen := compressedBlockBytes_length hrs
  have hle := h.length_le
  have hbyte : s.srcPos < s.srcLen := by
    rw [← BitVec.not_le, ← inputLeft_eq_nil_iff, ← List.length_eq_zero_iff]
    omega
  obtain ⟨rest, hinput⟩ := h
  rw [exec_bmi hlegal, bmiResult, if_pos hbyte, ← hinput, blockOfInput_compressedBlock hwf, List.length_append,
    Nat.add_sub_cancel, Bool.or_false, blockOfRecords]

/-- Settles O24. -/
theorem bmiPullsOneCompressedBlock : Obligations.BmiPullsOneCompressedBlock :=
  ⟨rfl, fun _ hlegal => ⟨exec_bmi hlegal, blockOfInput_length _⟩⟩

/-- BMI where the source ends inside the block moves SRC_POS to the end and sets TRUNC (R114, R115). -/
theorem exec_bmi_truncated {s : State} (hlegal : lengthsLegal s) (hpos : s.srcPos ≤ s.srcLen)
    (hleft : (blockOfInput (inputLeft s)).2.1 = []) (htrunc : (blockOfInput (inputLeft s)).2.2 = true) :
    ∃ t, exec .bmi s = .next t ∧ t.srcPos = s.srcLen ∧ t.trunc = true := by
  refine ⟨_, exec_bmi hlegal, BitVec.eq_of_toNat_eq ?_, ?_⟩
  · have hle := BitVec.le_def.mp hpos
    rw [bmiResult_srcPos, usedInput_length, hleft, inputLeft_length, remaining, List.length_nil]
    omega
  · rw [bmiResult, htrunc, Bool.or_true]

/-- A source memory that agrees on the bytes the block takes leads BMI to the same state but for that memory (R114). -/
theorem exec_bmi_source_congr {s : State} (hlegal : lengthsLegal s) {m : Memory}
    (h : ∀ n, n < (usedInput (inputLeft s)).length →
      byteAt .source m (s.srcPos.toNat + n) = memRead s (s.srcPos.toNat + n)) :
    exec .bmi { s with src := m } = .next { bmiResult s with src := m } := by
  have htaken : usedInput (inputLeft s) <+: inputLeft s := List.take_prefix _ _
  have hlen : (inputLeft { s with src := m }).length = (inputLeft s).length :=
    (inputLeft_length _).trans (inputLeft_length s).symm
  have hused : usedInput (inputLeft s) <+: inputLeft { s with src := m } :=
    inputLeft_begins (inputLeft_length s ▸ htaken.length_le)
      fun n => (h n.val n.isLt).trans (memRead_of_begins htaken n.isLt)
  obtain ⟨hblock, hleft, htrunc⟩ := blockOfInput_congr hlen hused
  rw [exec_bmi (s := { s with src := m }) hlegal, bmiResult, hblock, hleft, htrunc, hlen, bmiResult]

/-- Settles O25: a complete block, a block the source ends in, and a source changed outside the bytes taken. -/
theorem bmiConsumesExactlyOneBlock : Obligations.BmiConsumesExactlyOneBlock := by
  refine ⟨fun s rs hlegal hwf hholds hfit => ?_, fun s hlegal hpos hnone => ?_, fun s hlegal => ?_⟩
  · have hbmi := exec_bmi_compressedBlock hlegal hwf (inputLeft_begins (Nat.le_sub_of_add_le' hfit) hholds)
    obtain ⟨hlen, hmin, hmax⟩ := compressedBlockIsFourToThirtySixBytes.1 rs hwf
    have hmoved : (s.srcPos + BitVec.ofNat 32 (compressedBlockBytes rs).length).toNat =
        s.srcPos.toNat + (compressedBlockBytes rs).length := toNat_add_ofNat (hfit.trans_lt s.srcLen.isLt)
    exact ⟨_, hbmi, rfl, by rw [hmoved, hlen, Nat.add_assoc], by rw [hmoved]; omega, by rw [hmoved]; omega⟩
  · rcases blockOfInput_cases (inputLeft s) with ⟨rs, rest, hwf, hinput⟩ | ⟨hleft, htrunc⟩
    · exact absurd ⟨rest, hinput.symm⟩ (hnone rs hwf)
    · exact exec_bmi_truncated hlegal hpos hleft htrunc
  · refine ⟨_, exec_bmi hlegal, fun m hm => exec_bmi_source_congr hlegal fun n hn => ?_⟩
    refine hm _ (Nat.le_add_right _ _) ?_
    rw [bmiResult_srcPos]
    exact Nat.add_lt_add_left hn _

/-! ### The block held before -/

/-- A load overwrites all of BLK (R118, R130). -/
theorem loadBytes_blk {n : Nat} {s : State} (hn : n ≤ remaining s) (h32 : n ≤ 32) (b : Block) :
    loadBytes n { s with blk := b } = loadBytes n s := by
  have hn' : n ≤ remaining { s with blk := b } := hn
  rw [loadBytes_eq hn h32, loadBytes_eq hn' h32]
  rfl

/-- An LDBLK that loads leaves nothing of the block held before, under every tail policy (R118, R130). -/
theorem ldblkStage_blk {p : TailPolicy} {s : State} (h : (ldblkStage p s).1 = true) (b : Block) :
    ldblkStage p { s with blk := b } = ldblkStage p s := by
  have hrem : remaining { s with blk := b } = remaining s := rfl
  rcases ldblkStage_cases p s with ⟨h32, -⟩ | ⟨h1, hlt, rfl, -⟩ | ⟨-, -, -, e⟩ | ⟨-, e⟩
  · simp only [ldblkStage, hrem, if_pos h32, loadBytes_blk h32 le_rfl]
  · have hload : loadBytes (remaining s) (setTail { s with blk := b }) = loadBytes (remaining s) (setTail s) :=
      loadBytes_blk (s := setTail s) le_rfl hlt.le b
    simp only [ldblkStage, hrem, if_neg (Nat.not_le.mpr hlt), if_pos h1, hload]
  · rw [e] at h
    cases h
  · rw [e] at h
    cases h

/-- Settles O29: the state BMI ends in names no byte of BLK, and no load keeps one. -/
theorem loadedBlocksHoldNoStaleData : Obligations.LoadedBlocksHoldNoStaleData := by
  refine ⟨fun s b hlegal => ?_, fun p s b h => ldblkStage_blk h b⟩
  have hinput : inputLeft { s with blk := b } = inputLeft s := rfl
  rw [exec_bmi hlegal, exec_bmi (s := { s with blk := b }) hlegal, bmiResult, hinput, bmiResult]

end Sys2Proof.Proofs

/-! PROOFS. BMF as a command, with and without room for the compressed block (spec 30_encoding.md R67 to R69;
42_sparse_bitmap.md R111, R112, R116, R117; 60_exceptions.md R168; 70_reset_and_hazards.md R195). -/

namespace Sys2Proof.Proofs

open Sys2Proof Sys2Proof.Machine Sys2Proof.Safety

/-- Settles O22, by `tokenBit_tokenOf`. -/
theorem tokenFlagsTheNonZeroBytes : Obligations.TokenFlagsTheNonZeroBytes := by
  intro b g k
  refine (tokenBit_tokenOf b g k).trans ?_
  rw [Bool.eq_iff_iff, decide_eq_true_iff]
  exact bne_iff_ne

/-! ### Emitting without room -/

/-- Emitting bytes there is too little room for stores those that fit and aborts at DST_CAP (R82, R168). -/
theorem emitAll_noRoom {vs : List Byte} {s : State} (hpos : s.dstPos ≤ s.dstCap)
    (hover : s.dstCap.toNat < s.dstPos.toNat + vs.length) :
    emitAll vs false s = .aborted { s with
      dst := storeBytes s.dst s.dstPos.toNat (vs.take (s.dstCap.toNat - s.dstPos.toNat))
      dstPos := s.dstCap, bounds := true } := by
  rw [BitVec.le_def] at hpos
  have hfits : (vs.take (s.dstCap.toNat - s.dstPos.toNat)).length = s.dstCap.toNat - s.dstPos.toNat :=
    List.length_take_of_le (by omega)
  have hroom : Room false (vs.take (s.dstCap.toNat - s.dstPos.toNat)).length s := .inr (by omega)
  have hcap : s.dstPos + BitVec.ofNat 32 (s.dstCap.toNat - s.dstPos.toNat) = s.dstCap := by
    have hlt := s.dstCap.isLt
    refine BitVec.eq_of_toNat_eq ?_
    rw [toNat_add_ofNat (by omega)]
    omega
  obtain ⟨v, rest, hrest⟩ := List.exists_cons_of_length_pos
    (l := vs.drop (s.dstCap.toNat - s.dstPos.toNat)) (by rw [List.length_drop]; omega)
  conv_lhs => rw [← List.take_append_drop (s.dstCap.toNat - s.dstPos.toNat) vs]
  rw [emitAll_append, emitAll_room false _ s hroom, andThen_running, hfits, hcap, hrest, emitAll_cons,
    emit_full v (BitVec.le_refl _), andThen_aborted]
  rfl

/-! ### The command -/

/-- A stage command with legal lengths runs its body between acceptance and end (R154). -/
theorem runStage_legal {s : State} (hlegal : lengthsLegal s) (body : State → Progress) :
    runStage body s = complete (progressState (body (accept s))) := by
  rw [runStage, (lengthsIllegal_eq_false_iff s).mpr hlegal, if_neg Bool.false_ne_true]

/-- What issuing BMF does, with legal lengths: the compressed block of BLK is emitted (R111, R154). -/
theorem exec_bmf {s : State} (hlegal : lengthsLegal s) :
    exec .bmf s = .next (complete (progressState (emitAll (compressedBytes s.blk) false (accept s)))) :=
  congrArg Host.Outcome.next (runStage_legal hlegal (bmfStage false))

/-- BMF with room stores the compressed block of BLK (R111, R116). -/
theorem exec_bmf_room {s : State} (hlegal : lengthsLegal s)
    (hroom : s.dstPos.toNat + (compressedBytes s.blk).length ≤ s.dstCap.toNat) :
    exec .bmf s = .next { s with
      dst := storeBytes s.dst s.dstPos.toNat (compressedBytes s.blk)
      dstPos := s.dstPos + BitVec.ofNat 32 (compressedBytes s.blk).length, busy := false, done := true } := by
  have hroom' : Room false (compressedBytes s.blk).length (accept s) := .inr hroom
  rw [exec_bmf hlegal, emitAll_room false _ _ hroom', progressState_running]
  rfl

/-- BMF without room stores the bytes that fit (R117, R168). -/
theorem exec_bmf_noRoom {s : State} (hlegal : lengthsLegal s) (hpos : s.dstPos ≤ s.dstCap)
    (hover : s.dstCap.toNat < s.dstPos.toNat + (compressedBytes s.blk).length) :
    exec .bmf s = .next { s with
      dst := storeBytes s.dst s.dstPos.toNat ((compressedBytes s.blk).take (s.dstCap.toNat - s.dstPos.toNat))
      dstPos := s.dstCap, bounds := true, busy := false, done := true } := by
  have hstage := emitAll_noRoom (s := accept s) hpos hover
  rw [exec_bmf hlegal, hstage, progressState_aborted]
  rfl

/-- A compressed block has its four tokens at least (R69). -/
theorem four_le_compressedBytes_length (b : Block) : 4 ≤ (compressedBytes b).length := by
  rw [compressedBytes_length]
  exact Nat.le_add_right _ _

/-- BMF with the cursor past the capacity refuses its first byte (R117, R195). -/
theorem exec_bmf_pastCap {s : State} (hlegal : lengthsLegal s) (hpast : s.dstCap < s.dstPos) :
    exec .bmf s = .next { s with bounds := true, busy := false, done := true } := by
  have hfull : (accept s).dstCap ≤ (accept s).dstPos := BitVec.le_of_lt hpast
  obtain ⟨v, rest, hbytes⟩ := List.exists_cons_of_length_pos
    ((Nat.succ_pos 3).trans_le (four_le_compressedBytes_length s.blk))
  rw [exec_bmf hlegal, hbytes, emitAll_cons, emit_full v hfull, andThen_aborted, progressState_aborted]
  rfl

/-- A compressed block is, group by group, the token and the bytes that are not 0x00 (R67, R111). -/
theorem compressedBytes_eq (b : Block) :
    compressedBytes b = (groups.map fun g =>
      tokenOf b g :: (groupOrder.map fun k => b[blkIx g k]).filter (· ≠ 0#8)).flatten := by
  rw [compressedBytes, compressedBlockBytes, List.map_map]
  refine congrArg List.flatten (List.map_congr_left fun g _ => ?_)
  rw [Function.comp_apply, GroupRecord.bytes, recordOf, literalsOf_eq, groupBytes]

/-- Settles O26. -/
theorem bmfEmitsTheCompressedBlock : Obligations.BmfEmitsTheCompressedBlock := by
  refine ⟨rfl, fun s => ?_⟩
  rw [← compressedBytes_eq]
  exact ⟨compressedBytes_length _, four_le_compressedBytes_length _, compressedBytes_length_le _,
    fun hlegal hroom => ⟨_, exec_bmf_room hlegal hroom, byteAt_storeBytes .destination s.dst s.dstPos.toNat _⟩,
    emitAll_sizeOnly _ s⟩

/-- Settles O27. -/
theorem bmfStopsAtTheDestinationEnd : Obligations.BmfStopsAtTheDestinationEnd := fun s hlegal =>
  ⟨fun hpos hover => ⟨_, exec_bmf_noRoom hlegal hpos hover, byteAt_storeBytes .destination s.dst s.dstPos.toNat _⟩,
    exec_bmf_pastCap hlegal⟩

end Sys2Proof.Proofs

/-! PROOFS. BMI and BMF invert each other (spec 30_encoding.md R72; 42_sparse_bitmap.md R113). -/

namespace Sys2Proof.Proofs

open Sys2Proof Sys2Proof.Machine Sys2Proof.Safety

/-- BMI where the compressed block of `b` stands at SRC_POS restores `b` (R113). -/
theorem exec_bmi_compressedBytes {s : State} (hlegal : lengthsLegal s) {b : Block}
    (h : compressedBytes b <+: inputLeft s) :
    exec .bmi s = .next { s with
      blk := b, srcPos := s.srcPos + BitVec.ofNat 32 (compressedBytes b).length, blkCnt := s.blkCnt + 1#32,
      busy := false, done := true } := by
  have hwf := compressedBlockWf_of_canonicalBlock (canonicalBlock_recordOf b)
  have hbmi := exec_bmi_compressedBlock hlegal hwf h
  rwa [blockOfRecords_recordOf] at hbmi

/-- The encoder gives the bytes back that a block was decoded from just if they were a canonical block (R72, R113). -/
theorem compressedBytes_blockOfInput_iff (input : List Byte) :
    compressedBytes (blockOfList (blockOfInput input).1) = usedInput input ↔
      ∃ rs, canonicalBlock rs = true ∧ compressedBlockBytes rs = usedInput input := by
  constructor
  · intro h
    exact ⟨_, canonicalBlock_recordOf _, h⟩
  · rintro ⟨rs, hcan, hbytes⟩
    have hwf := compressedBlockWf_of_canonicalBlock hcan
    obtain ⟨rest, hinput⟩ : compressedBlockBytes rs <+: input := hbytes ▸ List.take_prefix _ _
    have hblock : blockOfList (blockOfInput input).1 = blockOfRecords rs := by
      rw [← hinput, blockOfInput_compressedBlock hwf, blockOfRecords]
    rw [hblock, compressedBytes_blockOfRecords hcan, hbytes]

/-- Settles O28: the encoder's own records decode to their block, and canonical records are the encoder's own. -/
theorem bmiInvertsBmf : Obligations.BmiInvertsBmf := by
  refine ⟨fun s u hlegal hroom => ?_, fun s hlegal _ => ?_⟩
  · have hend : (s.dstPos + BitVec.ofNat 32 (compressedBytes s.blk).length).toNat =
        s.dstPos.toNat + (compressedBytes s.blk).length := toNat_add_ofNat (hroom.trans_lt s.dstCap.isLt)
    refine ⟨_, exec_bmf_room hlegal hroom, fun hulegal hread hfit => ?_⟩
    simp only [hend, Nat.add_sub_cancel_left] at hread hfit
    have hholds : sourceHolds u u.srcPos.toNat (compressedBytes s.blk) := by
      intro n
      rw [hread n.val n.isLt, destByte, byteAt_storeBytes, if_pos (by omega), Nat.add_sub_cancel_left]
      exact List.getD_eq_getElem _ _ n.isLt
    rw [exec_bmi_compressedBytes hulegal (inputLeft_begins (Nat.le_sub_of_add_le' hfit) hholds), add_sub_cancel_left]
  · refine ⟨_, exec_bmi hlegal, ?_⟩
    rw [bmiResult_srcPos, Nat.add_sub_cancel_left, usedInput_length]
    exact compressedBytes_blockOfInput_iff (inputLeft s)

end Sys2Proof.Proofs

/-! PROOFS. LDBLK and STBLK as commands, with and without bytes left and room (spec 43_block_driver.md R130, R131;
60_exceptions.md R168; 70_reset_and_hazards.md R195). -/

namespace Sys2Proof.Proofs

open Sys2Proof Sys2Proof.Machine Sys2Proof.Safety

/-! ### Loading a block -/

/-- A block of the first `n` bytes left holds, byte by byte, what the source holds, and zeros after that (R130). -/
theorem blockOfList_take_inputLeft {n : Nat} {s : State} (hn : n ≤ remaining s) (j : ByteIx) :
    (blockOfList ((inputLeft s).take n))[j] = if j.val < n then memRead s (s.srcPos.toNat + j.val) else 0#8 := by
  by_cases h : j.val < n
  · rw [if_pos h, ← inputLeft_getD (h.trans_le hn)]
    simp [blockOfList, List.getD, h]
  · rw [if_neg h]
    simp [blockOfList, List.getD, h]

/-- LDBLK where 32 bytes or more are left (R130). -/
theorem ldblkStage_whole (p : TailPolicy) {s : State} (h : 32 ≤ remaining s) :
    ldblkStage p s = (true, { s with
      blk := blockOfList ((inputLeft s).take 32), srcPos := s.srcPos + 32#32, blkCnt := s.blkCnt + 1#32 }) := by
  simp only [ldblkStage, if_pos h, loadBytes_eq h le_rfl, countBlock]

/-- SRC_POS moved past all bytes left is SRC_LEN. -/
theorem srcPos_add_remaining {s : State} (h : s.srcPos ≤ s.srcLen) :
    s.srcPos + BitVec.ofNat 32 (remaining s) = s.srcLen := by
  rw [BitVec.le_def] at h
  refine BitVec.eq_of_toNat_eq ?_
  rw [srcPos_toNat_add le_rfl, remaining, Nat.add_sub_cancel' h]

theorem srcPos_le_srcLen_of_left {s : State} (h : 1 ≤ remaining s) : s.srcPos ≤ s.srcLen := by
  rw [BitVec.le_def]
  unfold remaining at h
  omega

/-- LDBLK where a partial block is left, under ZEROPAD (R130). -/
theorem ldblkStage_zeropad {s : State} (h1 : 1 ≤ remaining s) (hlt : remaining s < 32) :
    ldblkStage .zeropad s = (true, { s with
      blk := blockOfList (inputLeft s), srcPos := s.srcLen, blkCnt := s.blkCnt + 1#32, tail := true }) := by
  have hall : (inputLeft (setTail s)).take (remaining s) = inputLeft s := inputLeft_length s ▸ List.take_length
  have hload := loadBytes_eq (s := setTail s) (n := remaining s) le_rfl hlt.le
  rw [hall, setTail_srcPos, srcPos_add_remaining (srcPos_le_srcLen_of_left h1)] at hload
  simp only [ldblkStage, if_neg (Nat.not_le.mpr hlt), if_pos h1, hload, countBlock]
  rfl

/-- LDBLK where a partial block is left, under DROP and REJECT (R130). -/
theorem ldblkStage_refusesTail {p : TailPolicy} (hp : p ≠ .zeropad) {s : State} (h1 : 1 ≤ remaining s)
    (hlt : remaining s < 32) : ldblkStage p s = (false, { s with tail := true }) := by
  cases p with
  | drop | reject => simp only [ldblkStage, if_neg (Nat.not_le.mpr hlt), if_pos h1, setTail]
  | zeropad => exact absurd rfl hp

/-- LDBLK where no byte is left (R130). -/
theorem ldblkStage_empty (p : TailPolicy) {s : State} (h : s.srcLen ≤ s.srcPos) : ldblkStage p s = (false, s) := by
  simp [ldblkStage, (remaining_eq_zero_iff s).mpr h]

/-- What issuing LDBLK does, with legal lengths (R130, R154). -/
theorem exec_ldblk {s : State} (hlegal : lengthsLegal s) :
    exec .ldblk s = .next (complete (ldblkStage Config.tailPolicy (accept s)).2) :=
  congrArg Host.Outcome.next (runStage_running hlegal fun t => (ldblkStage Config.tailPolicy t).2)

/-- Settles O34, by the bytes left: a whole block, a partial one under each policy, none. -/
theorem ldblkLoadsABlockOrReportsTheTail : Obligations.LdblkLoadsABlockOrReportsTheTail := by
  refine ⟨rfl, fun s hlegal => ⟨fun hwhole => ?_, fun hleft hpart => ?_, fun hnone => ?_⟩⟩ <;> rw [exec_ldblk hlegal]
  · have h32 : 32 ≤ remaining s := Nat.le_sub_of_add_le' hwhole
    refine ⟨blockOfList ((inputLeft s).take 32), ?_, fun j => ?_⟩
    · rw [ldblkStage_whole Config.tailPolicy (s := accept s) h32]
      rfl
    · rw [blockOfList_take_inputLeft h32, if_pos j.isLt]
  · rw [BitVec.lt_def] at hleft
    have h1 : 1 ≤ remaining s := by unfold remaining; omega
    have hlt : remaining s < 32 := by unfold remaining; omega
    refine ⟨blockOfList (inputLeft s), fun j => ?_, ?_⟩
    · have hbyte := blockOfList_take_inputLeft (le_refl (remaining s)) j
      have hinside : j.val < remaining s ↔ s.srcPos.toNat + j.val < s.srcLen.toNat := Nat.lt_sub_iff_add_lt'
      rw [← inputLeft_length, List.take_length, inputLeft_length] at hbyte
      simpa only [hinside] using hbyte
    · by_cases hp : Config.tailPolicy = .zeropad
      · rw [if_pos hp, hp, ldblkStage_zeropad (s := accept s) h1 hlt]
        rfl
      · rw [if_neg hp, ldblkStage_refusesTail hp (s := accept s) h1 hlt]
        rfl
  · rw [ldblkStage_empty Config.tailPolicy (s := accept s) hnone]
    rfl

/-! ### Appending a block -/

/-- Emitting with the cursor at or past the capacity refuses the first byte (R82, R195). -/
theorem emitAll_pastCap {vs : List Byte} (hvs : 0 < vs.length) {s : State} (hpast : s.dstCap ≤ s.dstPos) :
    emitAll vs false s = .aborted { s with bounds := true } := by
  obtain ⟨v, rest, rfl⟩ := List.exists_cons_of_length_pos hvs
  rw [emitAll_cons, emit_full v hpast, andThen_aborted]

/-- What issuing STBLK does, with legal lengths: the bytes of BLK are emitted (R131, R154). -/
theorem exec_stblk {s : State} (hlegal : lengthsLegal s) :
    exec .stblk s = .next (complete (progressState (emitAll s.blk.toList false (accept s)))) :=
  congrArg Host.Outcome.next (runStage_legal hlegal (stblkStage false))

/-- Settles O35, by the room there is: for the block, for less than the block, none with the cursor past the end. -/
theorem stblkAppendsTheBlock : Obligations.StblkAppendsTheBlock := by
  refine ⟨rfl, fun s hlegal => ?_⟩
  have h32 : s.blk.toList.length = 32 := Vector.length_toList
  rw [exec_stblk hlegal]
  refine ⟨fun hroom => ⟨storeBytes s.dst s.dstPos.toNat s.blk.toList, ?_, byteAt_storeBytes _ _ _ _⟩,
    fun hpos hover => ⟨storeBytes s.dst s.dstPos.toNat (s.blk.toList.take (s.dstCap.toNat - s.dstPos.toNat)), ?_,
      byteAt_storeBytes _ _ _ _⟩, fun hpast => ?_, ?_⟩
  · have hroom' : Room false s.blk.toList.length (accept s) := .inr (by rwa [h32])
    rw [emitAll_room false _ _ hroom', h32]
    rfl
  · rw [emitAll_noRoom (s := accept s) hpos (by rwa [h32])]
    rfl
  · rw [emitAll_pastCap (s := accept s) (by omega) (BitVec.le_of_lt hpast)]
    rfl
  · rw [stblkStage, emitAll_sizeOnly, h32]

end Sys2Proof.Proofs

/-! PROOFS. The whole-buffer commands with room for their output, and the size-only ones (spec 43_block_driver.md R132
to R136, R139, R140). -/

namespace Sys2Proof.Proofs

open Sys2Proof Sys2Proof.Machine Sys2Proof.Safety

/-- Settles O36: the pass with room writes the blocks at offset 0, as `byteAt_storeBytes` reads them back. -/
theorem decDecodesTheWholeSource : Obligations.DecDecodesTheWholeSource :=
  ⟨rfl, fun s hlegal hroom => ⟨storeBytes s.dst 0 (bytesOfBlocks (decoded s).1),
    congrArg Host.Outcome.next (runWhole_decPass_room false s hlegal (.inr hroom)),
    byteAt_storeBytes .destination s.dst 0 _⟩⟩

/-- Settles O37: size-only output always has room, and stores nothing. -/
theorem decszCountsWithoutWriting : Obligations.DecszCountsWithoutWriting :=
  ⟨rfl, fun s hlegal => congrArg Host.Outcome.next (runWhole_decPass_room true s hlegal (.inl rfl))⟩

/-- Settles O39: size-only output always has room, and stores nothing. -/
theorem encszCountsWithoutWriting : Obligations.EncszCountsWithoutWriting :=
  ⟨rfl, fun s hlegal =>
    congrArg Host.Outcome.next (runWhole_encPass_room Config.tailPolicy true s hlegal (.inl rfl))⟩

/-! ### How many blocks, and how many bytes -/

/-- A group takes no more bytes of the input than it has logical bytes (R68). -/
theorem groupOfInput_takes_le (tok : Byte) (ks : List BitIx) (input : List Byte) :
    input.length ≤ ks.length + (groupOfInput tok ks input).2.1.length := by
  induction ks generalizing input with
  | nil => exact Nat.le_add_left _ _
  | cons k ks ih =>
    cases hk : tokenBit tok k with
    | false =>
      have hrest := ih input
      rw [groupOfInput_zero hk, List.length_cons]
      dsimp only
      omega
    | true =>
      cases input with
      | nil => exact Nat.zero_le _
      | cons v input =>
        have hrest := ih input
        rw [groupOfInput_literal hk, List.length_cons, List.length_cons]
        dsimp only
        omega

/-- `n` groups take 9 bytes of the input each at most: a token and 8 literals (R68). -/
theorem groupsOfInput_takes_le (n : Nat) (input : List Byte) :
    input.length ≤ 9 * n + (groupsOfInput n input).2.1.length := by
  induction n generalizing input with
  | zero => exact Nat.le_add_left _ _
  | succ n ih =>
    cases input with
    | nil => exact Nat.zero_le _
    | cons tok input =>
      have hgroup : input.length ≤ 8 + (groupOfInput tok groupOrder input).2.1.length :=
        groupOfInput_takes_le tok groupOrder input
      have hrest := ih (groupOfInput tok groupOrder input).2.1
      rw [List.length_cons]
      cases h : (groupOfInput tok groupOrder input).2.2 with
      | true =>
        rw [groupOfInput_truncated h, List.length_nil] at hgroup
        omega
      | false =>
        rw [groupsOfInput_complete n h]
        dsimp only
        omega

/-- A block takes 36 bytes of the input at most, and 4 at least unless it takes all there are (R69, R115). -/
theorem blockOfInput_takes (input : List Byte) :
    input.length ≤ 36 + (blockOfInput input).2.1.length ∧
    ((blockOfInput input).2.1 = [] ∨ 4 + (blockOfInput input).2.1.length ≤ input.length) := by
  refine ⟨groupsOfInput_takes_le 4 input, ?_⟩
  rcases blockOfInput_cases input with ⟨rs, rest, hwf, rfl⟩ | ⟨hleft, -⟩
  · obtain ⟨-, hfour, -⟩ := compressedBlockIsFourToThirtySixBytes.1 rs hwf
    rw [blockOfInput_compressedBlock hwf, List.length_append]
    exact .inr (Nat.add_le_add_right hfour _)
  · exact .inl hleft

/-- An input decodes to one block for each 36 bytes at least and for each 4 bytes at most, both rounded up (R140). -/
theorem decodedBlocks_length_bounds {n : Nat} {input : List Byte} (hn : input.length ≤ n) :
    input.length ≤ 36 * (decodedBlocks n input).1.length ∧
    4 * (decodedBlocks n input).1.length ≤ input.length + 3 := by
  induction n generalizing input with
  | zero => exact ⟨hn.trans (Nat.zero_le _), Nat.zero_le _⟩
  | succ n ih =>
    by_cases h : input = []
    · subst h
      simp [decodedBlocks_nil]
    · have hlt := blockOfInput_left_lt h
      obtain ⟨hmost, hleast⟩ := blockOfInput_takes input
      obtain ⟨hlow, hhigh⟩ := ih (input := (blockOfInput input).2.1) (by omega)
      rw [decodedBlocks_succ n h, List.length_cons]
      refine ⟨by omega, ?_⟩
      rcases hleast with hall | hfour
      · rw [hall, decodedBlocks_nil, List.length_nil]
        have hpos : 0 < input.length := List.length_pos_iff.mpr h
        omega
      · omega

/-- The blocks the source decodes to (R140). -/
theorem decoded_length_bounds (s : State) :
    s.srcLen.toNat ≤ 36 * (decoded s).1.length ∧ 4 * (decoded s).1.length ≤ s.srcLen.toNat + 3 := by
  have hbounds := decodedBlocks_length_bounds (wholeInput_length s).le
  rwa [wholeInput_length] at hbounds

/-- Compressed blocks are 4 to 36 bytes each (R69). -/
theorem streamOf_length_bounds (bs : List Block) :
    4 * bs.length ≤ (streamOf bs).length ∧ (streamOf bs).length ≤ 36 * bs.length := by
  induction bs with
  | nil => exact ⟨le_rfl, le_rfl⟩
  | cons b bs ih =>
    have hleast := four_le_compressedBytes_length b
    have hmost := compressedBytes_length_le b
    rw [streamOf_cons, List.length_append, List.length_cons]
    omega

theorem rawBlocks_length_le (p : TailPolicy) (n : Nat) (input : List Byte) : (rawBlocks p n input).length ≤ n := by
  induction n generalizing input with
  | zero => exact le_rfl
  | succ n ih =>
    rw [rawBlocks]
    split_ifs
    · exact Nat.succ_le_succ (ih _)
    · exact Nat.succ_le_succ (Nat.zero_le n)
    · exact Nat.zero_le _

theorem encodedBlocks_length_le (p : TailPolicy) (s : State) :
    (encodedBlocks p s).length ≤ s.srcLen.toNat / 32 + 1 := by
  rw [encodedBlocks]
  split_ifs
  · exact Nat.zero_le _
  · rw [List.length_map]
    exact rawBlocks_length_le p _ _

/-- With a legal SRC_LEN the output of DEC is shorter than the offset space (R140). -/
theorem decoded_length_lt {s : State} (hlegal : lengthsLegal s) : 32 * (decoded s).1.length < 2 ^ 32 := by
  have hlen : s.srcLen.toNat ≤ 2 ^ 28 := BitVec.le_def.mp hlegal.1
  obtain ⟨-, hmost⟩ := decoded_length_bounds s
  omega

/-- With a legal SRC_LEN the output of ENC is shorter than the offset space (R140). -/
theorem encodedStream_length_lt (p : TailPolicy) {s : State} (hlegal : lengthsLegal s) :
    36 * (encodedBlocks p s).length < 2 ^ 32 ∧ (encodedStream p s).length < 2 ^ 32 := by
  have hlen : s.srcLen.toNat ≤ 2 ^ 28 := BitVec.le_def.mp hlegal.1
  have hcount := encodedBlocks_length_le p s
  obtain ⟨-, hmost⟩ := streamOf_length_bounds (encodedBlocks p s)
  rw [encodedStream_eq]
  omega

/-- Settles O47: no register wraps, so the answers are the counts of blocks and bytes. -/
theorem outputLengthsAreBounded : Obligations.OutputLengthsAreBounded := by
  refine fun s hlegal => ⟨⟨_, decszCountsWithoutWriting.2 s hlegal, ?_⟩, ⟨_, encszCountsWithoutWriting.2 s hlegal, ?_⟩⟩
  · have hlt := decoded_length_lt hlegal
    obtain ⟨hleast, hmost⟩ := decoded_length_bounds s
    simp only [BitVec.toNat_ofNat]
    omega
  · obtain ⟨hcount, hlt⟩ := encodedStream_length_lt Config.tailPolicy hlegal
    obtain ⟨hleast, hmost⟩ := streamOf_length_bounds (encodedBlocks Config.tailPolicy s)
    rw [encodedStream_eq] at hlt ⊢
    simp only [BitVec.toNat_ofNat]
    omega

/-! ### The answer of a size command, and the command it answers for -/

/-- Bytes written from offset 0 leave the offsets behind them alone. -/
theorem byteAt_of_writtenAt_zero {m0 m : Memory} {vs : List Byte} (h : writtenAt m0 m 0 vs) {a : Nat}
    (ha : vs.length ≤ a) : byteAt .destination m a = byteAt .destination m0 a :=
  (h a).trans (if_neg fun hin => by omega)

/-- Settles O43: both commands of a pair end as the pass with room does, whatever the capacity, and the answer is the
length of the output. -/
theorem sizeCommandsAgreeWithTheWritingOnes : Obligations.SizeCommandsAgreeWithTheWritingOnes := by
  intro s c hlegal hc
  have hlegal' : lengthsLegal { s with dstCap := c } := ⟨hlegal.1, hc⟩
  refine ⟨⟨_, decszCountsWithoutWriting.2 s hlegal, rfl, rfl, fun hroom => ?_⟩,
    ⟨_, encszCountsWithoutWriting.2 s hlegal, rfl, rfl, fun hroom => ?_⟩⟩ <;> rw [BitVec.le_def] at hroom
  · have hlen : (BitVec.ofNat 32 (32 * (decoded s).1.length)).toNat = 32 * (decoded s).1.length :=
      Nat.mod_eq_of_lt (decoded_length_lt hlegal)
    obtain ⟨m, hdec, hdest⟩ := decDecodesTheWholeSource.2 _ hlegal' (hlen ▸ hroom)
    exact ⟨m, hdec, fun a ha => byteAt_of_writtenAt_zero hdest ((bytesOfBlocks_length _).trans_le (hlen ▸ ha))⟩
  · have hlen : (BitVec.ofNat 32 (encodedStream Config.tailPolicy s).length).toNat =
        (encodedStream Config.tailPolicy s).length :=
      Nat.mod_eq_of_lt (encodedStream_length_lt Config.tailPolicy hlegal).2
    obtain ⟨m, henc, hdest⟩ := encEncodesTheWholeSource.2 _ hlegal' (hlen ▸ hroom)
    exact ⟨m, henc, fun a ha => byteAt_of_writtenAt_zero hdest (hlen ▸ ha)⟩

end Sys2Proof.Proofs

/-! PROOFS. DEC and ENC are host scripts of stage commands (spec 10_state.md R35; 43_block_driver.md R132, R134, R143;
44_system.md R151, R154). -/

namespace Sys2Proof.Proofs

open Sys2Proof Sys2Proof.Machine Sys2Proof.Safety

/-! ### A stage between two commands -/

/-- The stage pays no regard to BUSY and DONE: as a command of its own or inside another one it ends alike (R35). -/
def EndsAlike (f : State → Progress) : Prop :=
  ∀ s, complete (progressState (f (accept s))) = complete (progressState (f s))

theorem emitAll_endsAlike (vs : List Byte) (sz : Bool) : EndsAlike (emitAll vs sz) := by
  intro s
  induction vs generalizing s with
  | nil => rfl
  | cons v vs ih =>
    have hfull : destFull (accept s) = destFull s := rfl
    rw [emitAll_cons, emitAll_cons, emit, emit, hfull]
    split_ifs
    · exact ih (advanceDst s)
    · rfl
    · exact ih (advanceDst (memWrite s s.dstPos.toNat v))

theorem stblkStage_endsAlike (sz : Bool) : EndsAlike (stblkStage sz) := fun s =>
  emitAll_endsAlike s.blk.toList sz s

theorem bmfStage_endsAlike (sz : Bool) : EndsAlike (bmfStage sz) := fun s =>
  emitAll_endsAlike (compressedBytes s.blk) sz s

theorem bmiStage_endsAlike : EndsAlike fun s => .running (bmiStage s) := by
  intro s
  have hinput : inputLeft (accept s) = inputLeft s := rfl
  dsimp only
  rw [bmiStage_eq, bmiStage_eq, hinput]
  rfl

theorem ldblkStage_endsAlike (p : TailPolicy) : EndsAlike fun s => .running (ldblkStage p s).2 := by
  intro s
  dsimp only
  by_cases h32 : 32 ≤ remaining s
  · rw [ldblkStage_whole p h32, ldblkStage_whole p (s := accept s) h32]
    rfl
  · by_cases h0 : s.srcLen ≤ s.srcPos
    · rw [ldblkStage_empty p h0, ldblkStage_empty p (s := accept s) h0]
      rfl
    · have h1 : 1 ≤ remaining s := Nat.pos_of_ne_zero (mt (remaining_eq_zero_iff s).mp h0)
      have hlt : remaining s < 32 := Nat.not_le.mp h32
      by_cases hp : p = .zeropad
      · rw [hp, ldblkStage_zeropad h1 hlt, ldblkStage_zeropad (s := accept s) h1 hlt]
        rfl
      · rw [ldblkStage_refusesTail hp h1 hlt, ldblkStage_refusesTail hp (s := accept s) h1 hlt]
        rfl

/-- The state after a stage command that follows another command, with legal lengths (R154). -/
theorem after_stage {i : Instr} {f : State → Progress} (hi : ∀ s, exec i s = .next (runStage f s)) (hf : EndsAlike f)
    {s : State} (hlegal : lengthsLegal s) : after i (complete s) = complete (progressState (f s)) := by
  rw [after, hi, runStage_legal (s := complete s) hlegal]
  exact hf s

/-! ### What the stages of one block keep -/

theorem lengthsLegal_keptByParts : KeptByParts lengthsLegal := by
  constructor <;> intros <;> assumption

theorem bmiStage_bounds (s : State) : (bmiStage s).bounds = s.bounds := by
  obtain ⟨b, p, n, t, e⟩ := bmiStage_frame s
  rw [e]

theorem loadBytes_bounds (n : Nat) (s : State) : (loadBytes n s).bounds = s.bounds := by
  obtain ⟨b, p, e⟩ := loadBytes_frame n s
  rw [e]

theorem ldblkStage_bounds (p : TailPolicy) (s : State) : (ldblkStage p s).2.bounds = s.bounds := by
  rcases ldblkStage_cases p s with ⟨-, e⟩ | ⟨-, -, -, e⟩ | ⟨-, -, -, e⟩ | ⟨-, e⟩ <;> rw [e]
  · exact loadBytes_bounds 32 s
  · exact loadBytes_bounds _ (setTail s)
  · rfl

/-- LDBLK loads a block just if BLKCNT grows (R130, R143). -/
theorem ldblkStage_blkCnt_eq_iff (p : TailPolicy) (s : State) :
    (ldblkStage p s).2.blkCnt = s.blkCnt ↔ (ldblkStage p s).1 = false := by
  cases h : (ldblkStage p s).1 with
  | true => simp [(ldblkStage_loaded h).blkCnt]
  | false => rcases ldblkStage_not_loaded h with e | e <;> simp [e]

/-- BOUNDS tells whether output was aborted, where it was 0 before (R168). -/
theorem emitAll_bounds_cases (vs : List Byte) (sz : Bool) (s : State) :
    (∃ t, emitAll vs sz s = .running t ∧ t.bounds = s.bounds) ∨
    (∃ t, emitAll vs sz s = .aborted t ∧ t.bounds = true) := by
  induction vs generalizing s with
  | nil => exact .inl ⟨s, rfl, rfl⟩
  | cons v vs ih =>
    rw [emitAll_cons]
    rcases emit_cases v sz s with ⟨-, e⟩ | ⟨-, -, e⟩ | ⟨-, -, e⟩ <;> rw [e]
    · exact ih (advanceDst s)
    · exact .inr ⟨_, rfl, rfl⟩
    · exact ih (advanceDst (memWrite s s.dstPos.toNat v))

/-! ### The two loops -/

theorem stageDecode_block {s : State} (h : s.srcPos < s.srcLen) (n : Nat) :
    stageDecode (n + 1) s =
      if (after .stblk (after .xorf (after .bmi s))).bounds then after .stblk (after .xorf (after .bmi s))
      else stageDecode n (after .stblk (after .xorf (after .bmi s))) := if_pos h

theorem stageDecode_stop {s : State} (h : ¬ s.srcPos < s.srcLen) (n : Nat) : stageDecode (n + 1) s = s := if_neg h

theorem stageEncode_block {s : State} (h : (after .ldblk s).blkCnt ≠ s.blkCnt) (n : Nat) :
    stageEncode (n + 1) s =
      if (after .bmf (after .xori (after .ldblk s))).bounds then after .bmf (after .xori (after .ldblk s))
      else stageEncode n (after .bmf (after .xori (after .ldblk s))) := if_neg h

theorem stageEncode_stop {s : State} (h : (after .ldblk s).blkCnt = s.blkCnt) (n : Nat) :
    stageEncode (n + 1) s = after .ldblk s := if_pos h

/-- The three commands of the script for one block of DEC do what its loop does for it (R132, R143). -/
theorem after_decodeStages {s : State} (hlegal : lengthsLegal s) :
    after .stblk (after .xorf (after .bmi (complete s))) =
      complete (progressState (stblkStage false (xorfStage (bmiStage s)))) := by
  have hbmi : lengthsLegal (bmiStage s) := lengthsLegal_keptByParts.bmiStage_kept hlegal
  have hxorf : lengthsLegal (xorfStage (bmiStage s)) := lengthsLegal_keptByParts.blk _ _ hbmi
  rw [after_stage (fun _ => rfl) bmiStage_endsAlike hlegal, progressState_running,
    after_stage (f := fun t => .running (xorfStage t)) (fun _ => rfl) (fun _ => rfl) hbmi, progressState_running,
    after_stage (fun _ => rfl) (stblkStage_endsAlike false) hxorf]

theorem after_ldblk {s : State} (hlegal : lengthsLegal s) :
    after .ldblk (complete s) = complete (ldblkStage Config.tailPolicy s).2 :=
  after_stage (fun _ => rfl) (ldblkStage_endsAlike Config.tailPolicy) hlegal

/-- The three commands of the script for one block of ENC do what its loop does for it (R134, R143). -/
theorem after_encodeStages {s : State} (hlegal : lengthsLegal s) :
    after .bmf (after .xori (after .ldblk (complete s))) =
      complete (progressState (bmfStage false (xoriStage (ldblkStage Config.tailPolicy s).2))) := by
  have hload : lengthsLegal (ldblkStage Config.tailPolicy s).2 := lengthsLegal_keptByParts.ldblkStage_kept _ hlegal
  have hxori : lengthsLegal (xoriStage (ldblkStage Config.tailPolicy s).2) := lengthsLegal_keptByParts.blk _ _ hload
  rw [after_ldblk hlegal, after_stage (f := fun t => .running (xoriStage t)) (fun _ => rfl) (fun _ => rfl) hload,
    progressState_running, after_stage (fun _ => rfl) (bmfStage_endsAlike false) hxori]

/-- A loop that stops where its output is aborted is one that stops at BOUNDS, where it goes on alike (R143, R168). -/
theorem complete_andThen_emitAll {s : State} (hlegal : lengthsLegal s) (hbounds : s.bounds = false) (vs : List Byte)
    {f : State → Progress} {g : State → State}
    (hfg : ∀ {t}, lengthsLegal t → t.bounds = false → complete (progressState (f t)) = g (complete t)) :
    complete (progressState (andThen (emitAll vs false s) f)) =
      if (complete (progressState (emitAll vs false s))).bounds then complete (progressState (emitAll vs false s))
      else g (complete (progressState (emitAll vs false s))) := by
  have hkept := lengthsLegal_keptByParts.emitAll_kept vs false hlegal
  rcases emitAll_bounds_cases vs false s with ⟨t, e, ht⟩ | ⟨t, e, ht⟩ <;> rw [e] at hkept ⊢
  · rw [andThen_running, progressState_running, complete_bounds, ht, hbounds, if_neg Bool.false_ne_true]
    exact hfg hkept (ht.trans hbounds)
  · rw [andThen_aborted, progressState_aborted, complete_bounds, if_pos ht]

/-- The loop of DEC is the script's loop (R132, R143). -/
theorem complete_decLoop (n : Nat) {s : State} (hlegal : lengthsLegal s) (hbounds : s.bounds = false) :
    complete (progressState (decLoop false n s)) = stageDecode n (complete s) := by
  induction n generalizing s with
  | zero => rfl
  | succ n ih =>
    by_cases h : s.srcPos < s.srcLen
    · have hxorf : lengthsLegal (xorfStage (bmiStage s)) :=
        lengthsLegal_keptByParts.blk _ _ (lengthsLegal_keptByParts.bmiStage_kept hlegal)
      have hxorfBounds : (xorfStage (bmiStage s)).bounds = false := by rw [xorfStage_bounds, bmiStage_bounds, hbounds]
      rw [decLoop_block false n s h, stageDecode_block (s := complete s) h, after_decodeStages hlegal]
      exact complete_andThen_emitAll hxorf hxorfBounds _ ih
    · rw [decLoop_exhausted false _ s (BitVec.not_lt.mp h), stageDecode_stop (s := complete s) h, progressState_running]

/-- The loop of ENC is the script's loop (R134, R143). -/
theorem complete_encLoop (n : Nat) {s : State} (hlegal : lengthsLegal s) (hbounds : s.bounds = false) :
    complete (progressState (encLoop Config.tailPolicy false n s)) = stageEncode n (complete s) := by
  induction n generalizing s with
  | zero => rfl
  | succ n ih =>
    have hgrown : (after .ldblk (complete s)).blkCnt = (complete s).blkCnt ↔
        (ldblkStage Config.tailPolicy s).1 = false := by
      rw [after_ldblk hlegal]
      exact ldblkStage_blkCnt_eq_iff Config.tailPolicy s
    cases hl : (ldblkStage Config.tailPolicy s).1 with
    | true =>
      have hxori : lengthsLegal (xoriStage (ldblkStage Config.tailPolicy s).2) :=
        lengthsLegal_keptByParts.blk _ _ (lengthsLegal_keptByParts.ldblkStage_kept _ hlegal)
      have hxoriBounds : (xoriStage (ldblkStage Config.tailPolicy s).2).bounds = false := by
        rw [xoriStage_bounds, ldblkStage_bounds, hbounds]
      rw [encLoop_block Config.tailPolicy false n s hl, stageEncode_block (mt hgrown.mp (by rw [hl]; decide)),
        after_encodeStages hlegal]
      exact complete_andThen_emitAll hxori hxoriBounds _ ih
    | false =>
      rw [encLoop_stop Config.tailPolicy false n s hl, stageEncode_stop (hgrown.mpr hl), after_ldblk hlegal,
        progressState_running]

/-! ### The two commands -/

/-- A whole-buffer command with legal lengths runs its body between the zeroing and the end (R136, R154). -/
theorem runWhole_legal {s : State} (hlegal : lengthsLegal s) (body : State → Progress) :
    runWhole body s = complete (progressState (body (clearPass (accept s)))) := by
  rw [runWhole, (lengthsIllegal_eq_false_iff s).mpr hlegal, if_neg Bool.false_ne_true]

theorem after_clr (s : State) : after .clr s = complete (clearPass (accept s)) := rfl

/-- Where REJECT does not refuse the length, the encode pass is its loop (R134). -/
theorem encPass_eq_encLoop {p : TailPolicy} {s : State} (h : s.srcLen.toNat % 32 = 0 ∨ p ≠ .reject) (sz : Bool) :
    encPass p sz s = encLoop p sz (s.srcLen.toNat / 32 + 1 + 1) s := by
  refine if_neg ?_
  rw [lengthPartial, Bool.and_eq_true, decide_eq_true_iff, beq_iff_eq]
  tauto

/-- Settles O46: after CLR the loop of each command is the loop of its script. -/
theorem wholeBufferCommandsAreStageScripts : Obligations.WholeBufferCommandsAreStageScripts := by
  intro s hlegal
  have hlegal' : lengthsLegal (clearPass (accept s)) := hlegal
  rw [after_clr]
  refine ⟨congrArg Host.Outcome.next ?_, fun hgo => congrArg Host.Outcome.next ?_⟩ <;> rw [runWhole_legal hlegal]
  · exact complete_decLoop _ hlegal' rfl
  · rw [encPass_eq_encLoop (s := clearPass (accept s)) hgo]
    exact complete_encLoop _ hlegal' rfl

end Sys2Proof.Proofs

/-! PROOFS. DEC into a destination that is too small stops in the block in hand (spec 42_sparse_bitmap.md R115;
43_block_driver.md R132, R142; 60_exceptions.md R168). -/

namespace Sys2Proof.Proofs

open Sys2Proof Sys2Proof.Machine Sys2Proof.Safety

/-! ### Where the output ends -/

/-- The first piece of the output stored whole and the rest as far as it fits are the output as far as it fits. -/
theorem storeBytes_take_append (m : Memory) (a : Nat) {vs : List Byte} {n : Nat} (h : vs.length ≤ n) (ws : List Byte) :
    storeBytes (storeBytes m a vs) (a + vs.length) (ws.take (n - vs.length)) = storeBytes m a ((vs ++ ws).take n) := by
  rw [← storeBytes_append, List.take_append, List.take_of_length_le h]

/-! ### The decoded blocks, from the first on -/

/-- The input ends inside a block only where none of it is left (R115). -/
theorem blockOfInput_complete {input : List Byte} (h : (blockOfInput input).2.1 ≠ []) :
    (blockOfInput input).2.2 = false := by
  rcases blockOfInput_cases input with ⟨rs, rest, hwf, rfl⟩ | ⟨hleft, -⟩
  · rw [blockOfInput_compressedBlock hwf]
  · exact absurd hleft h

/-- Where blocks follow, the first block was complete (R115). -/
theorem blockOfInput_complete_of_more {n : Nat} {input : List Byte}
    (h : (decodedBlocks n (blockOfInput input).2.1).1 ≠ []) : (blockOfInput input).2.2 = false :=
  blockOfInput_complete fun hleft => h (by rw [hleft, decodedBlocks_nil])

theorem decodedBlocks_not_truncated {n : Nat} {input : List Byte} (h : (decodedBlocks n input).1 = []) :
    (decodedBlocks n input).2 = false := by
  cases n with
  | zero => rfl
  | succ n =>
    by_cases hne : input = []
    · rw [hne, decodedBlocks_nil]
    · rw [decodedBlocks_succ n hne] at h
      cases h

/-- The input ends inside the first block just if it is truncated and there is no other block (R115, R142). -/
theorem truncated_in_first (n : Nat) (input : List Byte) :
    (((blockOfInput input).2.2 || (decodedBlocks n (blockOfInput input).2.1).2) &&
      decide ((decodedBlocks n (blockOfInput input).2.1).1.length + 1 = 0 + 1)) = (blockOfInput input).2.2 := by
  by_cases h : (decodedBlocks n (blockOfInput input).2.1).1 = []
  · rw [decodedBlocks_not_truncated h, h]
    simp
  · rw [blockOfInput_complete_of_more h]
    simp [h]

/-! ### The loop of DEC without room -/

/-- The state in which DEC stops in block `k` of the blocks `d.1`, which is `b` (R142), with the bytes written that
fit. -/
def decodeAborted (d : List Block × Bool) (k : Nat) (b : Block) (s : State) : State :=
  { s with
    blk := b
    srcPos := s.srcLen - BitVec.ofNat 32 (inputAfter (k + 1) (inputLeft s)).length
    dstPos := s.dstCap
    blkCnt := s.blkCnt + BitVec.ofNat 32 (k + 1)
    trunc := s.trunc || (d.2 && decide (d.1.length = k + 1))
    bounds := true
    dst := storeBytes s.dst s.dstPos.toNat ((bytesOfBlocks d.1).take (s.dstCap.toNat - s.dstPos.toNat)) }

/-- SRC_POS stands as far before SRC_LEN as bytes are left. -/
theorem srcPos_eq_sub_inputLeft {s : State} (h : s.srcPos ≤ s.srcLen) :
    s.srcPos = s.srcLen - BitVec.ofNat 32 (inputLeft s).length := by
  rw [inputLeft_length, eq_sub_iff_add_eq, srcPos_add_remaining h]

/-- SRC_POS after BMI, from the end of the source (R114). -/
theorem bmiStage_srcPos {s : State} (h : s.srcPos < s.srcLen) :
    (bmiStage s).srcPos = s.srcLen - BitVec.ofNat 32 (blockOfInput (inputLeft s)).2.1.length := by
  have hread := bmiStage_blockRead h
  have hle : (bmiStage s).srcPos ≤ (bmiStage s).srcLen := by
    rw [BitVec.le_def, hread.srcLen]
    exact hread.upper
  rw [srcPos_eq_sub_inputLeft hle, hread.srcLen, inputLeft_bmiStage]

/-- The state after one block was pulled, transformed to `b` and stored as far as it fits (R168). -/
def blockCut (b : Block) (s : State) : State :=
  { bmiStage s with
    blk := b
    dstPos := s.dstCap
    bounds := true
    dst := storeBytes s.dst s.dstPos.toNat (b.toList.take (s.dstCap.toNat - s.dstPos.toNat)) }

/-- DEC's transform and output of the block in BLK, without room for it (R132, R168). -/
theorem stblk_xorf_noRoom {t : State} (hpos : t.dstPos ≤ t.dstCap) (hover : t.dstCap.toNat < t.dstPos.toNat + 32) :
    stblkStage false (xorfStage t) = .aborted { t with
      blk := xorForward t.blk
      dst := storeBytes t.dst t.dstPos.toNat ((xorForward t.blk).toList.take (t.dstCap.toNat - t.dstPos.toNat))
      dstPos := t.dstCap, bounds := true } := by
  have hpos' : (xorfStage t).dstPos ≤ (xorfStage t).dstCap := by rwa [xorfStage_dstPos, xorfStage_dstCap]
  have hover' : (xorfStage t).dstCap.toNat < (xorfStage t).dstPos.toNat + (xorForward t.blk).toList.length := by
    rwa [xorfStage_dstPos, xorfStage_dstCap, Vector.length_toList]
  rw [stblkStage, xorfStage_blk, emitAll_noRoom hpos' hover', xorfStage]

/-- One iteration of DEC's loop without room for the block (R132, R168). -/
theorem stblk_xorf_bmi_noRoom {s : State} (hpos : s.dstPos ≤ s.dstCap) (hover : s.dstCap.toNat < s.dstPos.toNat + 32) :
    stblkStage false (xorfStage (bmiStage s)) =
      .aborted (blockCut (xorForward (blockOfList (blockOfInput (inputLeft s)).1)) s) := by
  have hblk : (bmiStage s).blk = blockOfList (blockOfInput (inputLeft s)).1 := by rw [bmiStage_eq]
  rw [← bmiStage_dstPos s, ← bmiStage_dstCap s] at hpos hover
  rw [stblk_xorf_noRoom hpos hover, hblk, blockCut, bmiStage_dst, bmiStage_dstPos, bmiStage_dstCap]

/-- DEC stops in the first block where that does not fit (R142). -/
theorem blockCut_eq_decodeAborted {s : State} (h : s.srcPos < s.srcLen) (hover : s.dstCap.toNat < s.dstPos.toNat + 32)
    (b : Block) (n : Nat) :
    blockCut b s =
      decodeAborted (b :: (decodedBlocks n (blockOfInput (inputLeft s)).2.1).1,
        (blockOfInput (inputLeft s)).2.2 || (decodedBlocks n (blockOfInput (inputLeft s)).2.1).2) 0 b s := by
  have hfits : s.dstCap.toNat - s.dstPos.toNat ≤ b.toList.length := by rw [Vector.length_toList]; omega
  have hleft : inputAfter (0 + 1) (inputLeft s) = (blockOfInput (inputLeft s)).2.1 := rfl
  rw [decodeAborted, List.length_cons, truncated_in_first, hleft, ← bmiStage_srcPos h, bytesOfBlocks_cons,
    List.take_append_of_le_length hfits, blockCut, bmiStage_eq]
  simp only [if_pos h]

theorem blockStored_dstCap (b : Block) (s : State) : (blockStored false b s).dstCap = s.dstCap := by
  rw [← bmiStage_dstCap s, blockStored]

theorem blockStored_dstPos {s : State} (hroom : s.dstPos.toNat + 32 ≤ s.dstCap.toNat) (b : Block) :
    (blockStored false b s).dstPos.toNat = s.dstPos.toNat + 32 :=
  toNat_add_ofNat (p := s.dstPos) (n := 32) (hroom.trans_lt s.dstCap.isLt)

/-- To stop in block `k` after the first block was stored is to stop in block `k + 1` (R142). -/
theorem decodeAborted_blockStored {s : State} (h : s.srcPos < s.srcLen) (hroom : s.dstPos.toNat + 32 ≤ s.dstCap.toNat)
    (b b' : Block) (d : List Block × Bool) (hcomplete : (blockOfInput (inputLeft s)).2.2 = false) (k : Nat) :
    decodeAborted d k b' (blockStored false b s) =
      decodeAborted (b :: d.1, (blockOfInput (inputLeft s)).2.2 || d.2) (k + 1) b' s := by
  have hcap := s.dstCap.isLt
  have hcount : s.blkCnt + BitVec.ofNat 32 (k + 1 + 1) = s.blkCnt + 1#32 + BitVec.ofNat 32 (k + 1) := by
    rw [Nat.add_comm (k + 1), BitVec.ofNat_add, BitVec.add_assoc]
  have hleft : inputAfter (k + 1 + 1) (inputLeft s) = inputAfter (k + 1) (blockOfInput (inputLeft s)).2.1 := rfl
  have hmoved : (s.dstPos + 32#32).toNat = s.dstPos.toNat + b.toList.length := by
    rw [Vector.length_toList]
    exact toNat_add_ofNat (n := 32) (by omega)
  have hstored := storeBytes_take_append s.dst s.dstPos.toNat (vs := b.toList)
    (n := s.dstCap.toNat - s.dstPos.toNat) (by rw [Vector.length_toList]; omega) (bytesOfBlocks d.1)
  rw [decodeAborted, decodeAborted, inputLeft_blockStored, hleft, hcount, bytesOfBlocks_cons, ← hstored, blockStored,
    bmiStage_eq]
  simp only [if_pos h, hcomplete, hmoved, emitted, Bool.false_eq_true, if_false, Bool.or_false, Bool.false_or,
    List.length_cons, Nat.add_right_cancel_iff, Nat.sub_add_eq]

/-- The loop of DEC without room for its output stops in the block in which the room ends (R142). -/
theorem decLoop_noRoom (n : Nat) (s : State) (hpos : s.dstPos ≤ s.dstCap)
    (hover : s.dstCap.toNat < s.dstPos.toNat + 32 * (decodedBlocks n (inputLeft s)).1.length) :
    ∃ b, (decodedBlocks n (inputLeft s)).1[(s.dstCap.toNat - s.dstPos.toNat) / 32]? = some b ∧
      decLoop false n s = .aborted
        (decodeAborted (decodedBlocks n (inputLeft s)) ((s.dstCap.toNat - s.dstPos.toNat) / 32) b s) := by
  have hle := BitVec.le_def.mp hpos
  induction n generalizing s with
  | zero => exact absurd hover (Nat.not_lt.mpr hle)
  | succ n ih =>
    have h : s.srcPos < s.srcLen := by
      by_contra hend
      rw [(inputLeft_eq_nil_iff s).mpr (BitVec.not_lt.mp hend), decodedBlocks_nil] at hover
      exact absurd hover (Nat.not_lt.mpr hle)
    have hne : inputLeft s ≠ [] := mt (inputLeft_eq_nil_iff s).mp (BitVec.not_le.mpr h)
    rw [decodedBlocks_succ n hne] at hover ⊢
    rw [decLoop_block false n s h]
    by_cases hroom : s.dstPos.toNat + 32 ≤ s.dstCap.toNat
    · obtain ⟨b, hb⟩ : ∃ b, b = xorForward (blockOfList (blockOfInput (inputLeft s)).1) := ⟨_, rfl⟩
      have hindex : (s.dstCap.toNat - s.dstPos.toNat) / 32 = (s.dstCap.toNat - (s.dstPos.toNat + 32)) / 32 + 1 := by
        omega
      have hrest := ih (blockStored false b s)
      rw [BitVec.le_def, inputLeft_blockStored, blockStored_dstPos hroom, blockStored_dstCap] at hrest
      rw [List.length_cons] at hover
      obtain ⟨b', hb', hloop⟩ := hrest hroom (by omega) hroom
      have hmore : (decodedBlocks n (blockOfInput (inputLeft s)).2.1).1 ≠ [] := fun hnone => by
        rw [hnone] at hb'
        cases hb'
      rw [stblk_xorf_bmi_room (.inr hroom), andThen_running, ← hb, hloop, hindex,
        decodeAborted_blockStored h hroom _ _ _ (blockOfInput_complete_of_more hmore)]
      exact ⟨b', hb', rfl⟩
    · have hfirst : (s.dstCap.toNat - s.dstPos.toNat) / 32 = 0 := by omega
      rw [hfirst, stblk_xorf_bmi_noRoom hpos (Nat.not_le.mp hroom), andThen_aborted,
        blockCut_eq_decodeAborted h (Nat.not_le.mp hroom)]
      exact ⟨_, rfl, rfl⟩

/-- Settles O40: `decLoop_noRoom` at the start of the pass. -/
theorem abortedDecStopsInTheBlockInHand : Obligations.AbortedDecStopsInTheBlockInHand := by
  intro s hlegal hover
  have hstart : inputLeft (clearPass (accept s)) = wholeInput s := inputLeft_start rfl
  have hloop := decLoop_noRoom s.srcLen.toNat (clearPass (accept s)) (BitVec.le_def.mpr (Nat.zero_le _))
  rw [hstart, ← decoded] at hloop
  obtain ⟨b, hb, hloop⟩ := hloop (by simpa using hover)
  refine ⟨storeBytes s.dst 0 ((bytesOfBlocks (decoded s).1).take s.dstCap.toNat), b, congrArg Host.Outcome.next ?_,
    by simpa using hb, byteAt_storeBytes .destination s.dst 0 _⟩
  rw [runWhole_legal hlegal, decPass, clearPass_srcLen, accept_srcLen, hloop, progressState_aborted, decodeAborted,
    hstart]
  simp [complete, clearPass, accept]

end Sys2Proof.Proofs

/-! PROOFS. ENC into a destination that is too small stops in the block in hand, and both commands leave the
beginning of their output (spec 43_block_driver.md R130, R134, R142; 60_exceptions.md R168, R169). -/

namespace Sys2Proof.Proofs

open Sys2Proof Sys2Proof.Machine Sys2Proof.Safety

/-! ### One block of ENC -/

/-- LDBLK where it loads, a whole block or under ZEROPAD a partial one (R130). -/
theorem ldblkStage_loads {p : TailPolicy} {s : State} (h1 : 1 ≤ remaining s) (h : 32 ≤ remaining s ∨ p = .zeropad) :
    ldblkStage p s = (true, { s with
      blk := blockOfList ((inputLeft s).take 32)
      srcPos := s.srcPos + BitVec.ofNat 32 (min 32 (remaining s))
      blkCnt := s.blkCnt + 1#32
      tail := s.tail || decide (remaining s < 32) }) := by
  by_cases h32 : 32 ≤ remaining s
  · simp [ldblkStage_whole p h32, Nat.min_eq_left h32, Nat.not_lt.mpr h32]
  · have hlt := Nat.not_le.mp h32
    have hall : (inputLeft s).take 32 = inputLeft s := List.take_of_length_le ((inputLeft_length s).trans_le hlt.le)
    obtain rfl := h.resolve_left h32
    simp [ldblkStage_zeropad h1 hlt, hall, Nat.min_eq_right hlt.le, srcPos_add_remaining (srcPos_le_srcLen_of_left h1),
      hlt]

/-- Where LDBLK loads, the raw blocks begin with the block it loads (R130, R134). -/
theorem rawBlocks_loads {p : TailPolicy} (n : Nat) {input : List Byte} (h1 : 1 ≤ input.length)
    (h : 32 ≤ input.length ∨ p = .zeropad) :
    ∃ bs, rawBlocks p (n + 1) input = blockOfList (input.take 32) :: bs ∧
      (32 ≤ input.length → bs = rawBlocks p n (input.drop 32)) ∧ (input.length < 32 → bs = []) := by
  by_cases h32 : 32 ≤ input.length
  · exact ⟨_, rawBlocks_whole p n h32, fun _ => rfl, fun hlt => absurd h32 (Nat.not_le.mpr hlt)⟩
  · have hlt := Nat.not_le.mp h32
    obtain rfl := h.resolve_left h32
    refine ⟨[], ?_, fun hge => absurd hge h32, fun _ => rfl⟩
    rw [rawBlocks_zeropad n h1 hlt, List.take_of_length_le hlt.le]

/-- ENC's transform and output of the block in BLK, without room for it (R134, R168). -/
theorem bmf_xori_noRoom {t : State} (hpos : t.dstPos ≤ t.dstCap)
    (hover : t.dstCap.toNat < t.dstPos.toNat + (compressedBytes (xorInverse t.blk)).length) :
    bmfStage false (xoriStage t) = .aborted { t with
      blk := xorInverse t.blk
      dst := storeBytes t.dst t.dstPos.toNat
        ((compressedBytes (xorInverse t.blk)).take (t.dstCap.toNat - t.dstPos.toNat))
      dstPos := t.dstCap, bounds := true } := by
  have hpos' : (xoriStage t).dstPos ≤ (xoriStage t).dstCap := by rwa [xoriStage_dstPos, xoriStage_dstCap]
  have hover' : (xoriStage t).dstCap.toNat <
      (xoriStage t).dstPos.toNat + (compressedBytes (xorInverse t.blk)).length := by
    rwa [xoriStage_dstPos, xoriStage_dstCap]
  rw [bmfStage, xoriStage_blk, emitAll_noRoom hpos' hover', xoriStage]

/-! ### The loop of ENC without room -/

/-- The state in which ENC stops in block `k` of `bs`, the block `b` (R142), with the bytes written that fit. -/
def encodeAborted (bs : List Block) (k : Nat) (b : Block) (s : State) : State :=
  { s with
    blk := b
    srcPos := s.srcPos + BitVec.ofNat 32 (min (32 * (k + 1)) (remaining s))
    dstPos := s.dstCap
    blkCnt := s.blkCnt + BitVec.ofNat 32 (k + 1)
    tail := s.tail || decide (remaining s < 32 * (k + 1))
    bounds := true
    dst := storeBytes s.dst s.dstPos.toNat ((streamOf bs).take (s.dstCap.toNat - s.dstPos.toNat)) }

/-- The first `n` bytes of the stream of `bs` end in block `k`, which is `b`: it is the first block they do not hold
whole (R142). -/
structure EndsInBlock (bs : List Block) (n k : Nat) (b : Block) : Prop where
  block : bs[k]? = some b
  before : (streamOf (bs.take k)).length ≤ n
  within : n < (streamOf (bs.take (k + 1))).length

theorem endsInBlock_zero {b : Block} {n : Nat} (h : n < (compressedBytes b).length) (bs : List Block) :
    EndsInBlock (b :: bs) n 0 b := by
  refine ⟨rfl, Nat.zero_le n, ?_⟩
  rw [Nat.zero_add, List.take_succ_cons, List.take_zero, streamOf_cons, List.length_append]
  exact Nat.lt_add_right _ h

theorem EndsInBlock.succ {bs : List Block} {n k : Nat} {b' : Block} (h : EndsInBlock bs n k b') (b : Block) :
    EndsInBlock (b :: bs) ((compressedBytes b).length + n) (k + 1) b' := by
  refine ⟨h.block, ?_, ?_⟩ <;> rw [List.take_succ_cons, streamOf_cons, List.length_append]
  · exact Nat.add_le_add_left h.before _
  · exact Nat.add_lt_add_left h.within _

/-- ENC stops in the first block where that does not fit (R142). -/
theorem encLoop_first_noRoom {p : TailPolicy} {s : State} (h1 : 1 ≤ remaining s) (h : 32 ≤ remaining s ∨ p = .zeropad)
    (hpos : s.dstPos ≤ s.dstCap) {b : Block} (hb : b = xorInverse (blockOfList ((inputLeft s).take 32)))
    (hover : s.dstCap.toNat < s.dstPos.toNat + (compressedBytes b).length) (n : Nat) (bs : List Block) :
    encLoop p false (n + 1) s = .aborted (encodeAborted (b :: bs) 0 b s) := by
  have hfits : s.dstCap.toNat - s.dstPos.toNat ≤ (compressedBytes b).length := by omega
  have hload := ldblkStage_loads h1 h
  have hstage := bmf_xori_noRoom (t := (ldblkStage p s).2)
  rw [hload] at hstage
  simp only [← hb] at hstage
  rw [encLoop_block p false n s (by rw [hload]), hload, hstage hpos hover, andThen_aborted, encodeAborted,
    streamOf_cons, List.take_append_of_le_length hfits]

theorem blockWritten_dstCap (b : Block) (k : Nat) (s : State) : (blockWritten false b k s).dstCap = s.dstCap := rfl

theorem blockWritten_dstPos {b : Block} {s : State}
    (hroom : s.dstPos.toNat + (compressedBytes b).length ≤ s.dstCap.toNat) (k : Nat) :
    (blockWritten false b k s).dstPos.toNat = s.dstPos.toNat + (compressedBytes b).length := by
  simpa [blockWritten, withBlocks, streamOf] using toNat_add_ofNat (hroom.trans_lt s.dstCap.isLt)

/-- To stop in block `k` after the first block was written is to stop in block `k + 1` (R142). -/
theorem encodeAborted_blockWritten {s : State} (h32 : 32 ≤ remaining s) {b : Block}
    (hroom : s.dstPos.toNat + (compressedBytes b).length ≤ s.dstCap.toNat) (bs : List Block) (k : Nat) (b' : Block) :
    encodeAborted bs k b' (blockWritten false b 32 s) = encodeAborted (b :: bs) (k + 1) b' s := by
  have hcount : s.blkCnt + BitVec.ofNat 32 (k + 1 + 1) = s.blkCnt + 1#32 + BitVec.ofNat 32 (k + 1) := by
    rw [Nat.add_comm (k + 1), BitVec.ofNat_add, BitVec.add_assoc]
  have hread : min (32 * (k + 1 + 1)) (remaining s) = 32 + min (32 * (k + 1)) (remaining s - 32) := by omega
  have htail : remaining s < 32 * (k + 1 + 1) ↔ remaining s - 32 < 32 * (k + 1) := by omega
  have hone : streamOf [b] = compressedBytes b := by simp [streamOf]
  have hmoved : (s.dstPos + BitVec.ofNat 32 (compressedBytes b).length).toNat =
      s.dstPos.toNat + (compressedBytes b).length := toNat_add_ofNat (hroom.trans_lt s.dstCap.isLt)
  have hstored := storeBytes_take_append s.dst s.dstPos.toNat (vs := compressedBytes b)
    (n := s.dstCap.toNat - s.dstPos.toNat) (by omega) (streamOf bs)
  rw [encodeAborted, encodeAborted, remaining_blockWritten h32, hcount, hread, streamOf_cons, ← hstored, blockWritten,
    withBlocks]
  simp only [hone, hmoved, htail, emitted, Bool.false_eq_true, if_false, List.length_singleton, BitVec.ofNat_add,
    BitVec.add_assoc, Nat.sub_add_eq]

/-- The loop of ENC without room for its output stops in the block in which the room ends (R142). -/
theorem encLoop_noRoom (p : TailPolicy) (n : Nat) (s : State) (hpos : s.dstPos ≤ s.dstCap)
    (hover : s.dstCap.toNat < s.dstPos.toNat + (streamOf ((rawBlocks p n (inputLeft s)).map xorInverse)).length) :
    ∃ k b, EndsInBlock ((rawBlocks p n (inputLeft s)).map xorInverse) (s.dstCap.toNat - s.dstPos.toNat) k b ∧
      encLoop p false (n + 1) s =
        .aborted (encodeAborted ((rawBlocks p n (inputLeft s)).map xorInverse) k b s) := by
  have hle := BitVec.le_def.mp hpos
  induction n generalizing s with
  | zero => exact absurd hover (Nat.not_lt.mpr hle)
  | succ n ih =>
    have hlen := inputLeft_length s
    by_cases hload : 1 ≤ remaining s ∧ (32 ≤ remaining s ∨ p = .zeropad)
    · obtain ⟨h1, h⟩ := hload
      obtain ⟨bs, hraw, hwhole, hlast⟩ := rawBlocks_loads (p := p) n (hlen.symm ▸ h1) (hlen.symm ▸ h)
      obtain ⟨b, hb⟩ : ∃ b, b = xorInverse (blockOfList ((inputLeft s).take 32)) := ⟨_, rfl⟩
      rw [hraw, List.map_cons, ← hb] at hover ⊢
      rw [streamOf_cons, List.length_append] at hover
      by_cases hroom : s.dstPos.toNat + (compressedBytes b).length ≤ s.dstCap.toNat
      · have h32 : 32 ≤ remaining s := by
          by_contra hlt
          rw [hlast (hlen.symm ▸ Nat.not_le.mp hlt)] at hover
          exact absurd hover (Nat.not_lt.mpr hroom)
        have hstage := (ldblkStage_cases p s).resolve_right (by omega)
        have hmoved := blockWritten_dstPos hroom 32
        have hn : s.dstCap.toNat - s.dstPos.toNat =
            (compressedBytes b).length + (s.dstCap.toNat - (s.dstPos.toNat + (compressedBytes b).length)) := by omega
        obtain rfl := hwhole (hlen.symm ▸ h32)
        rw [← inputLeft_blockWritten h32 false b] at hover ⊢
        have hrest := ih (blockWritten false b 32 s)
        rw [BitVec.le_def, blockWritten_dstCap, hmoved] at hrest
        obtain ⟨k, b', hends, hloop⟩ := hrest hroom (by omega) hroom
        rw [encLoop_loads h32 le_rfl hstage.2 false (n + 1) (hb ▸ .inr hroom), ← hb, hloop,
          encodeAborted_blockWritten h32 hroom, hn]
        exact ⟨k + 1, b', hends.succ b, rfl⟩
      · rw [encLoop_first_noRoom h1 h hpos hb (Nat.not_le.mp hroom)]
        exact ⟨0, b, endsInBlock_zero (by omega) _, rfl⟩
    · have hnone : remaining s = 0 ∨ p ≠ .zeropad := or_iff_not_imp_left.mpr fun h0 hp =>
        hload ⟨Nat.pos_of_ne_zero h0, .inr hp⟩
      rw [rawBlocks_none n (by omega) (hlen.symm ▸ hnone)] at hover
      exact absurd hover (Nat.not_lt.mpr hle)

/-! ### The encode pass without room -/

theorem encodedLength_eq (p : TailPolicy) (n : Nat) (s : State) :
    encodedLength p n s = (streamOf ((encodedBlocks p s).take n)).length := by
  rw [encodedLength, streamOf, List.length_flatten, List.map_map]
  rfl

/-- Settles O41: `encLoop_noRoom` at the start of the pass, which REJECT cannot have refused as there is output. -/
theorem abortedEncStopsInTheBlockInHand : Obligations.AbortedEncStopsInTheBlockInHand := by
  intro s hlegal hover
  have hrefused : ¬ (s.srcLen.toNat % 32 ≠ 0 ∧ Config.tailPolicy = .reject) := by
    intro hrej
    rw [encodedStream_eq, encodedBlocks, if_pos hrej] at hover
    exact absurd hover (Nat.not_lt_zero _)
  have hpass : s.srcLen.toNat % 32 = 0 ∨ Config.tailPolicy ≠ .reject := by tauto
  have hstart : inputLeft (clearPass (accept s)) = wholeInput s := inputLeft_start rfl
  have hrem : remaining (clearPass (accept s)) = s.srcLen.toNat := remaining_start rfl
  have hblocks : (rawBlocks Config.tailPolicy (s.srcLen.toNat / 32 + 1) (wholeInput s)).map xorInverse =
      encodedBlocks Config.tailPolicy s := by rw [encodedBlocks, if_neg hrefused]
  have hloop := encLoop_noRoom Config.tailPolicy (s.srcLen.toNat / 32 + 1) (clearPass (accept s))
    (BitVec.le_def.mpr (Nat.zero_le _))
  rw [hstart, hblocks, ← encodedStream_eq] at hloop
  obtain ⟨k, b, ⟨hblock, hbefore, hwithin⟩, hloop⟩ := hloop (by simpa using hover)
  rw [← encodedLength_eq] at hbefore hwithin
  refine ⟨storeBytes s.dst 0 ((encodedStream Config.tailPolicy s).take s.dstCap.toNat), b, k,
    congrArg Host.Outcome.next ?_, hblock, hbefore, hwithin, byteAt_storeBytes .destination s.dst 0 _⟩
  rw [runWhole_legal hlegal, encPass_eq_encLoop (s := clearPass (accept s)) hpass, clearPass_srcLen, accept_srcLen,
    hloop, progressState_aborted, encodeAborted, hrem, ← encodedStream_eq]
  simp [complete, clearPass, accept]

/-! ### The output as far as it fits -/

/-- From `s` to `t` the bytes `vs` were written from offset 0 as far as they fit, with BOUNDS only at the capacity
(R168). -/
structure FillsUpToCap (vs : List Byte) (s t : State) : Prop where
  full : t.bounds = true → t.dstPos = s.dstCap
  ends : t.dstPos.toNat = min vs.length s.dstCap.toNat
  bytes : writtenAt s.dst t.dst 0 (vs.take s.dstCap.toNat)

theorem FillsUpToCap.destByte_eq {vs : List Byte} {s t : State} (h : FillsUpToCap vs s t) {a : Nat}
    (ha : a < t.dstPos.toNat) : destByte t a = vs.getD a 0#8 := by
  rw [h.ends] at ha
  have hcap : a < s.dstCap.toNat := by omega
  rw [destByte, h.bytes, if_pos ⟨Nat.zero_le a, by rw [List.length_take]; omega⟩]
  simp [List.getD, hcap]

/-- What fills a destination is the beginning of what fills a larger one (R169). -/
theorem FillsUpToCap.destByte_eq_of_larger {vs : List Byte} {s s' t u : State} (ht : FillsUpToCap vs s t)
    (hu : FillsUpToCap vs s' u) (hcap : s.dstCap ≤ s'.dstCap) {a : Nat} (ha : a < t.dstPos.toNat) :
    destByte t a = destByte u a := by
  have hcap' := BitVec.le_def.mp hcap
  have hu' : a < u.dstPos.toNat := by
    rw [ht.ends] at ha
    rw [hu.ends]
    omega
  rw [ht.destByte_eq ha, hu.destByte_eq hu']

/-- DEC writes its output as far as it fits (R132, R142). -/
theorem exec_dec_fillsUpToCap {s : State} (hlegal : lengthsLegal s) :
    ∃ t, exec .dec s = .next t ∧ FillsUpToCap (bytesOfBlocks (decoded s).1) s t := by
  have hlen := bytesOfBlocks_length (decoded s).1
  by_cases hroom : 32 * (decoded s).1.length ≤ s.dstCap.toNat
  · obtain ⟨m, hdec, hdest⟩ := decDecodesTheWholeSource.2 s hlegal hroom
    refine ⟨_, hdec, nofun, ?_, ?_⟩
    · rw [hlen, Nat.min_eq_left hroom]
      exact Nat.mod_eq_of_lt (decoded_length_lt hlegal)
    · rwa [List.take_of_length_le (hlen.trans_le hroom)]
  · obtain ⟨m, b, hdec, -, hdest⟩ := abortedDecStopsInTheBlockInHand s hlegal (Nat.not_le.mp hroom)
    exact ⟨_, hdec, fun _ => rfl, by rw [hlen, Nat.min_eq_right (Nat.le_of_not_le hroom)], hdest⟩

/-- ENC writes its output as far as it fits (R134, R142). -/
theorem exec_enc_fillsUpToCap {s : State} (hlegal : lengthsLegal s) :
    ∃ t, exec .enc s = .next t ∧ FillsUpToCap (encodedStream Config.tailPolicy s) s t := by
  by_cases hroom : (encodedStream Config.tailPolicy s).length ≤ s.dstCap.toNat
  · obtain ⟨m, henc, hdest⟩ := encEncodesTheWholeSource.2 s hlegal hroom
    refine ⟨_, henc, nofun, ?_, ?_⟩
    · rw [Nat.min_eq_left hroom]
      exact Nat.mod_eq_of_lt (encodedStream_length_lt Config.tailPolicy hlegal).2
    · rwa [List.take_of_length_le hroom]
  · obtain ⟨m, b, n, henc, -, -, -, hdest⟩ := abortedEncStopsInTheBlockInHand s hlegal (Nat.not_le.mp hroom)
    exact ⟨_, henc, fun _ => rfl, by rw [Nat.min_eq_right (Nat.le_of_not_le hroom)], hdest⟩

/-- Settles O42: the output does not depend on DST_CAP, and both runs write it as far as it fits. -/
theorem abortLeavesACorrectPrefix : Obligations.AbortLeavesACorrectPrefix := by
  intro i s c hi hlegal hcap hc
  have hlegal' : lengthsLegal { s with dstCap := c } := ⟨hlegal.1, hc⟩
  rcases hi with rfl | rfl
  · obtain ⟨t, ht, hfill⟩ := exec_dec_fillsUpToCap hlegal
    obtain ⟨u, hu, hfill'⟩ := exec_dec_fillsUpToCap hlegal'
    exact ⟨t, u, ht, hu, hfill.full, fun a => hfill.destByte_eq_of_larger hfill' hcap⟩
  · obtain ⟨t, ht, hfill⟩ := exec_enc_fillsUpToCap hlegal
    obtain ⟨u, hu, hfill'⟩ := exec_enc_fillsUpToCap hlegal'
    exact ⟨t, u, ht, hu, hfill.full, fun a => hfill.destByte_eq_of_larger hfill' hcap⟩

end Sys2Proof.Proofs

/-! PROOFS. NOP and CLR as commands: neither has a CFGERR test, so acceptance and end alone frame them (spec 10_state.md
R22; 44_system.md R150, R151, R154). -/

namespace Sys2Proof.Proofs

open Sys2Proof Sys2Proof.Machine

theorem exec_nop (s : State) : exec .nop s = .next (complete (accept s)) := rfl

theorem exec_clr (s : State) : exec .clr s = .next (complete (clearPass (accept s))) := rfl

/-- The end of a command overwrites both bits that its acceptance wrote (R22). -/
theorem complete_accept (s : State) : complete (accept s) = { s with busy := false, done := true } := by
  rw [complete, accept]

/-- The zeroing concerns neither BUSY nor DONE, so it may as well come before the acceptance. -/
theorem clearPass_accept (s : State) : clearPass (accept s) = accept (clearPass s) := by
  rw [clearPass, accept, clearPass, accept]

/-- Settles O15: NOP is an acceptance and an end, with nothing between them. -/
theorem nopOnlyCompletes : Obligations.NopOnlyCompletes := by
  refine ⟨rfl, fun s => ?_⟩
  rw [exec_nop, complete_accept]

/-- Settles O16: CLR is the zeroing, followed by what NOP does. -/
theorem clrZeroesCursorsAndStickyFlags : Obligations.ClrZeroesCursorsAndStickyFlags := by
  refine ⟨rfl, fun s => ?_⟩
  rw [exec_clr, clearPass_accept, complete_accept, clearPass]

end Sys2Proof.Proofs

/-! PROOFS. The step with nothing to do, and the command refused for its configuration (spec 60_exceptions.md R165,
R174; 44_system.md R154). -/

namespace Sys2Proof.Proofs

open Sys2Proof Sys2Proof.Machine Sys2Proof.Safety

/-! ### An idle engine -/

/-- The turn of a host with no action left (R174). -/
theorem hostTurn_nil {s : State} (hs : s.script = []) : hostTurn s = .next s := by rw [hostTurn, hs]

/-- Settles O7: the step is the turn of a host with no action left. -/
theorem idleEngineKeepsAllState : Obligations.IdleEngineKeepsAllState := fun _ hb hs =>
  (step_idle hb).trans (hostTurn_nil hs)

/-! ### Illegal lengths -/

theorem lengthsIllegal_iff (s : State) :
    lengthsIllegal s = true ↔ Config.maxLen < s.srcLen ∨ Config.maxLen < s.dstCap := by
  rw [lengthsIllegal, Bool.or_eq_true, decide_eq_true_iff, decide_eq_true_iff]

theorem configured_isCommand : ∀ i ∈ configured, i.isCommand = true := by decide

/-- NOP and CLR make no CFGERR test (R154). -/
theorem not_configured_of_bare {i : Instr} (h : i = .nop ∨ i = .clr) : i ∉ configured := by
  rcases h with rfl | rfl <;> decide

/-- The refusal, between acceptance and end, leaves CFGERR and DONE as its only marks (R165). -/
theorem complete_refuseConfig_accept (s : State) :
    complete (refuseConfig (accept s)) = { s with cfgerr := true, busy := false, done := true } := by
  rw [complete, refuseConfig, accept]

/-- Settles O14: of the ways a command ends, illegal lengths leave only the refusal. -/
theorem illegalLengthsSetOnlyCfgerr : Obligations.IllegalLengthsSetOnlyCfgerr := by
  intro i s hi hlen
  have hillegal : lengthsIllegal s = true := (lengthsIllegal_iff s).mpr hlen
  obtain ⟨t, ht, hend⟩ := exec_commandEnd (configured_isCommand i hi) s
  cases hend with
  | refused => rw [ht, complete_refuseConfig_accept]
  | ran hlegal => exact absurd (hlegal.symm.trans hillegal) Bool.false_ne_true
  | bare h => exact absurd hi (not_configured_of_bare h)

end Sys2Proof.Proofs
